-- ==== Sys2Proof/Word.lean ====
section
/-! DEFINITION. The word types of the HTC block (spec/00_scope.md R7, spec/20_memory.md R60). -/

namespace Sys2Proof

/-- A byte: a symbol, an IMM8 field, a window byte (R7, R80). -/
abbrev Byte := BitVec 8

/-- A host-visible register, a weight, a symbol count, a command word: 64 bits, unsigned (R7, R8). -/
abbrev Word := BitVec 64

/-- An address of the 18-bit block address space (R60). -/
abbrev Addr := BitVec 18

end Sys2Proof
end

