-- ==== Sys2Proof/Config.lean ====
section
/-! DEFINITION. What one HTC block fixes: the capacities (spec/00_scope.md R6), the address map (spec/20_memory.md R70),
the ID constant (spec/10_state.md R37), and the FREE VALUES: the draws that the spec leaves unspecified
(spec/93_implementation_defined.md rows 10, 11, 12, 16). A free value has no body, so no proof can see what it is. -/

namespace Sys2Proof

/-- The five capacity parameters of R6. They are parameters of the model and never change (R52). -/
structure Caps where
  /-- BV_CAP: maximum BV_LEN, in bits. -/
  bvBits : Nat
  /-- IN_CAP: size of the IN window, in bytes. -/
  inBytes : Nat
  /-- OUT_CAP: size of the OUT window, in bytes. -/
  outBytes : Nat
  /-- NODE_CAP: maximum number of tree nodes held in TREE and PQ together. -/
  nodes : Nat
  /-- PQ_CAP: maximum number of entries in PQ. -/
  entries : Nat
  deriving DecidableEq, Repr

/-- The reference configuration of R6, the one spec/95_test_vectors.md uses. -/
def Caps.reference : Caps :=
  { bvBits := 1048576, inBytes := 65536, outBytes := 65536, nodes := 1024, entries := 512 }

namespace Config

/-- IN_BASE: IN[i] stands at block address 0x10000 + i (R70). -/
def inBase : Nat := 0x10000

/-- OUT_BASE: OUT[i] stands at block address 0x20000 + i (R70). -/
def outBase : Nat := 0x20000

/-- The first address above the OUT window's range (R70). -/
def outEnd : Nat := 0x30000

/-- The first address above the block address space (R60). -/
def spaceEnd : Nat := 0x40000

/-- The constant the ID register reads (R37). -/
def idValue : Word := 0x0000000048544331

/-- FREE VALUE (log 3, 4). The byte that draw number `draw` gives window address `addr`: what a window byte reads when
nothing has been written to it since that draw (R51, R67, R102; rows 10 and 11). -/
opaque freeByte : (draw : Nat) → (addr : Nat) → Byte

/-- FREE VALUE (log 5). What a host read made while BUSY = 1 returns, for each draw (R261; row 12). -/
opaque freeWord : (draw : Nat) → Word

/-- FREE VALUE (log 6). How many host accesses may land between an accepted CMD write and the engine's step, for each
draw: the command's latency, finite and otherwise unconstrained (R107, R264, R265; row 16). -/
opaque latency : (draw : Nat) → Nat

end Config

end Sys2Proof
end

