-- ==== Sys2Proof/Syntax.lean ====
section
/-! DEFINITION. Syntax: the 24 commands of the opcode map (spec/30_encoding.md R83), the registers of the register map
(spec/10_state.md R50), the host's accesses (spec/70_reset_and_hazards.md R255) and the lines of a host program
(spec/30_encoding.md R87, R88). -/

namespace Sys2Proof

/-- One constructor per row of spec/opcode_table.json (R83). A form S command carries `sym`, a form B command carries
`val`; the wide operand of a command is register ARG, not a field of the word (R81, R82). -/
inductive Instr where
  | nop
  | bvClear
  | bvGet
  | bvSet (val : Bool)
  | bvAppend (val : Bool)
  | bvReserve
  | bvPack
  | bvUnpack
  | freqClear
  | build
  | treeClear
  | pqClear
  | pqPushLeaf (sym : Byte)
  | pqMerge
  | pqPop
  | encodeSym (sym : Byte)
  | decodeSym
  | height (sym : Byte)
  | exportShape
  | exportFull
  | importShape
  | importFull
  | payloadEncode
  | payloadDecode
  deriving DecidableEq, Repr

/-- The named registers of the register map (R50); `freq s` is FREQ[s] (R44). -/
inductive Reg where
  | id
  | cmd
  | status
  | arg
  | result
  | bvLen
  | pos
  | inLen
  | inRp
  | outLen
  | pqLen
  | nodesUsed
  | ctrl
  | capBv
  | capIn
  | capOut
  | capNode
  | capPq
  | freq (sym : Byte)
  deriving DecidableEq, Repr

/-- One thing the host does (R255, R88): one read or write of the block address space, the `wait` poll, or `check`. -/
inductive BusOp where
  /-- MemRead(addr, width) (R9, R73). -/
  | read (addr : Addr) (width : Nat)
  /-- MemWrite(addr, width, value) (R9, R73). -/
  | write (addr : Addr) (width : Nat) (value : Word)
  /-- Read STATUS until the value read has bit 0 = 0 (R88). -/
  | wait
  /-- Read STATUS and end the program if bit 1 (ERR) is 1 (R88). -/
  | check
  deriving DecidableEq, Repr

/-- One line of a host program (R87) or pseudo-instruction (R88). -/
inductive Line where
  | wr (reg : Reg) (value : Word)
  | rd (reg : Reg)
  | wrbIn (i : Nat) (value : Byte)
  | wrbOut (i : Nat) (value : Byte)
  | rdbIn (i : Nat)
  | rdbOut (i : Nat)
  | cmd (instr : Instr)
  | wait
  | doCmd (instr : Instr)
  | doArg (instr : Instr) (arg : Word)
  | inload (i : Nat) (bytes : List Byte)
  | check
  deriving DecidableEq, Repr

end Sys2Proof
end

