-- ==== Sys2Proof/WellFormed.lean ====
section
/-! DEFINITION. Well-formed terms: a configuration within R6's bounds, a command whose operands R81 admits, a host access
whose width and alignment R62 and R63 admit, and a program line whose bytes lie in its window (R70, R87). -/

namespace Sys2Proof

/-- R6: every capacity at or above its guaranteed minimum, the windows and BV_CAP at or below their maximum. That the other
two capacities fit a 64-bit register is DEDUCED from R39 (log 2). -/
abbrev Caps.Ok (c : Caps) : Prop :=
  (4096 ≤ c.bvBits ∧ c.bvBits ≤ 2 ^ 32) ∧
  (4096 ≤ c.inBytes ∧ c.inBytes ≤ 65536) ∧
  (4096 ≤ c.outBytes ∧ c.outBytes ≤ 65536) ∧
  (511 ≤ c.nodes ∧ c.nodes < 2 ^ 64) ∧
  (256 ≤ c.entries ∧ c.entries < 2 ^ 64)

/-- R81: form N has no operand, form S admits all 256 symbols, form B both bit values. The operand types admit exactly
those, so every command term is well-formed; a constructor added later must be entered here. -/
def Instr.wellFormed : Instr → Bool
  | .nop | .bvClear | .bvGet | .bvReserve | .bvPack | .bvUnpack => true
  | .freqClear | .build | .treeClear | .pqClear | .pqMerge | .pqPop => true
  | .decodeSym | .exportShape | .exportFull | .importShape | .importFull => true
  | .payloadEncode | .payloadDecode => true
  | .bvSet _ | .bvAppend _ => true
  | .pqPushLeaf _ | .encodeSym _ | .height _ => true

/-- R63: a window access is 1, 2, 4 or 8 bytes wide and naturally aligned. -/
abbrev windowShape (addr width : Nat) : Prop :=
  (width = 1 ∨ width = 2 ∨ width = 4 ∨ width = 8) ∧ addr % width = 0

/-- R63: an access to a window of `cap` bytes does not cross the window's end: it lies wholly below it, or starts at or
beyond it (R64). -/
abbrev insideWindow (cap off width : Nat) : Prop := cap ≤ off ∨ off + width ≤ cap

/-- The accesses the host may make (R255): below the IN window those of the register map, whose offsets, reserved ones included, are
64 bits wide and 8-byte aligned (R62; from 0x01000 up DEDUCED from R50, log 9); from the IN window up those of R63. That the shapes of
R63 are those of the reserved range above the OUT window (R64) is a DESIGN CHOICE (log 9). -/
abbrev accessOk (c : Caps) (addr width : Nat) : Prop :=
  if addr < Config.inBase then width = 8 ∧ addr % 8 = 0
  else if addr < Config.outBase then
    windowShape addr width ∧ insideWindow c.inBytes (addr - Config.inBase) width
  else if addr < Config.outEnd then
    windowShape addr width ∧ insideWindow c.outBytes (addr - Config.outBase) width
  else windowShape addr width ∧ addr + width ≤ Config.spaceEnd

/-- A host access is well-formed when R255's table lists it; `wait` and `check` read STATUS. -/
def BusOp.wellFormed (c : Caps) : BusOp → Bool
  | .read addr width => decide (accessOk c addr.toNat width)
  | .write addr width _ => decide (accessOk c addr.toNat width)
  | .wait => true
  | .check => true

/-- A program line is well-formed when its command is and its byte offsets lie in the window's address range (R70, R87). -/
def Line.wellFormed : Line → Bool
  | .wr _ _ | .rd _ | .wait | .check => true
  | .wrbIn i _ | .wrbOut i _ | .rdbIn i | .rdbOut i => decide (i < 65536)
  | .cmd i | .doCmd i | .doArg i _ => i.wellFormed
  | .inload i bytes => decide (i + bytes.length ≤ 65536)

end Sys2Proof
end

