-- ==== Sys2Proof/Decode.lean ====
section
/-! DEFINITION. Decoding and encoding of command words (spec/30_encoding.md R80 to R86, opcode_table.json). -/

namespace Sys2Proof

/-- OPC, bits 31:24 of a command word (R80). -/
def opcField (w : Word) : Byte := w.extractLsb' 24 8

/-- IMM8, bits 23:16 of a command word (R80). -/
def immField (w : Word) : Byte := w.extractLsb' 16 8

/-- RSVD_HI, bits 63:32 of a command word (R80). -/
def rsvdHi (w : Word) : BitVec 32 := w.extractLsb' 32 32

/-- RSVD_LO, bits 15:0 of a command word (R80). -/
def rsvdLo (w : Word) : BitVec 16 := w.extractLsb' 0 16

/-- The operand forms of R81: none, symbol, bit. -/
inductive Form where
  | n
  | s
  | b
  deriving DecidableEq, Repr

/-- Why a word is illegal, in the order R84 checks. All four end in ILLEGAL_COMMAND (R85, R104). -/
inductive Reject where
  /-- RSVD_HI or RSVD_LO is not 0. -/
  | reservedBits
  /-- OPC is no opcode of R83. -/
  | unassignedOpcode
  /-- Form N with IMM8 not 0. -/
  | immediateOfFormN
  /-- Form B with IMM8[7:1] not 0. -/
  | immediateOfFormB
  deriving DecidableEq, Repr

/-- The opcode map of R83: an opcode's form, and its command with the operand that IMM8 gives (R82). -/
def opcodeMap (opc imm : Byte) : Option (Form × Instr) :=
  match opc.toNat with
  | 0x00 => some (.n, .nop)
  | 0x10 => some (.n, .bvClear)
  | 0x11 => some (.n, .bvGet)
  | 0x12 => some (.b, .bvSet (imm.getLsbD 0))
  | 0x13 => some (.b, .bvAppend (imm.getLsbD 0))
  | 0x14 => some (.n, .bvReserve)
  | 0x15 => some (.n, .bvPack)
  | 0x16 => some (.n, .bvUnpack)
  | 0x20 => some (.n, .freqClear)
  | 0x21 => some (.n, .build)
  | 0x22 => some (.n, .treeClear)
  | 0x23 => some (.n, .pqClear)
  | 0x24 => some (.s, .pqPushLeaf imm)
  | 0x25 => some (.n, .pqMerge)
  | 0x26 => some (.n, .pqPop)
  | 0x30 => some (.s, .encodeSym imm)
  | 0x31 => some (.n, .decodeSym)
  | 0x32 => some (.s, .height imm)
  | 0x40 => some (.n, .exportShape)
  | 0x41 => some (.n, .exportFull)
  | 0x42 => some (.n, .importShape)
  | 0x43 => some (.n, .importFull)
  | 0x50 => some (.n, .payloadEncode)
  | 0x51 => some (.n, .payloadDecode)
  | _ => none

/-- R84, total on every 64-bit value, its checks in R84's order. -/
def decode (w : Word) : Except Reject Instr :=
  if rsvdHi w ≠ 0 ∨ rsvdLo w ≠ 0 then .error .reservedBits
  else
    match opcodeMap (opcField w) (immField w) with
    | none => .error .unassignedOpcode
    | some (.n, i) => if immField w ≠ 0 then .error .immediateOfFormN else .ok i
    | some (.b, i) => if (immField w).extractLsb' 1 7 ≠ 0 then .error .immediateOfFormB else .ok i
    | some (.s, i) => .ok i

/-- The opcode of a command (R83). -/
def opcodeOf : Instr → Byte
  | .nop => 0x00
  | .bvClear => 0x10
  | .bvGet => 0x11
  | .bvSet _ => 0x12
  | .bvAppend _ => 0x13
  | .bvReserve => 0x14
  | .bvPack => 0x15
  | .bvUnpack => 0x16
  | .freqClear => 0x20
  | .build => 0x21
  | .treeClear => 0x22
  | .pqClear => 0x23
  | .pqPushLeaf _ => 0x24
  | .pqMerge => 0x25
  | .pqPop => 0x26
  | .encodeSym _ => 0x30
  | .decodeSym => 0x31
  | .height _ => 0x32
  | .exportShape => 0x40
  | .exportFull => 0x41
  | .importShape => 0x42
  | .importFull => 0x43
  | .payloadEncode => 0x50
  | .payloadDecode => 0x51

/-- The IMM8 field of a command: its symbol, its bit value, or 0 (R81). -/
def immediateOf : Instr → Byte
  | .pqPushLeaf sym | .encodeSym sym | .height sym => sym
  | .bvSet val | .bvAppend val => if val then 1 else 0
  | .nop | .bvClear | .bvGet | .bvReserve | .bvPack | .bvUnpack => 0
  | .freqClear | .build | .treeClear | .pqClear | .pqMerge | .pqPop => 0
  | .decodeSym | .exportShape | .exportFull | .importShape | .importFull => 0
  | .payloadEncode | .payloadDecode => 0

/-- The command word of a command: OPC·2^24 + IMM8·2^16 (R83). -/
def encode (i : Instr) : Word :=
  BitVec.ofNat 64 ((opcodeOf i).toNat * 2 ^ 24 + (immediateOf i).toNat * 2 ^ 16)

/-- The offset of a register in the register map (R44, R50). -/
def Reg.offset : Reg → Nat
  | .id => 0x000
  | .cmd => 0x008
  | .status => 0x010
  | .arg => 0x018
  | .result => 0x020
  | .bvLen => 0x028
  | .pos => 0x030
  | .inLen => 0x038
  | .inRp => 0x040
  | .outLen => 0x048
  | .pqLen => 0x050
  | .nodesUsed => 0x058
  | .ctrl => 0x060
  | .capBv => 0x068
  | .capIn => 0x070
  | .capOut => 0x078
  | .capNode => 0x080
  | .capPq => 0x088
  | .freq sym => 0x800 + 8 * sym.toNat

/-- The register at an 8-byte-aligned offset below 0x1000; `none` at a reserved offset (R50). -/
def Reg.ofOffset (off : Nat) : Option Reg :=
  match off with
  | 0x000 => some .id
  | 0x008 => some .cmd
  | 0x010 => some .status
  | 0x018 => some .arg
  | 0x020 => some .result
  | 0x028 => some .bvLen
  | 0x030 => some .pos
  | 0x038 => some .inLen
  | 0x040 => some .inRp
  | 0x048 => some .outLen
  | 0x050 => some .pqLen
  | 0x058 => some .nodesUsed
  | 0x060 => some .ctrl
  | 0x068 => some .capBv
  | 0x070 => some .capIn
  | 0x078 => some .capOut
  | 0x080 => some .capNode
  | 0x088 => some .capPq
  | _ =>
    if 0x800 ≤ off ∧ off < 0x1000 then some (.freq (BitVec.ofNat 8 ((off - 0x800) / 8))) else none

/-- The decoder on the opcode table's numbering: the low `nbits` bits of `w`, the rest 0, read as the 64-bit value
written to CMD. -/
def decodeTableWord (nbits w : Nat) : Option Instr :=
  (decode (BitVec.ofNat 64 (w % 2 ^ nbits))).toOption

end Sys2Proof
end

