-- ==== Sys2Proof/Machine/Tree.lean ====
section
/-! DEFINITION. Tree values and the functions the spec defines on them: `nodes`, `weight`, `code`, `height`, `combine` and
`walk` (spec/00_scope.md R10, R11, spec/42_queue_build.md R130, spec/43_codec.md R162, R165). -/

namespace Sys2Proof.Machine

/-- A tree value: a leaf with its symbol and weight, or an internal node with its weight and two subtrees. No constructor
has one child, so every tree is strictly binary (R10). -/
inductive Tree where
  | leaf (sym : Byte) (weight : Word)
  | node (weight : Word) (left right : Tree)
  deriving DecidableEq, Repr

/-- `weight(t)`: the weight of the root (R10). -/
def Tree.weight : Tree → Word
  | .leaf _ w => w
  | .node w _ _ => w

/-- `nodes(t)`: the number of Leaf and Node constructors (R10). -/
def Tree.nodes : Tree → Nat
  | .leaf _ _ => 1
  | .node _ l r => 1 + l.nodes + r.nodes

/-- `nodes` of the tree register's value: 0 for Empty, which is `none` (R10). -/
def nodesOf : Option Tree → Nat
  | none => 0
  | some t => t.nodes

/-- `code(t, s)` on a tree: left = 0 (false), right = 1 (true), the left subtree searched first (R11). -/
def Tree.code : Tree → Byte → Option (List Bool)
  | .leaf s' _, s => if s' = s then some [] else none
  | .node _ l r, s =>
    match l.code s with
    | some c => some (false :: c)
    | none =>
      match r.code s with
      | some c => some (true :: c)
      | none => none

/-- `code` of the tree register's value; the empty tree has no code for any symbol (R11). -/
def codeOf : Option Tree → Byte → Option (List Bool)
  | none, _ => none
  | some t, s => t.code s

/-- `height(t, s)`: the length of the code, which is the depth of the leaf ENCODE would use (R165). -/
def heightOf (t : Option Tree) (s : Byte) : Option Nat := (codeOf t s).map List.length

/-- `combine(a, b)`: a new root with left child a, right child b and the sum of their weights (R130). The sum is exact
wherever a command uses it: BUILD and PQ_MERGE check it first (R131, R136). -/
def combine (a b : Tree) : Tree := .node (a.weight + b.weight) a b

/-- The walk shared by DECODE and PAYLOAD_DECODE: from the root, right on a 1 bit and left on a 0 bit, until a leaf; `none`
when a bit is not available before a leaf is reached (R162). -/
def walk (avail bit : Nat → Bool) : Tree → Nat → Option (Byte × Nat)
  | .leaf s _, p => some (s, p)
  | .node _ l r, p =>
    if avail p then
      if bit p then walk avail bit r (p + 1) else walk avail bit l (p + 1)
    else none

/-- The same tree with every weight 0: what a shape-only form keeps of it (R186). -/
def Tree.zeroed : Tree → Tree
  | .leaf s _ => .leaf s 0
  | .node _ l r => .node 0 l.zeroed r.zeroed

/-- The leaves from left to right, each as its symbol and weight (R138). -/
def Tree.leaves : Tree → List (Byte × Word)
  | .leaf s w => [(s, w)]
  | .node _ l r => l.leaves ++ r.leaves

/-- The weight invariant of R45 and R138: every internal node's weight is the exact sum of its children's weights. -/
def Tree.sumWeights : Tree → Prop
  | .leaf _ _ => True
  | .node w l r => w.toNat = l.weight.toNat + r.weight.toNat ∧ l.sumWeights ∧ r.sumWeights

end Sys2Proof.Machine
end

