-- ==== Sys2Proof/Machine/State.lean ====
section
/-! DEFINITION. The state of the HTC block and of the one host that drives it, the reasons a step can stop, and the state
after reset (spec/10_state.md R30 to R52, spec/70_reset_and_hazards.md R250). -/

namespace Sys2Proof.Machine

/-- The error codes a command can report (R220); the code value of each is `ErrCode.bits`. -/
inductive ErrCode where
  | invalidBitIndex
  | emptyQueue
  | symbolNotFound
  | corruptedArchive
  | capacityExceeded
  | illegalCommand
  | weightOverflow
  | inputUnderrun
  deriving DecidableEq, Repr

/-- The contents of the window RAM: pairs of a block address and a byte, addresses strictly rising. An address that is not
listed holds no written byte: it reads a free value (R67, log 3). -/
abbrev Memory := List Host.Cell

/-- A command in flight: the word the host wrote to CMD (R38) and, the model's own, how many more host accesses may land
before the engine's step (R264, log 6). -/
structure Flight where
  word : Word
  delay : Nat
  deriving DecidableEq, Repr

/-- No fault exists: an error is a code in STATUS and the block goes on (R224, R107), so no step of the block stops it. -/
inductive Fault where
  deriving DecidableEq, Repr

/-- Why the model has no next state. -/
inductive Refusal where
  /-- Raised by an arm of `exec` whose command has no meaning yet; no arm raises it. Safe. -/
  | notModelled (mnemonic : String)
  /-- Raised by a host access below the IN window, at a register or a reserved offset of the register map (R50), that is not 8 bytes wide
  and 8-byte aligned: R62, "a model refuses it", and from 0x01000 up R255 (log 9). Safe. -/
  | registerAccess (addr width : Nat)
  /-- Raised by a host access to a window that is not 1, 2, 4 or 8 bytes wide and naturally aligned, or crosses the
  window's end: R63, "a model refuses it". Safe. -/
  | windowAccess (addr width : Nat)
  /-- Raised by a host access above the OUT window that is not 1, 2, 4 or 8 bytes wide and naturally aligned: R255, "a host that makes an
  access of another width or alignment is outside the model (refused)" (log 9). Safe. -/
  | rangeAccess (addr width : Nat)
  deriving DecidableEq, Repr

/-- Everything the spec gives the machine (R31, R49), the capacities it takes as parameters (R6), and the model's own
fields for the host and the draws. -/
structure State where
  /-- The capacities (R6): constant, no step writes them (R52, log 2). -/
  caps : Caps
  /-- ARG (R32). -/
  arg : Word
  /-- RESULT (R32). -/
  result : Word
  /-- POS (R42). -/
  pos : Word
  /-- IN_LEN (R43). -/
  inLen : Word
  /-- IN_RP (R43). -/
  inRp : Word
  /-- OUT_LEN (R43). -/
  outLen : Word
  /-- STATUS.ERR (R34, R35). -/
  err : Bool
  /-- STATUS.FOUND (R34, R36). -/
  found : Bool
  /-- STATUS.HAZ (R34, R36). -/
  haz : Bool
  /-- STATUS.ERRCODE (R34, R35). -/
  errcode : BitVec 4
  /-- The bit vector; BV_LEN is its length (R41). -/
  bv : List Bool
  /-- FREQ[0..255] (R44). -/
  freq : Vector Word 256
  /-- TREE; `none` is Empty (R45). -/
  tree : Option Tree
  /-- PQ in push order, the oldest first; PQ_LEN is its length (R46, R47). -/
  pq : List Tree
  /-- The bytes written to the IN and OUT windows (R67, R70). -/
  mem : Memory
  /-- The command in flight; STATUS.BUSY is whether there is one (R34, R49). -/
  flight : Option Flight
  /-- The model's own: the draw that gave the window bytes their unspecified values at the last reset (R51, log 3). -/
  ramDraw : Nat
  /-- The model's own: for roll backs since then, newest first, the OUT offset from which OUT bytes were drawn afresh and
  the draw (R102, log 4). -/
  outDraws : List (Nat × Nat)
  /-- The model's own: the number of draws made so far, the index of the next one (log 1). -/
  draws : Nat
  /-- The model's own: what the host has still to do, in its program order (R52, R75, R256, log 7). -/
  host : List BusOp
  /-- The model's own: the values the host's reads returned, newest first (log 8). -/
  reads : List Word
  /-- The model's own: the host has not yet read STATUS with BUSY = 0 after its last accepted CMD write (R256, log 22). -/
  awaiting : Bool
  deriving DecidableEq, Repr

/-- The state after power-on reset in the reference configuration (R51, R250). The block is idle and nothing runs. -/
def State.reset : State :=
  { caps := Caps.reference
    arg := 0, result := 0, pos := 0, inLen := 0, inRp := 0, outLen := 0
    err := false, found := false, haz := false, errcode := 0
    bv := [], freq := Vector.replicate 256 0, tree := none, pq := []
    mem := [], flight := none
    ramDraw := 0, outDraws := [], draws := 1, host := [], reads := [], awaiting := false }

/-- What every step and every meaning answers. -/
abbrev Answer := Host.Outcome State Fault Refusal

end Sys2Proof.Machine
end

