-- ==== Sys2Proof/Machine/Flags.lean ====
section
/-! DEFINITION. The STATUS register: its word, its fields and every rule that writes one of them
(spec/10_state.md R34 to R36, spec/60_exceptions.md R220). -/

namespace Sys2Proof.Machine

/-- The value of STATUS.ERRCODE for each error (R220); 9 to 15 are reserved and never reported. -/
def ErrCode.bits : ErrCode → BitVec 4
  | .invalidBitIndex => 1
  | .emptyQueue => 2
  | .symbolNotFound => 3
  | .corruptedArchive => 4
  | .capacityExceeded => 5
  | .illegalCommand => 6
  | .weightOverflow => 7
  | .inputUnderrun => 8

/-- STATUS.BUSY: whether a command is in flight (R34, R49). -/
def State.busy (s : State) : Bool := s.flight.isSome

/-- A flag as the number 0 or 1. -/
def flagBit (b : Bool) : Nat := if b then 1 else 0

/-- The value of STATUS: BUSY is bit 0, ERR bit 1, FOUND bit 2, HAZ bit 3, ERRCODE bits 11:8; bits 7:4 and 63:12 read 0
(R34). -/
def State.statusWord (s : State) : Word :=
  BitVec.ofNat 64
    (flagBit s.busy + 2 * flagBit s.err + 4 * flagBit s.found + 8 * flagBit s.haz + 256 * s.errcode.toNat)

/-- ERR and ERRCODE as a command starts with them and a commit leaves them (R35). -/
def State.clearErr (s : State) : State := { s with err := false, errcode := 0 }

/-- ERR and ERRCODE after a roll back with error e (R35). -/
def State.setErr (s : State) (e : ErrCode) : State := { s with err := true, errcode := e.bits }

/-- FOUND, written by a committed HEIGHT only (R36). -/
def State.setFound (s : State) (b : Bool) : State := { s with found := b }

/-- HAZ, set by a host write while BUSY = 1 (R36). -/
def State.setHaz (s : State) : State := { s with haz := true }

/-- A host write of v to STATUS while BUSY = 0: HAZ is cleared if bit 3 of v is 1, and nothing else changes (R34). -/
def State.writeStatus (s : State) (v : Word) : State :=
  { s with haz := s.haz && !(v.getLsbD 3) }

end Sys2Proof.Machine
end

