-- ==== Sys2Proof/Machine/Operands.lean ====
section
/-! DEFINITION. Where a command's operands come from: the RAM of the two windows, the IN byte and bit readers, the counts
NODES_USED and BV_LEN (spec/20_memory.md R67, R73, R74, spec/10_state.md R41, R47, R48). A command's `sym` and `val` are fields
of its word (R82) and are arguments of its meaning; its wide operand is `arg`. -/

namespace Sys2Proof.Machine

/-- The byte last written to an address, if any. -/
def Memory.get : Memory → Nat → Option Byte
  | [], _ => none
  | (a, b) :: m, k => if a = k then some b else Memory.get m k

/-- The draw that gave the byte at address `a` its unspecified value: the newest roll back that reached it, else the last
reset (R51, R102). -/
def State.drawOf (s : State) (a : Nat) : Nat :=
  match s.outDraws.find? (fun d => decide (Config.outBase + d.1 ≤ a)) with
  | some d => d.2
  | none => s.ramDraw

/-- The window byte at block address `a`: the byte last written to it, else the free value of its draw (R67). -/
def State.ramByte (s : State) (a : Nat) : Byte :=
  match Memory.get s.mem a with
  | some b => b
  | none => Config.freeByte (s.drawOf a) a

/-- IN[i] = MemRead(IN_BASE + i, 1) (R9); an offset at or beyond IN_CAP reads 0 (R64). -/
def State.inByte (s : State) (i : Nat) : Byte :=
  if i < s.caps.inBytes then s.ramByte (Config.inBase + i) else 0

/-- OUT[i] = MemRead(OUT_BASE + i, 1) (R9); an offset at or beyond OUT_CAP reads 0 (R64). -/
def State.outByte (s : State) (i : Nat) : Byte :=
  if i < s.caps.outBytes then s.ramByte (Config.outBase + i) else 0

/-- The n bytes IN[base], ..., IN[base + n - 1]. -/
def State.inBytes (s : State) (base n : Nat) : List Byte := (List.range n).map fun i => s.inByte (base + i)

/-- `bitof(IN[base ..], i)`: bit (i mod 8) of byte IN[base + i / 8] (R74, R203). -/
def State.inBit (s : State) (base i : Nat) : Bool := (s.inByte (base + i / 8)).getLsbD (i % 8)

/-- `bitof(bytes, i)` on a list of bytes (R74). -/
def bitof (bytes : List Byte) (i : Nat) : Bool := (bytes.getD (i / 8) 0).getLsbD (i % 8)

/-- BV_LEN (R41). -/
def State.bvLen (s : State) : Nat := s.bv.length

/-- PQ_LEN (R47). -/
def State.pqLen (s : State) : Nat := s.pq.length

/-- The sum of nodes(e) over a list of trees (R48). -/
def totalNodes (q : List Tree) : Nat := (q.map Tree.nodes).sum

/-- NODES_USED (R48). -/
def State.nodesUsed (s : State) : Nat := nodesOf s.tree + totalNodes s.pq

/-- The nodes an import may allocate: NODE_CAP less the nodes of PQ, the old TREE being discarded (R187, R205). -/
def State.freeNodes (s : State) : Nat := s.caps.nodes - totalNodes s.pq

/-- FREQ[sym] (R44). -/
def State.freqOf (s : State) (sym : Byte) : Word := s.freq[sym.toNat]?.getD 0

/-- Σ FREQ[s], the exact sum (R131). -/
def State.freqTotal (s : State) : Nat := (s.freq.toList.map BitVec.toNat).sum

end Sys2Proof.Machine
end

