-- ==== Sys2Proof/Machine/Ops.lean ====
section
/-! DEFINITION. The named operations every meaning uses: writes to the window RAM, how a command starts and ends (issue, commit,
roll back: spec/40_command_model.md R100 to R102), appending bits and output bytes, and the queue primitives
(spec/42_queue_build.md R130). -/

namespace Sys2Proof.Machine

/-! ## Window RAM -/

/-- The canonical form of the window RAM: addresses strictly rising. -/
abbrev Memory.wf (m : Memory) : Prop := m.Pairwise (fun x y => x.1 < y.1)

/-- Write one byte, keeping the addresses strictly rising (R67). -/
def Memory.set : Memory → Nat → Byte → Memory
  | [], k, v => [(k, v)]
  | (a, b) :: m, k, v =>
    if k < a then (k, v) :: (a, b) :: m
    else if k = a then (k, v) :: m
    else (a, b) :: Memory.set m k v

/-- Write a list of bytes at rising addresses from `k`. -/
def Memory.setList : Memory → Nat → List Byte → Memory
  | m, _, [] => m
  | m, k, b :: bs => Memory.setList (Memory.set m k b) (k + 1) bs

/-- Forget every byte at or above address `k`. -/
def Memory.keepBelow (m : Memory) (k : Nat) : Memory := m.filter fun c => decide (c.1 < k)

/-! ## How a command starts and ends -/

/-- Issue (R100 phase 1): the command word is in flight, BUSY = 1, ERR = 0, ERRCODE = 0; `delay` bounds the host accesses that
may land before the engine's step. From here the host owes a read of STATUS with BUSY = 0 (R256). -/
def State.issue (s : State) (w : Word) (delay : Nat) : State :=
  { s.clearErr with flight := some { word := w, delay := delay }, awaiting := true }

/-- Commit (R101) on a state that holds the staged writes: ERR and ERRCODE are 0 and BUSY <- 0. -/
def State.commit (s : State) : State := { s.clearErr with flight := none }

/-- A fresh draw of every OUT byte at an offset ≥ OUT_LEN (R102): the bytes written there are forgotten, and their
unspecified values come from a new draw. -/
def State.redrawOut (s : State) : State :=
  { s with
    mem := s.mem.keepBelow (Config.outBase + s.outLen.toNat)
    outDraws := (s.outLen.toNat, s.draws) :: s.outDraws.filter fun d => decide (d.1 < s.outLen.toNat)
    draws := s.draws + 1 }

/-- Roll back with error e, the block's one way of taking an error (R102, R221, R224): no staged write takes effect, ERR <- 1,
ERRCODE <- e, BUSY <- 0, and the OUT bytes at offsets ≥ OUT_LEN are drawn afresh. Nothing is saved, no vector is taken and there
is no return from it (R224, R225): the host's next CMD write simply starts a command. -/
def State.rollback (s : State) (e : ErrCode) : State := { s.redrawOut.setErr e with flight := none }

/-- The end of a command (R100 phase 3): its rule either reached `commit` with the staged state or reached `raise e`. -/
def endCommand (s : State) (r : Except ErrCode State) : Answer :=
  match r with
  | .ok staged => .next staged.commit
  | .error e => .next (s.rollback e)

/-! ## Staged writes several commands share -/

/-- bv <- bv ++ bits, with the BV_CAP check on the exact sum (R114, R115, R161, R201). -/
def State.appendBits (s : State) (bits : List Bool) : Except ErrCode State :=
  if s.bvLen + bits.length > s.caps.bvBits then .error .capacityExceeded
  else .ok { s with bv := s.bv ++ bits }

/-- Write the bytes b at OUT[OUT_LEN], advance OUT_LEN and set RESULT to |b|, with the OUT_CAP check on the exact sum (R183,
R200, R204, R205). -/
def State.emit (s : State) (b : List Byte) : Except ErrCode State :=
  if s.outLen.toNat + b.length > s.caps.outBytes then .error .capacityExceeded
  else
    .ok { s with
      mem := s.mem.setList (Config.outBase + s.outLen.toNat) b
      outLen := BitVec.ofNat 64 (s.outLen.toNat + b.length)
      result := BitVec.ofNat 64 b.length }

/-! ## Queue primitives -/

/-- `push(q, t)`: t becomes the newest entry (R130). -/
def push (q : List Tree) (t : Tree) : List Tree := q ++ [t]

/-- The least weight among t and the entries of q. -/
def leastWeight (t : Tree) (q : List Tree) : Nat := q.foldl (fun m u => min m u.weight.toNat) t.weight.toNat

/-- Remove the earliest entry of weight m, the others keeping their order. -/
def removeFirst (m : Nat) : List Tree → Option (Tree × List Tree)
  | [] => none
  | t :: q =>
    if t.weight.toNat = m then some (t, q)
    else
      match removeFirst m q with
      | some (u, rest) => some (u, t :: rest)
      | none => none

/-- `popmin(q)`: the entry of least weight, the earliest pushed among the lightest; `none` only on an empty queue (R130). -/
def popmin : List Tree → Option (Tree × List Tree)
  | [] => none
  | t :: q => removeFirst (leastWeight t q) (t :: q)

/-- Two pops in a row: the lightest tree a, the next lightest b, and what is left (R131, R136). -/
def popTwo (q : List Tree) : Option (Tree × Tree × List Tree) :=
  match popmin q with
  | none => none
  | some (a, q') =>
    match popmin q' with
    | none => none
    | some (b, rest) => some (a, b, rest)

/-- The loop of BUILD: merge the two lightest trees until fewer than two are left, at most `fuel` times (R131). BUILD gives it
|q|, and every round makes the queue shorter by one. -/
def mergeAll : (fuel : Nat) → List Tree → List Tree
  | 0, q => q
  | fuel + 1, q =>
    match popTwo q with
    | none => q
    | some (a, b, rest) => mergeAll fuel (push rest (combine a b))

end Sys2Proof.Machine
end

