-- ==== Sys2Proof/Machine/Formats.lean ====
section
/-! DEFINITION. The serialized formats: little-endian integers, packed bits, the two tree forms and their parser, and the file
payload (spec/20_memory.md R72 to R74, spec/44_serialization.md R180 to R186, spec/45_bitstream.md R202, R203). -/

namespace Sys2Proof.Machine

/-! ## Integers and bits -/

/-- `le64(v)`: the 8 bytes of v, least significant first (R9, R72). -/
def le64 (v : Word) : List Byte := (List.range 8).map fun k => v.extractLsb' (8 * k) 8

/-- Σ byte(a + k)·2^(8k) over k < n: the little-endian value of n bytes from a (R73). -/
def readLE (byte : Nat → Byte) : (a n : Nat) → Nat
  | _, 0 => 0
  | a, n + 1 => (byte a).toNat + 256 * readLE byte (a + 1) n

/-- `readle64` of the 8 bytes at a (R9, R72). -/
def readLE64 (byte : Nat → Byte) (a : Nat) : Word := BitVec.ofNat 64 (readLE byte a 8)

/-- Byte j of the packed form: bit k is b[8j + k], or the padding bit 0 past the end (R74). -/
def packedByte (b : List Bool) (j : Nat) : Byte :=
  BitVec.ofNat 8 (((List.range 8).map fun k => flagBit (b.getD (8 * j + k) false) * 2 ^ k).sum)

/-- `pack(b)`: ⌈|b|/8⌉ bytes, the first bit in the least significant bit of the first byte (R74). -/
def pack (b : List Bool) : List Byte := (List.range ((b.length + 7) / 8)).map (packedByte b)

/-! ## Tree serialization -/

/-- A flag byte as export writes it (R180). -/
def flagByte (present : Bool) : Byte := if present then 0x01 else 0x00

/-- `sbody` of R181. -/
def shapeBody : Tree → List Byte
  | .leaf s _ => [s, flagByte false, flagByte false]
  | .node _ l r => [0x00, flagByte true] ++ shapeBody l ++ [flagByte true] ++ shapeBody r

/-- `ser_shape` of R181. -/
def serShape : Option Tree → List Byte
  | none => [flagByte false]
  | some t => flagByte true :: shapeBody t

/-- `fbody` of R182. -/
def fullBody : Tree → List Byte
  | .leaf s w => [s, 0x00, 0x00, 0x00] ++ le64 w ++ [flagByte false, flagByte false]
  | .node w l r =>
    [0x00, 0x00, 0x00, 0x00] ++ le64 w ++ [flagByte true] ++ fullBody l ++ [flagByte true] ++ fullBody r

/-- `ser_full` of R182. -/
def serFull : Option Tree → List Byte
  | none => [flagByte false]
  | some t => flagByte true :: fullBody t

/-! ## The parser -/

/-- The two forms the parser reads (R185). -/
inductive TreeKind where
  | shape
  | full
  deriving DecidableEq, Repr

/-- `rdbyte()` at cursor c: the byte and the cursor after it; truncated when c ≥ limit (R185). -/
def rdByte (byte : Nat → Byte) (limit c : Nat) : Except ErrCode (Byte × Nat) :=
  if c ≥ limit then .error .corruptedArchive else .ok (byte c, c + 1)

/-- `rdflag()`: 0x00 is false, 0x01 is true, every other byte is corrupt (R180, R185). -/
def rdFlag (byte : Nat → Byte) (limit c : Nat) : Except ErrCode (Bool × Nat) :=
  match rdByte byte limit c with
  | .error e => .error e
  | .ok (v, c') =>
    if v = 0x00 then .ok (false, c')
    else if v = 0x01 then .ok (true, c')
    else .error .corruptedArchive

/-- n `rdbyte()` in a row: the cursor after them (R185). -/
def skipBytes (byte : Nat → Byte) (limit : Nat) : (n c : Nat) → Except ErrCode Nat
  | 0, c => .ok c
  | n + 1, c =>
    match rdByte byte limit c with
    | .error e => .error e
    | .ok (_, c') => skipBytes byte limit n c'

/-- The weight of a node: 3 pad bytes and 8 little-endian bytes in the full form, no byte and weight 0 in the shape-only form
(R185, R186). The pad values are ignored. -/
def rdWeight (byte : Nat → Byte) (kind : TreeKind) (limit c : Nat) : Except ErrCode (Word × Nat) :=
  match kind with
  | .shape => .ok (0, c)
  | .full =>
    match skipBytes byte limit 11 c with
    | .error e => .error e
    | .ok c' => .ok (readLE64 byte (c + 3), c')

/-- `node()` of R185 at cursor c with `count` nodes allocated before it: the tree, the cursor after it and the count after it.
The checks stand in byte order. `fuel` bounds the nesting; `parseTree` gives it avail + 1, and no nesting deeper than avail
passes the count check, so it never ends a parse early. -/
def parseNode (byte : Nat → Byte) (kind : TreeKind) (limit avail : Nat) :
    (fuel c count : Nat) → Except ErrCode (Tree × Nat × Nat)
  | 0, _, _ => .error .capacityExceeded
  | fuel + 1, c, count =>
    if count + 1 > avail then .error .capacityExceeded
    else
      match rdByte byte limit c with
      | .error e => .error e
      | .ok (sym, c1) =>
        match rdWeight byte kind limit c1 with
        | .error e => .error e
        | .ok (w, c2) =>
          match rdFlag byte limit c2 with
          | .error e => .error e
          | .ok (false, c3) =>
            match rdFlag byte limit c3 with
            | .error e => .error e
            | .ok (true, _) => .error .corruptedArchive
            | .ok (false, c4) => .ok (.leaf sym w, c4, count + 1)
          | .ok (true, c3) =>
            match parseNode byte kind limit avail fuel c3 (count + 1) with
            | .error e => .error e
            | .ok (l, c4, n4) =>
              match rdFlag byte limit c4 with
              | .error e => .error e
              | .ok (false, _) => .error .corruptedArchive
              | .ok (true, c5) =>
                match parseNode byte kind limit avail fuel c5 n4 with
                | .error e => .error e
                | .ok (r, c6, n6) => .ok (.node w l r, c6, n6)

/-- `parse(kind, base, limit, avail)` of R185: the tree register's value and the cursor after it. -/
def parseTree (byte : Nat → Byte) (kind : TreeKind) (base limit avail : Nat) :
    Except ErrCode (Option Tree × Nat) :=
  match rdFlag byte limit base with
  | .error e => .error e
  | .ok (false, c) => .ok (none, c)
  | .ok (true, c) =>
    match parseNode byte kind limit avail (avail + 1) c 0 with
    | .error e => .error e
    | .ok (t, c', _) => .ok (some t, c')

/-! ## The file payload -/

/-- The codes of a symbol sequence one after another; `none` at the first symbol that has none (R202, R204). -/
def codesOf (t : Option Tree) : List Byte → Option (List Bool)
  | [] => some []
  | s :: ss =>
    match codeOf t s with
    | none => none
    | some c =>
      match codesOf t ss with
      | none => none
      | some cs => some (c ++ cs)

/-- `payload(t, S)` given the concatenated codes of S: the shape-only tree, the count, the packed bits (R202). -/
def payloadOf (t : Option Tree) (n : Nat) (bits : List Bool) : List Byte :=
  serShape t ++ le64 (BitVec.ofNat 64 n) ++ pack bits

/-- Walk the tree n times from bit p: the symbols and the bit after the last one; `none` when the bits run out (R205). -/
def walkMany (avail bit : Nat → Bool) (t : Tree) : (n p : Nat) → Option (List Byte × Nat)
  | 0, p => some ([], p)
  | n + 1, p =>
    match walk avail bit t p with
    | none => none
    | some (s, p') =>
      match walkMany avail bit t n p' with
      | none => none
      | some (ss, p'') => some (s :: ss, p'')

/-- The n symbols of a payload from bit 0. With n = 0 no tree is needed; n > 0 with no root is refused before this is reached
(R205). -/
def decodeMany (avail bit : Nat → Bool) (t : Option Tree) (n : Nat) : Option (List Byte × Nat) :=
  match t with
  | none => if n = 0 then some ([], 0) else none
  | some t => walkMany avail bit t n 0

end Sys2Proof.Machine
end

