-- ==== Sys2Proof/Machine/Bus.lean ====
section
/-! DEFINITION. The host's reads and writes of the block address space, and the soft reset (spec/10_state.md R32 to R50,
spec/20_memory.md R60 to R78, spec/70_reset_and_hazards.md R251 to R261). -/

namespace Sys2Proof.Machine

/-- What an access reaches: a register, RAM bytes of a window, or nothing (reads 0, ignores writes: R64). -/
inductive Target where
  | reg (r : Reg)
  | ram (addr : Nat)
  | nothing
  deriving DecidableEq, Repr

/-- A window access of n bytes at offset `off` of a window of `cap` bytes (R63, R64). -/
def windowTarget (cap addr off n : Nat) : Except Refusal Target :=
  if (n = 1 ∨ n = 2 ∨ n = 4 ∨ n = 8) ∧ addr % n = 0 then
    if cap ≤ off then .ok .nothing
    else if off + n ≤ cap then .ok (.ram addr)
    else .error (.windowAccess addr n)
  else .error (.windowAccess addr n)

/-- What an access of n bytes at block address `addr` reaches; a move the host does not have is refused (R62 to R64, R70,
R255). The register map reaches up to the IN window (R50); above the OUT window R63's shapes are admitted (log 9). -/
def busTarget (c : Caps) (addr n : Nat) : Except Refusal Target :=
  if addr < Config.inBase then
    if n = 8 ∧ addr % 8 = 0 then
      match Reg.ofOffset addr with
      | some r => .ok (.reg r)
      | none => .ok .nothing
    else .error (.registerAccess addr n)
  else if addr < Config.outBase then windowTarget c.inBytes addr (addr - Config.inBase) n
  else if addr < Config.outEnd then windowTarget c.outBytes addr (addr - Config.outBase) n
  else if ((n = 1 ∨ n = 2 ∨ n = 4 ∨ n = 8) ∧ addr % n = 0) ∧ addr + n ≤ Config.spaceEnd then .ok .nothing
  else .error (.rangeAccess addr n)

/-! ## Reads -/

/-- The value of each register, read while BUSY = 0 (R50). CMD and CTRL read 0. -/
def State.readReg (s : State) : Reg → Word
  | .id => Config.idValue
  | .cmd => 0
  | .status => s.statusWord
  | .arg => s.arg
  | .result => s.result
  | .bvLen => BitVec.ofNat 64 s.bvLen
  | .pos => s.pos
  | .inLen => s.inLen
  | .inRp => s.inRp
  | .outLen => s.outLen
  | .pqLen => BitVec.ofNat 64 s.pqLen
  | .nodesUsed => BitVec.ofNat 64 s.nodesUsed
  | .ctrl => 0
  | .capBv => BitVec.ofNat 64 s.caps.bvBits
  | .capIn => BitVec.ofNat 64 s.caps.inBytes
  | .capOut => BitVec.ofNat 64 s.caps.outBytes
  | .capNode => BitVec.ofNat 64 s.caps.nodes
  | .capPq => BitVec.ofNat 64 s.caps.entries
  | .freq sym => s.freqOf sym

/-- The registers whose read is defined while BUSY = 1: the constants, CMD, CTRL and STATUS (R261). -/
def definedWhileBusy : Reg → Bool
  | .id | .capBv | .capIn | .capOut | .capNode | .capPq | .cmd | .ctrl | .status => true
  | .arg | .result | .bvLen | .pos | .inLen | .inRp | .outLen | .pqLen | .nodesUsed => false
  | .freq _ => false

/-- The value a read of n bytes from a target returns: defined values while idle; while a command is in flight a fresh free
value for everything R261 does not define, cut to the n bytes of the access. -/
def State.readTarget (s : State) (n : Nat) : Target → Word
  | .reg r => if s.busy && !(definedWhileBusy r) then Config.freeWord s.draws else s.readReg r
  | .ram addr =>
    if s.busy then BitVec.ofNat 64 ((Config.freeWord s.draws).toNat % 256 ^ n)
    else BitVec.ofNat 64 (readLE s.ramByte addr n)
  | .nothing => 0

/-- Whether a read shows the host that no command is in flight: a read of STATUS with BUSY = 0 (R256). -/
def State.showsIdle (s : State) : Target → Bool
  | .reg .status => !s.busy
  | _ => false

/-- What a read of n bytes from a target leaves on the host's side: the value in its record (log 8), and whether it still owes a read of
BUSY = 0 (log 22). While a command is in flight every read uses up a draw (R261). -/
def State.hostRead (s : State) (n : Nat) (t : Target) : State :=
  { s with
    reads := s.readTarget n t :: s.reads
    draws := if s.busy then s.draws + 1 else s.draws
    awaiting := s.awaiting && !(s.showsIdle t) }

/-- MemRead(addr, n) (R9, R73, R261). No read changes the block (R66). -/
def busRead (addr n : Nat) (s : State) : Answer :=
  match busTarget s.caps addr n with
  | .error r => .refused r
  | .ok t => .next (s.hostRead n t)

/-! ## Writes -/

/-- Reset (R250, R251): every piece of the block's state takes its reset value, a command in flight is abandoned, and the
window bytes are drawn afresh. The capacities are parameters (R52), and the host's side (its program, what it read, the read of BUSY = 0
it owes) is not the block (log 15). -/
def State.softReset (s : State) : State :=
  { State.reset with
    caps := s.caps, ramDraw := s.draws, draws := s.draws + 1, host := s.host, reads := s.reads, awaiting := s.awaiting }

/-- The value a pointer register stores for a written v: min(v, cap) (R43). -/
def clamp (v : Word) (cap : Nat) : Word := BitVec.ofNat 64 (min v.toNat cap)

/-- A host write of v to CTRL: bit 0 = 1 is a soft reset, bit 0 = 0 has no effect, the other bits are ignored (R40). -/
def State.writeCtrl (s : State) (v : Word) : State := if v.getLsbD 0 then s.softReset else s

/-- A host write of v to a register while BUSY = 0 (R50, R66). A CMD write issues the command (R38, R100); its latency is a
draw. -/
def State.writeReg (s : State) (v : Word) : Reg → State
  | .cmd => { s.issue v (Config.latency s.draws) with draws := s.draws + 1 }
  | .status => s.writeStatus v
  | .arg => { s with arg := v }
  | .pos => { s with pos := v }
  | .inLen => { s with inLen := clamp v s.caps.inBytes }
  | .inRp => { s with inRp := clamp v s.caps.inBytes }
  | .outLen => { s with outLen := clamp v s.caps.outBytes }
  | .ctrl => s.writeCtrl v
  | .freq sym => { s with freq := s.freq.setIfInBounds sym.toNat v }
  | .id | .result | .bvLen | .pqLen | .nodesUsed => s
  | .capBv | .capIn | .capOut | .capNode | .capPq => s

/-- The low n bytes of v, least significant first: what MemWrite(addr, n, v) stores (R73). -/
def writeBytes (v : Word) (n : Nat) : List Byte := (List.range n).map fun k => v.extractLsb' (8 * k) 8

/-- A write while BUSY = 0. -/
def State.writeTarget (s : State) (n : Nat) (v : Word) : Target → State
  | .reg r => s.writeReg v r
  | .ram addr => { s with mem := s.mem.setList addr (writeBytes v n) }
  | .nothing => s

/-- A write while BUSY = 1: to CTRL it is taken; to any other address it is discarded and sets HAZ (R36, R260). -/
def State.writeBusy (s : State) (v : Word) : Target → State
  | .reg .ctrl => s.writeCtrl v
  | _ => s.setHaz

/-- MemWrite(addr, n, v) (R9, R73, R255). -/
def busWrite (addr n : Nat) (v : Word) (s : State) : Answer :=
  match busTarget s.caps addr n with
  | .error r => .refused r
  | .ok t => .next (if s.busy then s.writeBusy v t else s.writeTarget n v t)

end Sys2Proof.Machine
end

