-- ==== Sys2Proof/Machine/BitVector.lean ====
section
/-! DEFINITION. The bit-vector commands (spec/41_bitvector.md R110 to R116). -/

namespace Sys2Proof.Machine

/-- BV_CLEAR (R111). -/
def execBvClear (s : State) : Answer := endCommand s (.ok { s with bv := [] })

/-- BV_GET (R112): pos is ARG, the full 64-bit value. -/
def execBvGet (s : State) : Answer :=
  endCommand s <|
    if s.arg.toNat ≥ s.bvLen then .error .invalidBitIndex
    else .ok { s with result := BitVec.ofNat 64 (flagBit (s.bv.getD s.arg.toNat false)) }

/-- BV_SET (R113): the bit is set to val, not toggled (spec/90_conflicts.md C1). -/
def execBvSet (val : Bool) (s : State) : Answer :=
  endCommand s <|
    if s.arg.toNat ≥ s.bvLen then .error .invalidBitIndex
    else .ok { s with bv := s.bv.set s.arg.toNat val }

/-- BV_APPEND (R114). -/
def execBvAppend (val : Bool) (s : State) : Answer := endCommand s (s.appendBits [val])

/-- BV_RESERVE (R115): the sum is exact, so a huge n fails and does not wrap; the check comes before any bit is made. -/
def execBvReserve (s : State) : Answer :=
  endCommand s <|
    if s.bvLen + s.arg.toNat > s.caps.bvBits then .error .capacityExceeded
    else .ok { s with bv := s.bv ++ List.replicate s.arg.toNat false }

end Sys2Proof.Machine
end

