-- ==== Sys2Proof/Machine/Bitstream.lean ====
section
/-! DEFINITION. The bitstream synthesizer commands (spec/45_bitstream.md R200 to R207). -/

namespace Sys2Proof.Machine

/-- BV_PACK (R200). -/
def execBvPack (s : State) : Answer := endCommand s (s.emit (pack s.bv))

/-- BV_UNPACK (R201): n is ARG; the checks in order INPUT_UNDERRUN, CAPACITY_EXCEEDED, both before any byte is read. Padding
bits are appended as they are. -/
def execBvUnpack (s : State) : Answer :=
  endCommand s <|
    if s.inRp.toNat + s.arg.toNat > s.inLen.toNat then .error .inputUnderrun
    else if s.bvLen + 8 * s.arg.toNat > s.caps.bvBits then .error .capacityExceeded
    else
      .ok { s with
        bv := s.bv ++ (List.range (8 * s.arg.toNat)).map fun i => s.inBit s.inRp.toNat i
        inRp := BitVec.ofNat 64 (s.inRp.toNat + s.arg.toNat) }

/-- PAYLOAD_ENCODE (R204): the checks in order INPUT_UNDERRUN, SYMBOL_NOT_FOUND, CAPACITY_EXCEEDED. bv and POS are not
touched. -/
def execPayloadEncode (s : State) : Answer :=
  endCommand s <|
    if s.inRp.toNat + s.arg.toNat > s.inLen.toNat then .error .inputUnderrun
    else
      match codesOf s.tree (s.inBytes s.inRp.toNat s.arg.toNat) with
      | none => .error .symbolNotFound
      | some bits =>
        match s.emit (payloadOf s.tree s.arg.toNat bits) with
        | .error e => .error e
        | .ok t => .ok { t with inRp := BitVec.ofNat 64 (s.inRp.toNat + s.arg.toNat) }

/-- PAYLOAD_DECODE (R205): the checks in order: tree errors, count truncated, count > 0 with no root, OUT capacity, bits run
out. TREE, OUT, OUT_LEN, IN_RP and RESULT (the symbol count) are staged. -/
def execPayloadDecode (s : State) : Answer :=
  endCommand s <|
    match parseTree s.inByte .shape s.inRp.toNat s.inLen.toNat s.freeNodes with
    | .error e => .error e
    | .ok (t, c) =>
      if c + 8 > s.inLen.toNat then .error .corruptedArchive
      else
        let n := (readLE64 s.inByte c).toNat
        if n > 0 ∧ t = none then .error .corruptedArchive
        else if s.outLen.toNat + n > s.caps.outBytes then .error .capacityExceeded
        else
          match decodeMany (fun j => decide (c + 8 + j / 8 < s.inLen.toNat)) (s.inBit (c + 8)) t n with
          | none => .error .corruptedArchive
          | some (symbols, p) =>
            match s.emit symbols with
            | .error e => .error e
            | .ok u => .ok { u with tree := t, inRp := BitVec.ofNat 64 (c + 8 + (p + 7) / 8) }

end Sys2Proof.Machine
end

