-- ==== Sys2Proof/Machine/Codec.lean ====
section
/-! DEFINITION. The symbol encode, decode and height commands (spec/43_codec.md R160 to R166). -/

namespace Sys2Proof.Machine

/-- ENCODE (R161): append the code of sym, the choice at the root first. -/
def execEncodeSym (sym : Byte) (s : State) : Answer :=
  endCommand s <|
    match codeOf s.tree sym with
    | none => .error .symbolNotFound
    | some c => s.appendBits c

/-- DECODE (R163): walk TREE along bv from POS. A bit past the end, or no root, is CORRUPTED_ARCHIVE. -/
def execDecodeSym (s : State) : Answer :=
  endCommand s <|
    match s.tree with
    | none => .error .corruptedArchive
    | some t =>
      match walk (fun p => decide (p < s.bvLen)) (fun p => s.bv.getD p false) t s.pos.toNat with
      | none => .error .corruptedArchive
      | some (sym, p) => .ok { s with result := sym.setWidth 64, pos := BitVec.ofNat 64 p }

/-- HEIGHT (R166): absence is a result, FOUND = 0 and RESULT = 0, not an error. -/
def execHeight (sym : Byte) (s : State) : Answer :=
  endCommand s <|
    match heightOf s.tree sym with
    | none => .ok { s.setFound false with result := 0 }
    | some h => .ok { s.setFound true with result := BitVec.ofNat 64 h }

end Sys2Proof.Machine
end

