-- ==== Sys2Proof/Machine/Control.lean ====
section
/-! DEFINITION. The command with no family: NOP (spec/40_command_model.md R105). -/

namespace Sys2Proof.Machine

/-- NOP: commits with nothing staged, and so clears ERR and ERRCODE (R105). -/
def execNop (s : State) : Answer := endCommand s (.ok s)

end Sys2Proof.Machine
end

