-- ==== Sys2Proof/Machine/Queue.lean ====
section
/-! DEFINITION. The priority queue and tree construction commands (spec/42_queue_build.md R130 to R139). -/

namespace Sys2Proof.Machine

/-- The leaves BUILD starts from: one per symbol with a nonzero count, in ascending symbol order (R131). -/
def State.freqLeaves (s : State) : List Tree :=
  s.freq.toList.zipIdx.filterMap fun (w, i) => if w = 0 then none else some (.leaf (BitVec.ofNat 8 i) w)

/-- BUILD (R131): the total is checked first; no nonzero count gives the empty tree; PQ is left empty. -/
def execBuild (s : State) : Answer :=
  endCommand s <|
    if s.freqTotal > 2 ^ 64 - 1 then .error .weightOverflow
    else .ok { s with tree := (mergeAll s.freqLeaves.length s.freqLeaves).head?, pq := [] }

/-- FREQ_CLEAR (R132). -/
def execFreqClear (s : State) : Answer := endCommand s (.ok { s with freq := Vector.replicate 256 0 })

/-- TREE_CLEAR (R133). -/
def execTreeClear (s : State) : Answer := endCommand s (.ok { s with tree := none })

/-- PQ_CLEAR (R134). -/
def execPqClear (s : State) : Answer := endCommand s (.ok { s with pq := [] })

/-- PQ_PUSH_LEAF (R135): the weight is ARG; weight 0 and a symbol already queued are accepted. -/
def execPqPushLeaf (sym : Byte) (s : State) : Answer :=
  endCommand s <|
    if s.pqLen + 1 > s.caps.entries then .error .capacityExceeded
    else if s.nodesUsed + 1 > s.caps.nodes then .error .capacityExceeded
    else .ok { s with pq := push s.pq (.leaf sym s.arg) }

/-- PQ_MERGE (R136): the checks in order EMPTY_QUEUE, WEIGHT_OVERFLOW, CAPACITY_EXCEEDED. -/
def execPqMerge (s : State) : Answer :=
  endCommand s <|
    match popTwo s.pq with
    | none => .error .emptyQueue
    | some (a, b, rest) =>
      if a.weight.toNat + b.weight.toNat > 2 ^ 64 - 1 then .error .weightOverflow
      else if s.nodesUsed + 1 > s.caps.nodes then .error .capacityExceeded
      else .ok { s with pq := push rest (combine a b) }

/-- PQ_POP (R137): the lightest tree replaces TREE. -/
def execPqPop (s : State) : Answer :=
  endCommand s <|
    match popmin s.pq with
    | none => .error .emptyQueue
    | some (t, rest) => .ok { s with tree := some t, pq := rest }

end Sys2Proof.Machine
end

