-- ==== Sys2Proof/Machine/Serialization.lean ====
section
/-! DEFINITION. The tree serialization commands (spec/44_serialization.md R180 to R189). -/

namespace Sys2Proof.Machine

/-- What IMPORT_SHAPE and IMPORT_FULL share (R187, R188): parse from IN_RP up to IN_LEN with the nodes that are free once the old
TREE is gone; TREE, IN_RP and RESULT (bytes consumed) are staged. -/
def State.importTree (s : State) (kind : TreeKind) : Except ErrCode State :=
  match parseTree s.inByte kind s.inRp.toNat s.inLen.toNat s.freeNodes with
  | .error e => .error e
  | .ok (t, c) =>
    .ok { s with tree := t, inRp := BitVec.ofNat 64 c, result := BitVec.ofNat 64 (c - s.inRp.toNat) }

/-- EXPORT_SHAPE (R183). -/
def execExportShape (s : State) : Answer := endCommand s (s.emit (serShape s.tree))

/-- EXPORT_FULL (R184). -/
def execExportFull (s : State) : Answer := endCommand s (s.emit (serFull s.tree))

/-- IMPORT_SHAPE (R187). -/
def execImportShape (s : State) : Answer := endCommand s (s.importTree .shape)

/-- IMPORT_FULL (R188). -/
def execImportFull (s : State) : Answer := endCommand s (s.importTree .full)

end Sys2Proof.Machine
end

