-- ==== Sys2Proof/Machine/Dispatch.lean ====
section
/-! DEFINITION. One arm per command: the meaning each has (spec/40_command_model.md R100 phase 2). -/

namespace Sys2Proof.Machine

def exec (i : Instr) (s : State) : Host.Outcome State Fault Refusal :=
  match i with
  | .nop => Sys2Proof.Machine.execNop s
  | .bvClear => Sys2Proof.Machine.execBvClear s
  | .bvGet => Sys2Proof.Machine.execBvGet s
  | .bvSet val => Sys2Proof.Machine.execBvSet val s
  | .bvAppend val => Sys2Proof.Machine.execBvAppend val s
  | .bvReserve => Sys2Proof.Machine.execBvReserve s
  | .bvPack => Sys2Proof.Machine.execBvPack s
  | .bvUnpack => Sys2Proof.Machine.execBvUnpack s
  | .freqClear => Sys2Proof.Machine.execFreqClear s
  | .build => Sys2Proof.Machine.execBuild s
  | .treeClear => Sys2Proof.Machine.execTreeClear s
  | .pqClear => Sys2Proof.Machine.execPqClear s
  | .pqPushLeaf sym => Sys2Proof.Machine.execPqPushLeaf sym s
  | .pqMerge => Sys2Proof.Machine.execPqMerge s
  | .pqPop => Sys2Proof.Machine.execPqPop s
  | .encodeSym sym => Sys2Proof.Machine.execEncodeSym sym s
  | .decodeSym => Sys2Proof.Machine.execDecodeSym s
  | .height sym => Sys2Proof.Machine.execHeight sym s
  | .exportShape => Sys2Proof.Machine.execExportShape s
  | .exportFull => Sys2Proof.Machine.execExportFull s
  | .importShape => Sys2Proof.Machine.execImportShape s
  | .importFull => Sys2Proof.Machine.execImportFull s
  | .payloadEncode => Sys2Proof.Machine.execPayloadEncode s
  | .payloadDecode => Sys2Proof.Machine.execPayloadDecode s

end Sys2Proof.Machine
end

