-- ==== Sys2Proof/Machine/Engine.lean ====
section
/-! DEFINITION. The two agents' moves (spec/10_state.md R30): the command engine executes the command in flight
(spec/40_command_model.md R100), the host performs its next access (spec/70_reset_and_hazards.md R255, spec/30_encoding.md R88). -/

namespace Sys2Proof.Machine

/-- The engine's one atomic step on the word in flight: decode first, then the command's rule; an illegal word rolls back with
ILLEGAL_COMMAND (R84, R100, R104). -/
def engineStep (w : Word) (s : State) : Answer :=
  match decode w with
  | .ok i => exec i s
  | .error _ => .next (s.rollback .illegalCommand)

/-- Whether the engine moves next while a command is in flight: the host has nothing more to do, waits for BUSY = 0, or as many
of its accesses have landed as the latency allowed (R75, R264, log 6). -/
def engineTurn (f : Flight) (host : List BusOp) : Bool :=
  match host with
  | [] => true
  | .wait :: _ => true
  | _ => f.delay == 0

/-- The host's read of STATUS in `wait` and `check` (R88). -/
def State.pollStatus (s : State) : State := s.hostRead 8 (.reg .status)

/-- `check` (R88, R256): read STATUS, and end the program if ERR is 1. -/
def State.checkStatus (s : State) : State :=
  if s.err then { s.pollStatus with host := [] } else s.pollStatus

/-- The host's next move; with nothing left to do the block stays idle (R235, R255). A `wait` performed here has BUSY = 0, so its
read ends it. -/
def hostStep (s : State) : Answer :=
  match s.host with
  | [] => .next s
  | .read addr n :: rest => busRead addr.toNat n { s with host := rest }
  | .write addr n v :: rest => busWrite addr.toNat n v { s with host := rest }
  | .wait :: rest => .next { s.pollStatus with host := rest }
  | .check :: rest => .next (State.checkStatus { s with host := rest })

/-- The command in flight after one more host access landed before the engine's step. -/
def Flight.tick (f : Flight) : Flight := { f with delay := f.delay - 1 }

/-- One step of the system of the two agents. -/
def systemStep (s : State) : Answer :=
  match s.flight with
  | none => hostStep s
  | some f =>
    if engineTurn f s.host then engineStep f.word s else hostStep { s with flight := some f.tick }

end Sys2Proof.Machine
end

