-- ==== Sys2Proof/Machine/Program.lean ====
section
/-! DEFINITION. Host programs: the accesses each line of the notation stands for, and how a program comes to run
(spec/30_encoding.md R87, R88, spec/70_reset_and_hazards.md R256). -/

namespace Sys2Proof.Machine

/-- `wr NAME, v`: MemWrite(offset(NAME), 8, v) (R87). -/
def wrReg (r : Reg) (v : Word) : BusOp := .write (BitVec.ofNat 18 r.offset) 8 v

/-- `rd NAME`: MemRead(offset(NAME), 8) (R87). -/
def rdReg (r : Reg) : BusOp := .read (BitVec.ofNat 18 r.offset) 8

/-- `wrb IN[i], v` with base IN_BASE, `wrb OUT[i], v` with base OUT_BASE (R87). -/
def wrByte (base i : Nat) (v : Byte) : BusOp := .write (BitVec.ofNat 18 (base + i)) 1 (v.setWidth 64)

/-- `rdb IN[i]` with base IN_BASE, `rdb OUT[i]` with base OUT_BASE (R87). -/
def rdByteOp (base i : Nat) : BusOp := .read (BitVec.ofNat 18 (base + i)) 1

/-- The byte writes of `inload` (R88). -/
def inloadBytes : (i : Nat) → List Byte → List BusOp
  | _, [] => []
  | i, b :: bs => wrByte Config.inBase i b :: inloadBytes (i + 1) bs

/-- The accesses of one line or pseudo-instruction (R87, R88). -/
def lineOps : Line → List BusOp
  | .wr r v => [wrReg r v]
  | .rd r => [rdReg r]
  | .wrbIn i v => [wrByte Config.inBase i v]
  | .wrbOut i v => [wrByte Config.outBase i v]
  | .rdbIn i => [rdByteOp Config.inBase i]
  | .rdbOut i => [rdByteOp Config.outBase i]
  | .cmd i => [wrReg .cmd (encode i)]
  | .wait => [.wait]
  | .doCmd i => [wrReg .cmd (encode i), .wait]
  | .doArg i a => [wrReg .arg a, wrReg .cmd (encode i), .wait]
  | .inload i bs => inloadBytes i bs ++ [wrReg .inLen (BitVec.ofNat 64 (i + bs.length))]
  | .check => [.check]

/-- The state in which the host is about to perform a program (log 7). -/
def State.load (s : State) (program : List Line) : State := { s with host := program.flatMap lineOps }

/-- A run is over: the host has performed its last line, or `check` has ended its program, and it has read STATUS with BUSY = 0 after its
last accepted CMD write, if it made one (R256). -/
def State.runOver (s : State) : Bool := s.host.isEmpty && !s.awaiting

end Sys2Proof.Machine
end

