-- ==== Sys2Proof/Machine/Step.lean ====
section
/-! DEFINITION. The step: one move of the command engine or of the host (spec/10_state.md R30). -/

namespace Sys2Proof.Machine

/-- One step of the machine. -/
def step (s : State) : Host.Outcome State Fault Refusal := systemStep s

/-- The state just after the host's CMD write of the word was accepted (R38, R100), the engine to move next: the block has no
program counter and fetches nothing (R33), so this is where the next step takes its command from (log 7). -/
def State.withFetchWord (s : State) (nbits w : Nat) : State := s.issue (BitVec.ofNat 64 (w % 2 ^ nbits)) 0

end Sys2Proof.Machine
end

