-- ==== Sys2Proof/Safety.lean ====
section
/-! DEFINITION. What claims are stated in: the invariant of the block's state, what a roll back leaves alone, the clean-entry premise
of spec/70_reset_and_hazards.md R254, sequences of commands, and the grammar of serialized trees and of what
is wrong with bytes that hold none. -/

namespace Sys2Proof.Machine

/-- A listed cell is a backed byte of a window (R70). -/
def backed (c : Caps) (a : Nat) : Prop :=
  (Config.inBase ≤ a ∧ a < Config.inBase + c.inBytes) ∨ (Config.outBase ≤ a ∧ a < Config.outBase + c.outBytes)

/-- An access of n bytes at address `a` that reaches backed bytes of one window: its width and alignment are those of R63 and it lies
below the window's capacity (R64, R70). -/
def windowBytes (c : Caps) (a n : Nat) : Prop :=
  windowShape a n ∧
    ((Config.inBase ≤ a ∧ a + n ≤ Config.inBase + c.inBytes) ∨ (Config.outBase ≤ a ∧ a + n ≤ Config.outBase + c.outBytes))

/-- What holds of the block after reset and after every step. -/
structure State.Inv (s : State) : Prop where
  /-- R6: the capacities are within their bounds. -/
  caps : s.caps.Ok
  /-- R41: BV_LEN ≤ BV_CAP. -/
  bvLen : s.bvLen ≤ s.caps.bvBits
  /-- R43: IN_LEN ≤ IN_CAP. -/
  inLen : s.inLen.toNat ≤ s.caps.inBytes
  /-- R43: IN_RP ≤ IN_CAP. -/
  inRp : s.inRp.toNat ≤ s.caps.inBytes
  /-- R43: OUT_LEN ≤ OUT_CAP. -/
  outLen : s.outLen.toNat ≤ s.caps.outBytes
  /-- R46: |PQ| ≤ PQ_CAP. -/
  pqLen : s.pqLen ≤ s.caps.entries
  /-- R48: NODES_USED ≤ NODE_CAP. -/
  nodesUsed : s.nodesUsed ≤ s.caps.nodes
  /-- R220: error codes 9 to 15 are never reported. -/
  errcode : s.errcode.toNat ≤ 8
  /-- R35: ERR is 1 exactly when ERRCODE names an error. -/
  err : s.err = true ↔ s.errcode ≠ 0
  /-- R35, R261: while a command is in flight ERR and ERRCODE are 0. -/
  inFlight : s.busy = true → s.err = false
  /-- R256: while a command is in flight the host has not yet read its end. -/
  awaiting : s.busy = true → s.awaiting = true
  /-- The window RAM is in canonical form. -/
  memWf : Memory.wf s.mem
  /-- R70: the window RAM holds bytes of the windows only. -/
  memBacked : ∀ c ∈ s.mem, backed s.caps c.1

/-- What R102 says a roll back leaves as it was at issue, and what it does to STATUS. The OUT bytes at offsets ≥ OUT_LEN are not
listed: they may hold anything. -/
structure RolledBack (s t : State) : Prop where
  registers : t.arg = s.arg ∧ t.result = s.result ∧ t.pos = s.pos ∧ t.inLen = s.inLen ∧ t.inRp = s.inRp ∧ t.outLen = s.outLen
  flags : t.found = s.found ∧ t.haz = s.haz
  storage : t.bv = s.bv ∧ t.freq = s.freq ∧ t.tree = s.tree ∧ t.pq = s.pq
  host : t.caps = s.caps ∧ t.host = s.host ∧ t.reads = s.reads ∧ t.awaiting = s.awaiting
  inWindow : ∀ i, t.inByte i = s.inByte i
  outWindow : ∀ i < s.outLen.toNat, t.outByte i = s.outByte i
  status : t.err = true ∧ t.busy = false

/-- Clean entry (R254): BUSY = 0, HAZ = 0, no command in flight. -/
def State.CleanEntry (s : State) : Prop := s.busy = false ∧ s.haz = false

/-! ## Sequences of commands -/

/-- Run commands one after another, each with ARG written before it; `none` as soon as one rolls back. -/
def runCommands : List (Word × Instr) → State → Option State
  | [], s => some s
  | (a, i) :: cs, s =>
    match exec i { s with arg := a } with
    | .next t => if t.err then none else runCommands cs t
    | .fault _ => none
    | .refused _ => none

/-- The values RESULT takes under n DECODE commands; `none` as soon as one rolls back. -/
def decodeRun : Nat → State → Option (List Word)
  | 0, _ => some []
  | n + 1, s =>
    match exec .decodeSym s with
    | .next t => if t.err then none else (decodeRun n t).map (t.result :: ·)
    | .fault _ => none
    | .refused _ => none

/-- The symbols FREQ includes, ascending (R131, R139). -/
def includedSymbols (s : State) : List Byte :=
  ((List.range 256).map (BitVec.ofNat 8)).filter fun sym => decide (s.freqOf sym ≠ 0)

/-- The step sequence R139 compares BUILD with: clear, one push for each included symbol in ascending order, merges until one tree is
left, pop; with no included symbol, clear the queue and the tree. -/
def buildSteps (s : State) : List (Word × Instr) :=
  if includedSymbols s = [] then [(s.arg, .pqClear), (s.arg, .treeClear)]
  else
    [(s.arg, .pqClear)] ++ (includedSymbols s).map (fun sym => (s.freqOf sym, .pqPushLeaf sym)) ++
      List.replicate ((includedSymbols s).length - 1) (s.arg, .pqMerge) ++ [(s.arg, .pqPop)]

/-! ## The grammar of serialized trees, independent of the parser (R180 to R182, R185) -/

/-- The bytes a node starts with: its symbol byte, and in the full form 3 pad bytes of any value and the weight. -/
def NodeHead (kind : TreeKind) (sym : Byte) (w : Word) (bs : List Byte) : Prop :=
  match kind with
  | .shape => w = 0 ∧ bs = [sym]
  | .full => ∃ p0 p1 p2, bs = [sym, p0, p1, p2] ++ le64 w

/-- The byte strings the parser accepts for a tree: flags 00 and 01, any pad bytes, any symbol byte in an internal node. -/
inductive TreeBytes (kind : TreeKind) : Tree → List Byte → Prop where
  | leaf (sym : Byte) (w : Word) (hd : List Byte) (h : NodeHead kind sym w hd) :
      TreeBytes kind (.leaf sym w) (hd ++ [0x00, 0x00])
  | node (x : Byte) (w : Word) (l r : Tree) (hd bl br : List Byte) (h : NodeHead kind x w hd)
      (hl : TreeBytes kind l bl) (hr : TreeBytes kind r br) :
      TreeBytes kind (.node w l r) (hd ++ [0x01] ++ bl ++ [0x01] ++ br)

/-- What can be wrong with the bytes of a node before the parser has read it whole (R185): they end, a flag is not one that may stand
there, or one node more is needed than may be allocated. -/
inductive Flaw where
  | truncated
  | badFlag
  | noRoom
  deriving DecidableEq, Repr

/-- The code the parser reports for a flaw (R185, R187). -/
def Flaw.code : Flaw → ErrCode
  | .truncated | .badFlag => .corruptedArchive
  | .noRoom => .capacityExceeded

/-- The bytes met at a flag's place when the flaw is there: none when the bytes end, or one that is not allowed. -/
def FlawedFlag (flaw : Flaw) (allowed bs : List Byte) : Prop :=
  (flaw = .truncated ∧ bs = []) ∨ (flaw = .badFlag ∧ ∃ f, f ∉ allowed ∧ bs = [f])

/-- The bytes of a node up to its flaw, and the number of nodes begun in them. A leaf's second flag may only be 00 and an internal
node's only 01, else exactly one child would be present; pad bytes and an internal node's symbol byte are of any value. -/
inductive FlawedNode (kind : TreeKind) (flaw : Flaw) : Nat → List Byte → Prop where
  | noRoom (h : flaw = .noRoom) : FlawedNode kind flaw 1 []
  | head (x : Byte) (w : Word) (hd part : List Byte) (h : flaw = .truncated) (hh : NodeHead kind x w hd)
      (hp : part <+: hd) (hne : part ≠ hd) : FlawedNode kind flaw 1 part
  | leftFlag (x : Byte) (w : Word) (hd fl : List Byte) (hh : NodeHead kind x w hd)
      (hf : FlawedFlag flaw [0x00, 0x01] fl) : FlawedNode kind flaw 1 (hd ++ fl)
  | rightFlagOfLeaf (x : Byte) (w : Word) (hd fl : List Byte) (hh : NodeHead kind x w hd)
      (hf : FlawedFlag flaw [0x00] fl) : FlawedNode kind flaw 1 (hd ++ [0x00] ++ fl)
  | left (x : Byte) (w : Word) (n : Nat) (hd bl : List Byte) (hh : NodeHead kind x w hd)
      (hl : FlawedNode kind flaw n bl) : FlawedNode kind flaw (1 + n) (hd ++ [0x01] ++ bl)
  | rightFlag (x : Byte) (w : Word) (l : Tree) (hd bl fl : List Byte) (hh : NodeHead kind x w hd)
      (hl : TreeBytes kind l bl) (hf : FlawedFlag flaw [0x01] fl) :
      FlawedNode kind flaw (1 + l.nodes) (hd ++ [0x01] ++ bl ++ fl)
  | right (x : Byte) (w : Word) (l : Tree) (n : Nat) (hd bl br : List Byte) (hh : NodeHead kind x w hd)
      (hl : TreeBytes kind l bl) (hr : FlawedNode kind flaw n br) :
      FlawedNode kind flaw (1 + l.nodes + n) (hd ++ [0x01] ++ bl ++ [0x01] ++ br)

/-- IN holds the bytes bs from offset c, all of them before IN_LEN. -/
def State.inHolds (s : State) (c : Nat) (bs : List Byte) : Prop :=
  c + bs.length ≤ s.inLen.toNat ∧ ∀ k (hk : k < bs.length), s.inByte (c + k) = bs[k]

end Sys2Proof.Machine
end

