-- ==== Sys2Proof/Certificates/Slice0/Obligations.lean ====
section
/-! DEFINITION. The statements for the provers. Each docstring names the rule of spec/ it formalises. A successful command's next
state is written out as the state at issue with exactly the fields that change, STATUS.BUSY, ERR and ERRCODE among them (R101); a
failed one's is `s.rollback e`, whose meaning `RollBackKeepsEverything` states (R102). -/

open Sys2Proof Sys2Proof.Machine

/-! ## Encoding and decoding -/

/-- R89: the example words, the legal ones in both directions and the illegal ones. -/
def Obligations.EncodingExamplesDecode : Prop :=
  (encode .nop = 0x00000000 ∧ decode 0x00000000 = .ok .nop) ∧
  (encode .build = 0x21000000 ∧ decode 0x21000000 = .ok .build) ∧
  (encode (.bvAppend true) = 0x13010000 ∧ decode 0x13010000 = .ok (.bvAppend true)) ∧
  (encode (.bvSet false) = 0x12000000 ∧ decode 0x12000000 = .ok (.bvSet false)) ∧
  (encode (.encodeSym 0x61) = 0x30610000 ∧ decode 0x30610000 = .ok (.encodeSym 0x61)) ∧
  (encode (.pqPushLeaf 0xFF) = 0x24FF0000 ∧ decode 0x24FF0000 = .ok (.pqPushLeaf 0xFF)) ∧
  (encode .payloadDecode = 0x51000000 ∧ decode 0x51000000 = .ok .payloadDecode) ∧
  decode 0x13020000 = .error .immediateOfFormB ∧
  decode 0x21010000 = .error .immediateOfFormN ∧
  decode 0x30610001 = .error .reservedBits ∧
  decode 0x0000000100000000 = .error .reservedBits ∧
  decode 0xFF000000 = .error .unassignedOpcode

/-- R83, R84: every command, with every operand value, decodes from exactly one word, and every legal word is the encoding of the
command it decodes to. -/
def Obligations.DecodeIffEncode : Prop :=
  ∀ (w : Word) (i : Instr), decode w = .ok i ↔ w = encode i

/-- R85: the illegal words are exactly those with a nonzero reserved field, an opcode outside the map, or an IMM8 that breaks its form,
written here in arithmetic; and all of them behave identically. -/
def Obligations.IllegalWordsAreTheReservedOnes : Prop :=
  ∀ w : Word,
    ((∃ r, decode w = .error r) ↔
      (2 ^ 32 ≤ w.toNat ∨ w.toNat % 2 ^ 16 ≠ 0 ∨
        (∃ opc, w.toNat / 2 ^ 24 % 256 = opc ∧
          ((0x01 ≤ opc ∧ opc ≤ 0x0F) ∨ (0x17 ≤ opc ∧ opc ≤ 0x1F) ∨ (0x27 ≤ opc ∧ opc ≤ 0x2F) ∨
            (0x33 ≤ opc ∧ opc ≤ 0x3F) ∨ (0x44 ≤ opc ∧ opc ≤ 0x4F) ∨ 0x52 ≤ opc ∨
            (opc ≠ 0x12 ∧ opc ≠ 0x13 ∧ opc ≠ 0x24 ∧ opc ≠ 0x30 ∧ opc ≠ 0x32 ∧ w.toNat / 2 ^ 16 % 256 ≠ 0) ∨
            ((opc = 0x12 ∨ opc = 0x13) ∧ 2 ≤ w.toNat / 2 ^ 16 % 256))))) ∧
    ∀ r, decode w = .error r → ∀ s, engineStep w s = .next (s.rollback .illegalCommand)

/-! ## Steps -/

/-- R100, R33 (when the engine moves is the model's, log 6): when a command is in flight and the engine moves, the step is the decoded
command's meaning at that state, or the roll back of an illegal word; and so it is just after its word was accepted. -/
def Obligations.StepRunsTheDecodedCommand : Prop :=
  (∀ (s : State) (f : Flight), s.flight = some f →
    (s.host = [] ∨ (∃ rest, s.host = .wait :: rest) ∨ f.delay = 0) →
    (∀ i, decode f.word = .ok i → step s = exec i s) ∧ (∀ r, decode f.word = .error r → step s = engineStep f.word s)) ∧
  (∀ (s : State) (i : Instr), step (s.withFetchWord 64 (encode i).toNat) = exec i (s.issue (encode i) 0))

/-- R104: an illegal word rolls back with ILLEGAL_COMMAND (6) and nothing else changes. -/
def Obligations.IllegalWordRollsBack : Prop :=
  ∀ (s : State) (w : Word) (r : Reject), s.caps.Ok → decode w = .error r →
    ∃ t, engineStep w s = .next t ∧ RolledBack s t ∧ t.errcode = 6

/-- R30, R255, R250 (the queue of host accesses, the latency, the record and the note that a read of BUSY = 0 is owed are the model's,
log 6, 7, 8, 22): with no command in flight the step is the host's next access, or nothing at all when the host has none; with one in
flight and the engine not to move it is the host's next access, and one access less may land before the engine moves. `wait` and
`check` read STATUS, and `check` ends the program when it reads ERR = 1 (R87, R88). With StepRunsTheDecodedCommand this gives the step
in every case. -/
def Obligations.StepIsOtherwiseTheHostsAccess : Prop :=
  (∀ s : State, s.flight = none → s.host = [] → step s = .next s) ∧
  (∀ (s : State) a n rest, s.flight = none → s.host = .read a n :: rest →
    step s = busRead a.toNat n { s with host := rest }) ∧
  (∀ (s : State) a n v rest, s.flight = none → s.host = .write a n v :: rest →
    step s = busWrite a.toNat n v { s with host := rest }) ∧
  (∀ (s : State) w d a n rest, s.flight = some { word := w, delay := d + 1 } → s.host = .read a n :: rest →
    step s = busRead a.toNat n { s with host := rest, flight := some { word := w, delay := d } }) ∧
  (∀ (s : State) w d a n v rest, s.flight = some { word := w, delay := d + 1 } → s.host = .write a n v :: rest →
    step s = busWrite a.toNat n v { s with host := rest, flight := some { word := w, delay := d } }) ∧
  (∀ (s : State) rest, s.flight = none → s.host = .wait :: rest →
    step s = .next { s with host := rest, reads := s.statusWord :: s.reads, awaiting := false }) ∧
  (∀ (s : State) rest, s.flight = none → s.host = .check :: rest →
    step s =
      .next { s with host := if s.err then [] else rest, reads := s.statusWord :: s.reads, awaiting := false }) ∧
  (∀ (s : State) w d rest, s.flight = some { word := w, delay := d + 1 } → s.host = .check :: rest →
    step s =
      .next { s with
        host := if s.err then [] else rest, flight := some { word := w, delay := d }
        reads := s.statusWord :: s.reads, draws := s.draws + 1 })

/-- R36, R34, R251: HAZ becomes 1 only by a host write while BUSY = 1, and goes back to 0 only by a host write: of a 1 to STATUS bit 3
while BUSY = 0, or of a 1 to CTRL bit 0. -/
def Obligations.HazIsSticky : Prop :=
  ∀ s t : State, step s = .next t →
    (s.haz = false → t.haz = true →
      s.busy = true ∧ ∃ a n v rest, s.host = .write a n v :: rest ∧ a.toNat ≠ 0x060) ∧
    (s.haz = true → t.haz = false →
      ∃ a n v rest, s.host = .write a n v :: rest ∧
        ((a.toNat = 0x010 ∧ s.busy = false ∧ v.getLsbD 3 = true) ∨ (a.toNat = 0x060 ∧ v.getLsbD 0 = true)))

/-- R107, R264: a command in flight is ended within its latency plus one steps, unless the host first makes an access it may not
make. -/
def Obligations.CommandInFlightEnds : Prop :=
  ∀ (s : State) (f : Flight), s.flight = some f →
    ∃ k, k ≤ f.delay + 1 ∧
      ((∃ t, Host.Core.run Sys2Proof.core k s = .next t ∧ State.busy t = false) ∨
        ∃ r, Host.Core.run Sys2Proof.core k s = .refused r)

/-- R250, R51: after reset every register reads its reset value, the block is idle, every unwritten window byte reads the free value of
the reset's draw, and a step changes nothing. The capacities are the reference configuration's (log 2). -/
def Obligations.ResetLeavesTheResetValues : Prop :=
  (∀ r : Reg, r ≠ .id → r ≠ .capBv → r ≠ .capIn → r ≠ .capOut → r ≠ .capNode → r ≠ .capPq →
    State.reset.readReg r = 0) ∧
  State.reset.readReg .id = 0x48544331 ∧
  State.reset.bv = [] ∧ State.reset.tree = none ∧ State.reset.pq = [] ∧ State.reset.busy = false ∧
  (∀ sym, State.reset.freqOf sym = 0) ∧
  (∀ a, State.reset.ramByte a = Config.freeByte 0 a) ∧
  State.reset.CleanEntry ∧ step State.reset = .next State.reset

/-- The invariant of Safety.lean holds after reset. -/
def Obligations.ResetMeetsTheInvariant : Prop := State.reset.Inv

/-- R41, R43, R46, R48, R35, R220, R70: the capacity bounds, the relation of ERR to ERRCODE and the form of the window RAM are kept by
every step, and no step changes the capacities (R52). -/
def Obligations.EveryStepKeepsTheInvariant : Prop :=
  ∀ s t : State, s.Inv → step s = .next t → t.Inv ∧ t.caps = s.caps

/-! ## What every command does and does not do -/

/-- R35, R101, R102, R107: every command ends, with BUSY = 0 and either ERR = 0 and ERRCODE = 0, or ERR = 1 and ERRCODE 1 to 8. -/
def Obligations.EveryCommandEnds : Prop :=
  ∀ (i : Instr) (s : State), ∃ t, exec i s = .next t ∧ t.busy = false ∧
    ((t.err = false ∧ t.errcode = 0) ∨ (t.err = true ∧ 1 ≤ t.errcode.toNat ∧ t.errcode.toNat ≤ 8))

/-- R102: a roll back keeps every register, flag and storage element, every IN byte and every OUT byte below OUT_LEN, sets ERR and
ERRCODE and clears BUSY; and a command that reports an error has done exactly that. -/
def Obligations.RollBackKeepsEverything : Prop :=
  (∀ (s : State) (e : ErrCode), s.caps.Ok → RolledBack s (s.rollback e) ∧ (s.rollback e).errcode = e.bits) ∧
  (∀ (i : Instr) (s t : State), exec i s = .next t → t.err = true → ∃ e, t = s.rollback e)

/-- R220, R222: which command reports which error: each code only by the commands its row lists, and ILLEGAL_COMMAND by none that
decodes. -/
def Obligations.ErrorCodesByCommand : Prop :=
  ∀ (i : Instr) (s t : State), exec i s = .next t →
    (t.errcode = 1 → i = .bvGet ∨ ∃ v, i = .bvSet v) ∧
    (t.errcode = 2 → i = .pqMerge ∨ i = .pqPop) ∧
    (t.errcode = 3 → (∃ x, i = .encodeSym x) ∨ i = .payloadEncode) ∧
    (t.errcode = 4 → i = .decodeSym ∨ i = .importShape ∨ i = .importFull ∨ i = .payloadDecode) ∧
    (t.errcode = 5 → (∃ v, i = .bvAppend v) ∨ i = .bvReserve ∨ i = .bvPack ∨ i = .bvUnpack ∨ (∃ x, i = .pqPushLeaf x) ∨
      i = .pqMerge ∨ (∃ x, i = .encodeSym x) ∨ i = .exportShape ∨ i = .exportFull ∨ i = .importShape ∨
      i = .importFull ∨ i = .payloadEncode ∨ i = .payloadDecode) ∧
    t.errcode ≠ 6 ∧
    (t.errcode = 7 → i = .build ∨ i = .pqMerge) ∧
    (t.errcode = 8 → i = .bvUnpack ∨ i = .payloadEncode)

/-- R32, R36, R42, R43: the registers and flags each command may change: ARG, IN_LEN, HAZ and the capacities by none, FOUND by HEIGHT,
POS by DECODE, RESULT, IN_RP and OUT_LEN by the commands their rules list. The host and its record are not touched. -/
def Obligations.RegistersWrittenOnlyByTheirCommands : Prop :=
  ∀ (i : Instr) (s t : State), exec i s = .next t →
    (t.arg = s.arg ∧ t.inLen = s.inLen ∧ t.haz = s.haz ∧ t.caps = s.caps ∧ t.host = s.host ∧ t.reads = s.reads ∧
      t.awaiting = s.awaiting) ∧
    (t.found ≠ s.found → ∃ x, i = .height x) ∧
    (t.pos ≠ s.pos → i = .decodeSym) ∧
    (t.result ≠ s.result → i = .bvGet ∨ i = .decodeSym ∨ (∃ x, i = .height x) ∨ i = .bvPack ∨ i = .exportShape ∨
      i = .exportFull ∨ i = .importShape ∨ i = .importFull ∨ i = .payloadEncode ∨ i = .payloadDecode) ∧
    (t.inRp ≠ s.inRp → i = .bvUnpack ∨ i = .importShape ∨ i = .importFull ∨ i = .payloadEncode ∨ i = .payloadDecode) ∧
    (t.outLen ≠ s.outLen → i = .bvPack ∨ i = .exportShape ∨ i = .exportFull ∨ i = .payloadEncode ∨ i = .payloadDecode)

/-- R110, R44, R45, R46: the storage each command may change: FREQ by FREQ_CLEAR, TREE and PQ by the commands their rules list, the bit
vector by its commands and ENCODE; and but for BV_SET and BV_CLEAR, bits are only added at the end. -/
def Obligations.StorageWrittenOnlyByItsCommands : Prop :=
  ∀ (i : Instr) (s t : State), exec i s = .next t →
    (t.freq ≠ s.freq → i = .freqClear) ∧
    (t.tree ≠ s.tree → i = .build ∨ i = .treeClear ∨ i = .pqPop ∨ i = .importShape ∨ i = .importFull ∨ i = .payloadDecode) ∧
    (t.pq ≠ s.pq → i = .build ∨ i = .pqClear ∨ (∃ x, i = .pqPushLeaf x) ∨ i = .pqMerge ∨ i = .pqPop) ∧
    (t.bvLen ≠ s.bvLen → i = .bvClear ∨ (∃ v, i = .bvAppend v) ∨ i = .bvReserve ∨ i = .bvUnpack ∨ ∃ x, i = .encodeSym x) ∧
    (i ≠ .bvClear → (∀ v, i ≠ .bvSet v) → ∃ added, t.bv = s.bv ++ added)

/-- R61, R67, R69: every window byte is unchanged by a committed command, except that BV_PACK, EXPORT_SHAPE, EXPORT_FULL,
PAYLOAD_ENCODE and PAYLOAD_DECODE write the RESULT bytes from OUT[OUT_LEN] up, never at or beyond OUT_CAP; no command writes IN. After
a roll back the OUT bytes from OUT_LEN up are free values of a fresh draw (R102; the draw is the model's, log 4). -/
def Obligations.WindowBytesWrittenOnlyAtOutLen : Prop :=
  (∀ (s : State) (e : ErrCode) (j : Nat), s.caps.Ok → s.outLen.toNat ≤ j → j < s.caps.outBytes →
    (s.rollback e).outByte j = Config.freeByte s.draws (Config.outBase + j)) ∧
  ∀ (i : Instr) (s t : State), s.caps.Ok → exec i s = .next t → t.err = false →
    (i ≠ .bvPack → i ≠ .exportShape → i ≠ .exportFull → i ≠ .payloadEncode → i ≠ .payloadDecode →
      ∀ a, t.ramByte a = s.ramByte a) ∧
    ((i = .bvPack ∨ i = .exportShape ∨ i = .exportFull ∨ i = .payloadEncode ∨ i = .payloadDecode) →
      t.outLen.toNat = s.outLen.toNat + t.result.toNat ∧ t.outLen.toNat ≤ s.caps.outBytes ∧
      ∀ a, ¬(Config.outBase + s.outLen.toNat ≤ a ∧ a < Config.outBase + s.outLen.toNat + t.result.toNat) →
        t.ramByte a = s.ramByte a)

/-- R105, R111, R132, R133, R134: the five commands that cannot fail and need nothing: each commits, changes exactly the storage it
clears, and clears ERR and ERRCODE. -/
def Obligations.ClearingCommandsCommit : Prop :=
  (encode .nop = 0x00000000 ∧ encode .bvClear = 0x10000000 ∧ encode .freqClear = 0x20000000 ∧
    encode .treeClear = 0x22000000 ∧ encode .pqClear = 0x23000000) ∧
  ∀ s : State,
    exec .nop s = .next { s with err := false, errcode := 0, flight := none } ∧
    exec .bvClear s = .next { s with bv := [], err := false, errcode := 0, flight := none } ∧
    exec .freqClear s =
      .next { s with freq := Vector.replicate 256 0, err := false, errcode := 0, flight := none } ∧
    exec .treeClear s = .next { s with tree := none, err := false, errcode := 0, flight := none } ∧
    exec .pqClear s = .next { s with pq := [], err := false, errcode := 0, flight := none }

/-! ## Bit vector -/

/-- R112: BV_GET returns bit pos, or fails with INVALID_BIT_INDEX when pos ≥ BV_LEN. -/
def Obligations.BvGetReadsTheBit : Prop :=
  encode .bvGet = 0x11000000 ∧
  (∀ (s : State) (h : s.arg.toNat < s.bv.length),
    exec .bvGet s =
      .next { s with result := if s.bv[s.arg.toNat] then 1 else 0, err := false, errcode := 0, flight := none }) ∧
  (∀ s : State, s.bv.length ≤ s.arg.toNat → exec .bvGet s = .next (s.rollback .invalidBitIndex))

/-- R113: BV_SET sets bit pos to val and no other bit, or fails with INVALID_BIT_INDEX when pos ≥ BV_LEN. -/
def Obligations.BvSetWritesTheBit : Prop :=
  (encode (.bvSet false) = 0x12000000 ∧ encode (.bvSet true) = 0x12010000) ∧
  (∀ (s : State) (val : Bool), s.arg.toNat < s.bv.length →
    ∃ bv', exec (.bvSet val) s = .next { s with bv := bv', err := false, errcode := 0, flight := none } ∧
      bv'.length = s.bv.length ∧ bv'[s.arg.toNat]? = some val ∧
      ∀ j, j ≠ s.arg.toNat → bv'[j]? = s.bv[j]?) ∧
  (∀ (s : State) (val : Bool), s.bv.length ≤ s.arg.toNat →
    exec (.bvSet val) s = .next (s.rollback .invalidBitIndex))

/-- R114: BV_APPEND adds one bit at position BV_LEN, or fails with CAPACITY_EXCEEDED at BV_CAP. -/
def Obligations.BvAppendAddsTheBit : Prop :=
  (encode (.bvAppend false) = 0x13000000 ∧ encode (.bvAppend true) = 0x13010000) ∧
  (∀ (s : State) (val : Bool), s.bv.length + 1 ≤ s.caps.bvBits →
    exec (.bvAppend val) s = .next { s with bv := s.bv ++ [val], err := false, errcode := 0, flight := none }) ∧
  (∀ (s : State) (val : Bool), s.caps.bvBits < s.bv.length + 1 →
    exec (.bvAppend val) s = .next (s.rollback .capacityExceeded))

/-- R115: BV_RESERVE adds n bits of value 0, or fails with CAPACITY_EXCEEDED when the exact sum passes BV_CAP. -/
def Obligations.BvReserveAddsZeroBits : Prop :=
  encode .bvReserve = 0x14000000 ∧
  (∀ s : State, s.bv.length + s.arg.toNat ≤ s.caps.bvBits →
    ∃ bv', exec .bvReserve s = .next { s with bv := bv', err := false, errcode := 0, flight := none } ∧
      bv'.length = s.bv.length + s.arg.toNat ∧ (∀ j < s.bv.length, bv'[j]? = s.bv[j]?) ∧
      ∀ j, s.bv.length ≤ j → j < s.bv.length + s.arg.toNat → bv'[j]? = some false) ∧
  (∀ s : State, s.caps.bvBits < s.bv.length + s.arg.toNat →
    exec .bvReserve s = .next (s.rollback .capacityExceeded))

/-- R116: a BV_GET after a BV_APPEND or a BV_SET returns the bit written, and after a BV_SET every other position reads as before; BV_GET
and BV_SET never change BV_LEN; a failing command of the family changes nothing but STATUS. -/
def Obligations.BvGetAfterWrite : Prop :=
  (∀ (s t : State) (i : Instr), (i = .bvGet ∨ ∃ v, i = .bvSet v) → exec i s = .next t → t.bvLen = s.bvLen) ∧
  (∀ (s t : State) (i : Instr), s.caps.Ok →
    (i = .bvClear ∨ i = .bvGet ∨ (∃ v, i = .bvSet v) ∨ (∃ v, i = .bvAppend v) ∨ i = .bvReserve) →
    exec i s = .next t → t.err = true → RolledBack s t) ∧
  (∀ (s t : State) (v : Bool), s.Inv → exec (.bvAppend v) s = .next t → t.err = false →
    ∃ u, exec .bvGet { t with arg := BitVec.ofNat 64 (t.bvLen - 1) } = .next u ∧ u.err = false ∧
      u.result = (if v then 1 else 0) ∧ u.bvLen = t.bvLen) ∧
  (∀ (s t : State) (v : Bool), exec (.bvSet v) s = .next t → t.err = false →
    t.bvLen = s.bvLen ∧
    (∃ u, exec .bvGet t = .next u ∧ u.err = false ∧ u.result = if v then 1 else 0) ∧
    ∀ p : Word, p ≠ s.arg → p.toNat < s.bvLen →
      ∃ u u', exec .bvGet { t with arg := p } = .next u ∧ exec .bvGet { s with arg := p } = .next u' ∧
        u.err = false ∧ u'.err = false ∧ u.result = u'.result)

/-! ## Queue and tree construction -/

/-- R130: `push` appends at the end; `popmin` takes the entry of least weight, the earliest pushed among the lightest, and leaves the
others in their order; `combine` makes its first argument the left child, with the sum of the weights. -/
def Obligations.PopminTakesTheEarliestLightest : Prop :=
  (∀ (q : List Tree) (t : Tree), push q t = q ++ [t]) ∧
  (∀ a b : Tree, a.weight.toNat + b.weight.toNat < 2 ^ 64 →
    ∃ w : Word, combine a b = .node w a b ∧ w.toNat = a.weight.toNat + b.weight.toNat) ∧
  (∀ q : List Tree, popmin q = none ↔ q = []) ∧
  (∀ (q rest : List Tree) (t : Tree), popmin q = some (t, rest) ↔
    ∃ pre post, q = pre ++ t :: post ∧ rest = pre ++ post ∧
      (∀ u ∈ pre, t.weight.toNat < u.weight.toNat) ∧ ∀ u ∈ post, t.weight.toNat ≤ u.weight.toNat)

/-- R135: PQ_PUSH_LEAF appends the leaf (sym, ARG) as the newest entry, or fails when the queue or the node store is full. -/
def Obligations.PushLeafAppends : Prop :=
  ∀ (s : State) (sym : Byte), (encode (.pqPushLeaf sym)).toNat = 0x24000000 + 0x10000 * sym.toNat ∧
    (s.pq.length + 1 ≤ s.caps.entries → s.nodesUsed + 1 ≤ s.caps.nodes →
      exec (.pqPushLeaf sym) s =
        .next { s with pq := s.pq ++ [.leaf sym s.arg], err := false, errcode := 0, flight := none }) ∧
    (s.caps.entries < s.pq.length + 1 ∨ s.caps.nodes < s.nodesUsed + 1 →
      exec (.pqPushLeaf sym) s = .next (s.rollback .capacityExceeded))

/-- R136: PQ_MERGE pops the two lightest trees a and b and appends Node(weight(a) + weight(b), a, b); the three errors in order. -/
def Obligations.MergeCombinesTheTwoLightest : Prop :=
  encode .pqMerge = 0x25000000 ∧
  (∀ s : State, s.pq.length < 2 → exec .pqMerge s = .next (s.rollback .emptyQueue)) ∧
  (∀ (s : State) a b q rest, popmin s.pq = some (a, q) → popmin q = some (b, rest) →
    (2 ^ 64 ≤ a.weight.toNat + b.weight.toNat → exec .pqMerge s = .next (s.rollback .weightOverflow)) ∧
    (a.weight.toNat + b.weight.toNat < 2 ^ 64 → s.caps.nodes < s.nodesUsed + 1 →
      exec .pqMerge s = .next (s.rollback .capacityExceeded)) ∧
    (a.weight.toNat + b.weight.toNat < 2 ^ 64 → s.nodesUsed + 1 ≤ s.caps.nodes →
      ∃ w : Word, w.toNat = a.weight.toNat + b.weight.toNat ∧
        exec .pqMerge s =
          .next { s with pq := rest ++ [.node w a b], err := false, errcode := 0, flight := none }))

/-- R137: PQ_POP moves the lightest tree into TREE, or fails on an empty queue. -/
def Obligations.PopMovesTheLightestToTree : Prop :=
  encode .pqPop = 0x26000000 ∧
  (∀ s : State, s.pq = [] → exec .pqPop s = .next (s.rollback .emptyQueue)) ∧
  (∀ (s : State) t rest, popmin s.pq = some (t, rest) →
    exec .pqPop s = .next { s with tree := some t, pq := rest, err := false, errcode := 0, flight := none })

/-- R131: BUILD commits unless the counts sum past 64 bits, empties PQ, leaves 2k - 1 nodes for k included symbols (0 for none), and
changes nothing else; otherwise WEIGHT_OVERFLOW. -/
def Obligations.BuildReplacesTheTree : Prop :=
  (∀ s : State, s.freqTotal < 2 ^ 64 →
    ∃ tree, exec .build s = .next { s with tree := tree, pq := [], err := false, errcode := 0, flight := none } ∧
      (tree = none ↔ includedSymbols s = []) ∧ nodesOf tree = 2 * (includedSymbols s).length - 1) ∧
  (∀ s : State, 2 ^ 64 ≤ s.freqTotal → exec .build s = .next (s.rollback .weightOverflow))

/-- R138: the tree BUILD makes: every internal node weighs the sum of its children, the root weighs the sum of all counts, and there is
exactly one leaf per included symbol, holding its count (that no node has exactly one child is the tree type's); and the source's
scenario, root weight 100 with 1 bit for 'f' and 4 bits for 'a' and 'b'. -/
def Obligations.BuildWeightsAndLeaves : Prop :=
  (∀ (s t : State) (tree : Tree), exec .build s = .next t → t.err = false → t.tree = some tree →
    tree.sumWeights ∧ tree.weight.toNat = s.freqTotal ∧
      tree.leaves.Perm ((includedSymbols s).map fun sym => (sym, s.freqOf sym))) ∧
  (∀ s : State, (includedSymbols s).map (fun sym => (sym, s.freqOf sym)) =
      [(0x61, 5), (0x62, 9), (0x63, 12), (0x64, 13), (0x65, 16), (0x66, 45)] →
    ∃ t tree, exec .build s = .next t ∧ t.err = false ∧ t.tree = some tree ∧ tree.weight = 100 ∧
      heightOf t.tree 0x66 = some 1 ∧ heightOf t.tree 0x61 = some 4 ∧ heightOf t.tree 0x62 = some 4)

/-- R139: where the step sequence does not fail, BUILD commits and leaves TREE and PQ as the step sequence does; with no included symbol
the sequence is PQ_CLEAR, TREE_CLEAR. -/
def Obligations.BuildEqualsItsSteps : Prop :=
  ∀ s t : State, runCommands (buildSteps s) s = some t →
    ∃ u, exec .build s = .next u ∧ u.err = false ∧ u.tree = t.tree ∧ u.pq = t.pq

/-! ## Codec -/

/-- R161: ENCODE appends the code of sym; SYMBOL_NOT_FOUND when there is none, CAPACITY_EXCEEDED when it does not fit. -/
def Obligations.EncodeAppendsTheCode : Prop :=
  ∀ (s : State) (sym : Byte), (encode (.encodeSym sym)).toNat = 0x30000000 + 0x10000 * sym.toNat ∧
    (codeOf s.tree sym = none → exec (.encodeSym sym) s = .next (s.rollback .symbolNotFound)) ∧
    (∀ c, codeOf s.tree sym = some c → s.caps.bvBits < s.bv.length + c.length →
      exec (.encodeSym sym) s = .next (s.rollback .capacityExceeded)) ∧
    (∀ c, codeOf s.tree sym = some c → s.bv.length + c.length ≤ s.caps.bvBits →
      exec (.encodeSym sym) s = .next { s with bv := s.bv ++ c, err := false, errcode := 0, flight := none })

/-- R163: DECODE returns the symbol its walk of TREE along bv from POS reaches and advances POS; with no root or no bits left it fails
with CORRUPTED_ARCHIVE. -/
def Obligations.DecodeWalksTheTree : Prop :=
  encode .decodeSym = 0x31000000 ∧
  (∀ s : State, s.tree = none → exec .decodeSym s = .next (s.rollback .corruptedArchive)) ∧
  (∀ (s : State) (t : Tree), s.tree = some t →
    walk (fun p => decide (p < s.bv.length)) (fun p => s.bv.getD p false) t s.pos.toNat = none →
    exec .decodeSym s = .next (s.rollback .corruptedArchive)) ∧
  (∀ (s : State) (t : Tree) (sym : Byte) (p : Nat), s.tree = some t →
    walk (fun p => decide (p < s.bv.length)) (fun p => s.bv.getD p false) t s.pos.toNat = some (sym, p) →
    exec .decodeSym s =
      .next { s with
        result := sym.setWidth 64, pos := BitVec.ofNat 64 p, err := false, errcode := 0, flight := none })

/-- R164, first part: when bv holds the code of a symbol at POS, DECODE returns that symbol and advances POS by the code's length,
whatever follows. -/
def Obligations.DecodeReadsBackACode : Prop :=
  ∀ (s : State) (sym : Byte) (code : List Bool), s.Inv → codeOf s.tree sym = some code →
    s.pos.toNat + code.length ≤ s.bv.length ∨ code = [] →
    (∀ k, k < code.length → s.bv[s.pos.toNat + k]? = code[k]?) →
    ∃ t, exec .decodeSym s = .next t ∧ t.err = false ∧ t.result = sym.setWidth 64 ∧
      t.pos.toNat = s.pos.toNat + code.length

/-- R164, second part: ENCODE of each symbol of a sequence from an empty bv, then one DECODE per symbol from POS = 0, returns the
sequence. -/
def Obligations.EncodeThenDecodeReturnsTheSymbols : Prop :=
  ∀ (s t : State) (symbols : List Byte), s.Inv → s.bv = [] →
    runCommands (symbols.map fun x => (s.arg, .encodeSym x)) s = some t →
    decodeRun symbols.length { t with pos := 0 } = some (symbols.map fun x => x.setWidth 64)

/-- R166, R165: HEIGHT always commits, with FOUND = 1 and the code's length, or FOUND = 0 and 0. -/
def Obligations.HeightReportsPresence : Prop :=
  ∀ (s : State) (sym : Byte), (encode (.height sym)).toNat = 0x32000000 + 0x10000 * sym.toNat ∧
    (codeOf s.tree sym = none →
      exec (.height sym) s = .next { s with found := false, result := 0, err := false, errcode := 0, flight := none }) ∧
    (∀ c, codeOf s.tree sym = some c →
      exec (.height sym) s =
        .next { s with
          found := true, result := BitVec.ofNat 64 c.length, err := false, errcode := 0, flight := none })

/-- R160: a symbol has a code exactly when HEIGHT sets FOUND, exactly when ENCODE of it does not report SYMBOL_NOT_FOUND. -/
def Obligations.PresenceIsOneNotion : Prop :=
  ∀ (s : State) (sym : Byte),
    (codeOf s.tree sym ≠ none ↔ ∃ t, exec (.height sym) s = .next t ∧ t.found = true) ∧
    (codeOf s.tree sym ≠ none ↔ ∃ t, exec (.encodeSym sym) s = .next t ∧ t.errcode ≠ 3)

/-! ## Serialization and packing -/

/-- R183, R184, R200: BV_PACK, EXPORT_SHAPE and EXPORT_FULL write their bytes from OUT[OUT_LEN], advance OUT_LEN, return the number of
bytes and change no other byte; CAPACITY_EXCEEDED when the bytes do not fit. -/
def Obligations.OutputCommandsAppendTheirBytes : Prop :=
  (encode .bvPack = 0x15000000 ∧ encode .exportShape = 0x40000000 ∧ encode .exportFull = 0x41000000) ∧
  ∀ (s : State) (i : Instr) (b : List Byte), s.caps.Ok →
    ((i = .bvPack ∧ b = pack s.bv) ∨ (i = .exportShape ∧ b = serShape s.tree) ∨ (i = .exportFull ∧ b = serFull s.tree)) →
    (s.outLen.toNat + b.length ≤ s.caps.outBytes →
      ∃ t mem', exec i s = .next t ∧
        t = { s with
          mem := mem', outLen := BitVec.ofNat 64 (s.outLen.toNat + b.length), result := BitVec.ofNat 64 b.length
          err := false, errcode := 0, flight := none } ∧
        (∀ k (hk : k < b.length), t.outByte (s.outLen.toNat + k) = b[k]) ∧
        ∀ a, ¬(Config.outBase + s.outLen.toNat ≤ a ∧ a < Config.outBase + s.outLen.toNat + b.length) →
          t.ramByte a = s.ramByte a) ∧
    (s.caps.outBytes < s.outLen.toNat + b.length → exec i s = .next (s.rollback .capacityExceeded))

/-- R181, R182: the sizes of the two serialized forms. -/
def Obligations.SerializedSizes : Prop :=
  ∀ t : Option Tree, (serShape t).length = 1 + 3 * nodesOf t ∧ (serFull t).length = 1 + 14 * nodesOf t

/-- R180: flag bytes: export writes 0x00 and 0x01; import reads 0x00 as false, 0x01 as true, and every other byte as corrupt. -/
def Obligations.FlagBytes : Prop :=
  flagByte false = 0x00 ∧ flagByte true = 0x01 ∧
  ∀ (byte : Nat → Byte) (limit c : Nat), c < limit →
    (byte c = 0x00 → rdFlag byte limit c = .ok (false, c + 1)) ∧
    (byte c = 0x01 → rdFlag byte limit c = .ok (true, c + 1)) ∧
    (byte c ≠ 0x00 → byte c ≠ 0x01 → rdFlag byte limit c = .error .corruptedArchive)

/-- R185, R186, R187, R188: an import commits with a given TREE and n bytes consumed, IN_RP past them and RESULT counting them, exactly
when the n bytes from IN_RP, all below IN_LEN, are a flag 00 (TREE is then empty), or a flag 01 and a byte string that the grammar of
serialized trees gives for that tree, whose nodes fit. -/
def Obligations.ImportAcceptsExactlyTheGrammar : Prop :=
  ∀ (s : State) (i : Instr) (kind : TreeKind), s.Inv →
    ((i = .importShape ∧ kind = .shape) ∨ (i = .importFull ∧ kind = .full)) →
    ∀ (tree : Option Tree) (n : Nat), n < 2 ^ 64 →
      (exec i s =
          .next { s with
            tree := tree, inRp := BitVec.ofNat 64 (s.inRp.toNat + n), result := BitVec.ofNat 64 n
            err := false, errcode := 0, flight := none } ↔
        ((tree = none ∧ n = 1 ∧ s.inHolds s.inRp.toNat [0x00]) ∨
          ∃ t bs, tree = some t ∧ n = 1 + bs.length ∧ TreeBytes kind t bs ∧ s.inHolds s.inRp.toNat (0x01 :: bs) ∧
            t.nodes ≤ s.freeNodes))

/-- R185, R187, R188: when an import fails and which error it reports, at any depth. CORRUPTED_ARCHIVE exactly when the bytes end
before the top flag, the top flag is neither 00 nor 01, or the nodes begun so far fit and what follows them is a flag that may not
stand there (no flag byte, or the one that makes a single child) or the end of the input. CAPACITY_EXCEEDED exactly when one node more
than is free is begun before any of that; so for every well-formed tree with more nodes than are free. -/
def Obligations.ImportRefusesMalformedBytes : Prop :=
  ∀ (s : State) (i : Instr) (kind : TreeKind),
    ((i = .importShape ∧ kind = .shape) ∨ (i = .importFull ∧ kind = .full)) →
    (exec i s = .next (s.rollback .corruptedArchive) ↔
      s.inLen.toNat ≤ s.inRp.toNat ∨
      (s.inRp.toNat < s.inLen.toNat ∧ s.inByte s.inRp.toNat ≠ 0x00 ∧ s.inByte s.inRp.toNat ≠ 0x01) ∨
      ∃ n bs, n ≤ s.freeNodes ∧ s.inHolds s.inRp.toNat (0x01 :: bs) ∧
        (FlawedNode kind .badFlag n bs ∨
          (FlawedNode kind .truncated n bs ∧ s.inRp.toNat + 1 + bs.length = s.inLen.toNat))) ∧
    (exec i s = .next (s.rollback .capacityExceeded) ↔
      ∃ bs, s.inHolds s.inRp.toNat (0x01 :: bs) ∧ FlawedNode kind .noRoom (s.freeNodes + 1) bs) ∧
    (∀ (t : Tree) (bs : List Byte), TreeBytes kind t bs → s.inHolds s.inRp.toNat (0x01 :: bs) →
      s.freeNodes < t.nodes → exec i s = .next (s.rollback .capacityExceeded))

/-- R189: importing what export wrote: the full form gives the tree exactly, the shape-only form gives it with every weight 0. -/
def Obligations.ImportReadsBackAnExport : Prop :=
  ∀ (s : State) (t : Option Tree), s.Inv → nodesOf t ≤ s.freeNodes →
    (s.inHolds s.inRp.toNat (serFull t) →
      exec .importFull s =
        .next { s with
          tree := t, inRp := BitVec.ofNat 64 (s.inRp.toNat + (serFull t).length)
          result := BitVec.ofNat 64 (serFull t).length, err := false, errcode := 0, flight := none }) ∧
    (s.inHolds s.inRp.toNat (serShape t) →
      exec .importShape s =
        .next { s with
          tree := t.map Tree.zeroed, inRp := BitVec.ofNat 64 (s.inRp.toNat + (serShape t).length)
          result := BitVec.ofNat 64 (serShape t).length, err := false, errcode := 0, flight := none })

/-- R72, R9, R74: the byte layouts: `le64` is the 8 bytes of a value, byte k holding its bits 8k+7 .. 8k, and `readle64` is its inverse;
packed bits take ⌈|b|/8⌉ bytes, bit i of the sequence at bit (i mod 8) of byte ⌊i/8⌋, the padding bits 0. -/
def Obligations.IntegerAndPackedBitLayouts : Prop :=
  (∀ v : Word, (le64 v).length = 8 ∧ (∀ k, k < 8 → (le64 v)[k]? = some (BitVec.ofNat 8 (v.toNat / 2 ^ (8 * k)))) ∧
    ∀ (byte : Nat → Byte) (a : Nat), (∀ k, k < 8 → (le64 v)[k]? = some (byte (a + k))) → readLE64 byte a = v) ∧
  (∀ b : List Bool, (pack b).length = (b.length + 7) / 8 ∧
    (∀ i (hi : i < b.length), bitof (pack b) i = b[i]) ∧
    ∀ i, b.length ≤ i → i < 8 * (pack b).length → bitof (pack b) i = false)

/-- R201: BV_UNPACK appends the 8·n bits of the n bytes at IN_RP, in packed order, and advances IN_RP; the two errors in order. -/
def Obligations.BvUnpackAppendsTheBits : Prop :=
  encode .bvUnpack = 0x16000000 ∧
  (∀ s : State, s.inLen.toNat < s.inRp.toNat + s.arg.toNat → exec .bvUnpack s = .next (s.rollback .inputUnderrun)) ∧
  (∀ s : State, s.inRp.toNat + s.arg.toNat ≤ s.inLen.toNat → s.caps.bvBits < s.bv.length + 8 * s.arg.toNat →
    exec .bvUnpack s = .next (s.rollback .capacityExceeded)) ∧
  (∀ s : State, s.inRp.toNat + s.arg.toNat ≤ s.inLen.toNat → s.bv.length + 8 * s.arg.toNat ≤ s.caps.bvBits →
    ∃ bits, exec .bvUnpack s =
        .next { s with
          bv := s.bv ++ bits, inRp := BitVec.ofNat 64 (s.inRp.toNat + s.arg.toNat)
          err := false, errcode := 0, flight := none } ∧
      bits.length = 8 * s.arg.toNat ∧
      ∀ i, i < 8 * s.arg.toNat → bits[i]? = some ((s.inByte (s.inRp.toNat + i / 8)).getLsbD (i % 8)))

/-! ## File payloads -/

/-- R204: PAYLOAD_ENCODE appends the payload of the n symbols at IN_RP to OUT and advances IN_RP; the three errors in order. -/
def Obligations.PayloadEncodeAppendsThePayload : Prop :=
  encode .payloadEncode = 0x50000000 ∧
  (∀ s : State, s.inLen.toNat < s.inRp.toNat + s.arg.toNat →
    exec .payloadEncode s = .next (s.rollback .inputUnderrun)) ∧
  (∀ s : State, s.inRp.toNat + s.arg.toNat ≤ s.inLen.toNat →
    (∃ x ∈ s.inBytes s.inRp.toNat s.arg.toNat, codeOf s.tree x = none) →
    exec .payloadEncode s = .next (s.rollback .symbolNotFound)) ∧
  (∀ (s : State) (codes : List (List Bool)) (b : List Byte), s.caps.Ok →
    s.inRp.toNat + s.arg.toNat ≤ s.inLen.toNat →
    (s.inBytes s.inRp.toNat s.arg.toNat).map (codeOf s.tree) = codes.map some →
    b = serShape s.tree ++ le64 s.arg ++ pack codes.flatten →
    (s.caps.outBytes < s.outLen.toNat + b.length → exec .payloadEncode s = .next (s.rollback .capacityExceeded)) ∧
    (s.outLen.toNat + b.length ≤ s.caps.outBytes →
      ∃ t mem', exec .payloadEncode s = .next t ∧
        t = { s with
          mem := mem', outLen := BitVec.ofNat 64 (s.outLen.toNat + b.length), result := BitVec.ofNat 64 b.length
          inRp := BitVec.ofNat 64 (s.inRp.toNat + s.arg.toNat), err := false, errcode := 0, flight := none } ∧
        (∀ k (hk : k < b.length), t.outByte (s.outLen.toNat + k) = b[k]) ∧
        ∀ a, ¬(Config.outBase + s.outLen.toNat ≤ a ∧ a < Config.outBase + s.outLen.toNat + b.length) →
          t.ramByte a = s.ramByte a))

/-- R205: PAYLOAD_DECODE, its checks in order: the tree's error, the count truncated, a count with no root, OUT full, bits run out; and
where none fails, the symbols the walk gives go to OUT, TREE is the parsed tree, IN_RP is past the last byte used, RESULT is the
count, and no other byte changes. -/
def Obligations.PayloadDecodeChecksInOrder : Prop :=
  encode .payloadDecode = 0x51000000 ∧
  (∀ (s : State) (e : ErrCode), parseTree s.inByte .shape s.inRp.toNat s.inLen.toNat s.freeNodes = .error e →
    exec .payloadDecode s = .next (s.rollback e)) ∧
  ∀ (s : State) (t : Option Tree) (c : Nat),
    parseTree s.inByte .shape s.inRp.toNat s.inLen.toNat s.freeNodes = .ok (t, c) →
    (s.inLen.toNat < c + 8 → exec .payloadDecode s = .next (s.rollback .corruptedArchive)) ∧
    (c + 8 ≤ s.inLen.toNat → ∀ n, n = (readLE64 s.inByte c).toNat →
      (0 < n → t = none → exec .payloadDecode s = .next (s.rollback .corruptedArchive)) ∧
      (n = 0 ∨ t ≠ none → s.caps.outBytes < s.outLen.toNat + n →
        exec .payloadDecode s = .next (s.rollback .capacityExceeded)) ∧
      (n = 0 ∨ t ≠ none → s.outLen.toNat + n ≤ s.caps.outBytes →
        ∀ r, r = decodeMany (fun j => decide (c + 8 + j / 8 < s.inLen.toNat)) (s.inBit (c + 8)) t n →
          (r = none → exec .payloadDecode s = .next (s.rollback .corruptedArchive)) ∧
          ∀ symbols p, r = some (symbols, p) → symbols.length = n ∧
            ∃ u mem', exec .payloadDecode s = .next u ∧
              u = { s with
                mem := mem', outLen := BitVec.ofNat 64 (s.outLen.toNat + n), result := BitVec.ofNat 64 n, tree := t
                inRp := BitVec.ofNat 64 (c + 8 + (p + 7) / 8), err := false, errcode := 0, flight := none } ∧
              (∀ k (hk : k < symbols.length), u.outByte (s.outLen.toNat + k) = symbols[k]) ∧
              ∀ a, ¬(Config.outBase + s.outLen.toNat ≤ a ∧ a < Config.outBase + s.outLen.toNat + n) →
                u.ramByte a = s.ramByte a))

/-- R205, R203, R202: PAYLOAD_DECODE of a payload of (t, S) commits: the symbols S go to OUT, TREE is t with weights 0, IN_RP is past the
payload and no further, RESULT is |S|, and no other byte changes. Together with PAYLOAD_ENCODE this is the round trip of R164's source
law at payload level. -/
def Obligations.PayloadDecodeReadsBackAPayload : Prop :=
  ∀ (s : State) (t : Option Tree) (symbols : List Byte) (codes : List (List Bool)) (b : List Byte), s.Inv →
    symbols.map (codeOf t) = codes.map some →
    b = serShape t ++ le64 (BitVec.ofNat 64 symbols.length) ++ pack codes.flatten →
    s.inHolds s.inRp.toNat b → nodesOf t ≤ s.freeNodes → s.outLen.toNat + symbols.length ≤ s.caps.outBytes →
    ∃ u mem', exec .payloadDecode s = .next u ∧
      u = { s with
        mem := mem', outLen := BitVec.ofNat 64 (s.outLen.toNat + symbols.length)
        result := BitVec.ofNat 64 symbols.length, tree := t.map Tree.zeroed
        inRp := BitVec.ofNat 64 (s.inRp.toNat + b.length), err := false, errcode := 0, flight := none } ∧
      (∀ k (hk : k < symbols.length), u.outByte (s.outLen.toNat + k) = symbols[k]) ∧
      ∀ a, ¬(Config.outBase + s.outLen.toNat ≤ a ∧ a < Config.outBase + s.outLen.toNat + symbols.length) →
        u.ramByte a = s.ramByte a

/-- R207: a payload that would end exactly at IN_LEN, cut by its last byte, is CORRUPTED_ARCHIVE, its tree's nodes and its symbols
fitting (R205 checks both first). -/
def Obligations.CutPayloadIsCorrupted : Prop :=
  ∀ (s : State) (t : Option Tree) (symbols : List Byte) (codes : List (List Bool)) (b : List Byte), s.Inv →
    symbols.map (codeOf t) = codes.map some →
    b = serShape t ++ le64 (BitVec.ofNat 64 symbols.length) ++ pack codes.flatten →
    s.inRp.toNat + b.length = s.inLen.toNat + 1 →
    (∀ k (hk : k < b.length), s.inRp.toNat + k < s.inLen.toNat → s.inByte (s.inRp.toNat + k) = b[k]) →
    nodesOf t ≤ s.freeNodes → s.outLen.toNat + symbols.length ≤ s.caps.outBytes →
    exec .payloadDecode s = .next (s.rollback .corruptedArchive)

/-- R206: the single-symbol policy: on a single-leaf tree ENCODE of its symbol appends nothing, DECODE returns the symbol and leaves POS,
and the payload of n copies is 01 s 00 00, the count and no packed byte. -/
def Obligations.SingleSymbolPolicy : Prop :=
  ∀ (s : State) (sym : Byte) (w : Word), s.tree = some (.leaf sym w) → s.bvLen ≤ s.caps.bvBits →
    exec (.encodeSym sym) s = .next { s with err := false, errcode := 0, flight := none } ∧
    exec .decodeSym s = .next { s with result := sym.setWidth 64, err := false, errcode := 0, flight := none } ∧
    ∀ n, ∃ bits, codesOf s.tree (List.replicate n sym) = some bits ∧
      payloadOf s.tree n bits = [0x01, sym, 0x00, 0x00] ++ le64 (BitVec.ofNat 64 n)

/-! ## The host's accesses -/

/-- R50, R39, R37, R32, R41 to R44, R47, R48: the register map: what a 64-bit read at each register's offset returns while BUSY = 0; the
read changes nothing but the host's side: its record (log 8), and for STATUS the read of BUSY = 0 it may owe (log 22). -/
def Obligations.IdleRegisterReads : Prop :=
  ∀ (s : State) (off : Nat) (v : Word), s.busy = false →
    ((off = 0x000 ∧ v = 0x48544331) ∨ (off = 0x008 ∧ v = 0) ∨ (off = 0x010 ∧ v = s.statusWord) ∨
      (off = 0x018 ∧ v = s.arg) ∨ (off = 0x020 ∧ v = s.result) ∨ (off = 0x028 ∧ v = BitVec.ofNat 64 s.bv.length) ∨
      (off = 0x030 ∧ v = s.pos) ∨ (off = 0x038 ∧ v = s.inLen) ∨ (off = 0x040 ∧ v = s.inRp) ∨
      (off = 0x048 ∧ v = s.outLen) ∨ (off = 0x050 ∧ v = BitVec.ofNat 64 s.pq.length) ∨
      (off = 0x058 ∧ v = BitVec.ofNat 64 (nodesOf s.tree + (s.pq.map Tree.nodes).sum)) ∨ (off = 0x060 ∧ v = 0) ∨
      (off = 0x068 ∧ v = BitVec.ofNat 64 s.caps.bvBits) ∨ (off = 0x070 ∧ v = BitVec.ofNat 64 s.caps.inBytes) ∨
      (off = 0x078 ∧ v = BitVec.ofNat 64 s.caps.outBytes) ∨ (off = 0x080 ∧ v = BitVec.ofNat 64 s.caps.nodes) ∨
      (off = 0x088 ∧ v = BitVec.ofNat 64 s.caps.entries) ∨
      ∃ x, x < 256 ∧ off = 0x800 + 8 * x ∧ s.freq[x]? = some v) →
    busRead off 8 s =
      .next { s with reads := v :: s.reads, awaiting := if off = 0x010 then false else s.awaiting }

/-- R66: no read changes the block (the host's record, the read it may owe and the draws are the model's, log 8, 22, 5), and while
BUSY = 0 two reads of one address return the same value. -/
def Obligations.ReadsAreIdempotent : Prop :=
  (∀ (s t : State) (a n : Nat), busRead a n s = .next t →
    ∃ v d w, t = { s with reads := v :: s.reads, draws := d, awaiting := w }) ∧
  (∀ (s t : State) (a n : Nat), s.busy = false → busRead a n s = .next t →
    ∃ v w, t = { s with reads := v :: s.reads, awaiting := w } ∧
      busRead a n t = .next { t with reads := v :: t.reads })

/-- R34: the fields of STATUS by bit number: BUSY 0, ERR 1, FOUND 2, HAZ 3, ERRCODE 11:8, and every other bit reads 0; a write to STATUS
while BUSY = 0 clears HAZ if bit 3 of the written value is 1 and changes nothing else. -/
def Obligations.StatusFieldsAndWrite : Prop :=
  (∀ s : State,
    s.statusWord.getLsbD 0 = s.busy ∧ s.statusWord.getLsbD 1 = s.err ∧ s.statusWord.getLsbD 2 = s.found ∧
    s.statusWord.getLsbD 3 = s.haz ∧ s.statusWord.extractLsb' 8 4 = s.errcode ∧
    s.statusWord.extractLsb' 4 4 = 0 ∧ s.statusWord.extractLsb' 12 52 = 0) ∧
  (∀ (s : State) (v : Word), s.busy = false →
    busWrite 0x010 8 v s = .next (if v.getLsbD 3 then { s with haz := false } else s)) ∧
  (State.reset.err = false ∧ State.reset.found = false ∧ State.reset.haz = false ∧ State.reset.errcode = 0)

/-- R32, R42, R43, R44, R50: host writes while BUSY = 0: ARG and POS take the value, the pointers its minimum with their window's
capacity, FREQ[x] the value in that register alone; read-only registers ignore it. -/
def Obligations.IdleRegisterWrites : Prop :=
  ∀ (s : State) (v : Word), s.caps.Ok → s.busy = false →
    busWrite 0x018 8 v s = .next { s with arg := v } ∧
    busWrite 0x030 8 v s = .next { s with pos := v } ∧
    (∃ p : Word, p.toNat = min v.toNat s.caps.inBytes ∧ busWrite 0x038 8 v s = .next { s with inLen := p }) ∧
    (∃ p : Word, p.toNat = min v.toNat s.caps.inBytes ∧ busWrite 0x040 8 v s = .next { s with inRp := p }) ∧
    (∃ p : Word, p.toNat = min v.toNat s.caps.outBytes ∧ busWrite 0x048 8 v s = .next { s with outLen := p }) ∧
    (∀ x : Byte, ∃ freq', busWrite (0x800 + 8 * x.toNat) 8 v s = .next { s with freq := freq' } ∧
      freq'[x.toNat]? = some v ∧ ∀ j, j ≠ x.toNat → freq'[j]? = s.freq[j]?) ∧
    ∀ off ∈ [0x000, 0x020, 0x028, 0x050, 0x058, 0x068, 0x070, 0x078, 0x080, 0x088], busWrite off 8 v s = .next s

/-- R38, R100: a write to CMD while BUSY = 0 puts the word in flight, with BUSY = 1, ERR = 0 and ERRCODE = 0, and changes nothing else of
the block; its latency is a free value (log 6). From then on the host owes a read of BUSY = 0 (R256, log 22). -/
def Obligations.CmdWriteIssuesTheCommand : Prop :=
  ∀ (s : State) (w : Word), s.busy = false →
    busWrite 0x008 8 w s =
      .next { s with
        flight := some { word := w, delay := Config.latency s.draws }, draws := s.draws + 1
        err := false, errcode := 0, awaiting := true }

/-- R251, R40, R250, R228: a write to CTRL with bit 0 = 1, whether BUSY is 0 or 1, gives the reset state; the capacities and the
host's side (its program, its record, the read of BUSY = 0 it may owe: log 15) stay, and the window bytes are drawn afresh. With bit
0 = 0 it has no effect. -/
def Obligations.SoftResetGivesTheResetState : Prop :=
  ∀ (s : State) (v : Word),
    (v.getLsbD 0 = true →
      busWrite 0x060 8 v s =
        .next { State.reset with
          caps := s.caps, host := s.host, reads := s.reads, awaiting := s.awaiting
          ramDraw := s.draws, draws := s.draws + 1 } ∧
      ∀ t, busWrite 0x060 8 v s = .next t → ∀ a, t.ramByte a = Config.freeByte s.draws a) ∧
    (v.getLsbD 0 = false → busWrite 0x060 8 v s = .next s)

/-- R260, R36, R226, R228: while BUSY = 1 a write to any address but CTRL is discarded and sets HAZ; nothing else changes. A CTRL write
with bit 0 = 1 is taken: the command is abandoned and HAZ is 0. -/
def Obligations.BusyWritesAreDiscarded : Prop :=
  (∀ (s : State) (a : Addr) (n : Nat) (v : Word), s.busy = true → a.toNat ≠ 0x060 → accessOk s.caps a.toNat n →
    busWrite a.toNat n v s = .next { s with haz := true }) ∧
  (∀ (s : State) (v : Word), s.busy = true → v.getLsbD 0 = true →
    ∃ t, busWrite 0x060 8 v s = .next t ∧ t.busy = false ∧ t.haz = false ∧ t.tree = none ∧ t.bv = [] ∧ t.pq = [])

/-- R261 (the free values are the model's, log 5): reads while BUSY = 1: the constants, CMD, CTRL and STATUS are defined; every other
register read is a free value of a fresh draw, and so is every read of window bytes, cut to the bytes read. -/
def Obligations.BusyReads : Prop :=
  ∀ s : State, s.caps.Ok → s.busy = true →
    (∀ r : Reg, (r = .id ∨ r = .cmd ∨ r = .ctrl ∨ r = .status ∨ r = .capBv ∨ r = .capIn ∨ r = .capOut ∨ r = .capNode ∨
        r = .capPq) →
      busRead r.offset 8 s = .next { s with reads := s.readReg r :: s.reads, draws := s.draws + 1 }) ∧
    (∀ r : Reg, (r = .arg ∨ r = .result ∨ r = .bvLen ∨ r = .pos ∨ r = .inLen ∨ r = .inRp ∨ r = .outLen ∨ r = .pqLen ∨
        r = .nodesUsed ∨ ∃ x, r = .freq x) →
      busRead r.offset 8 s = .next { s with reads := Config.freeWord s.draws :: s.reads, draws := s.draws + 1 }) ∧
    (∀ a n, windowBytes s.caps a n →
      ∃ v : Word, busRead a n s = .next { s with reads := v :: s.reads, draws := s.draws + 1 } ∧
        v.toNat = (Config.freeWord s.draws).toNat % 256 ^ n)

/-- R73, R67, R65: a window write of n bytes while BUSY = 0 stores byte k of the value at address a + k and nothing else; a read of the
same n bytes then returns the value's low n bytes. -/
def Obligations.WindowWriteThenRead : Prop :=
  ∀ (s : State) (a n : Nat) (v : Word), s.caps.Ok → s.busy = false → windowBytes s.caps a n →
    ∃ t mem', busWrite a n v s = .next t ∧ t = { s with mem := mem' } ∧
      (∀ k, k < n → t.ramByte (a + k) = BitVec.ofNat 8 (v.toNat / 2 ^ (8 * k))) ∧
      (∀ j, ¬(a ≤ j ∧ j < a + n) → t.ramByte j = s.ramByte j) ∧
      ∃ x : Word, x.toNat = v.toNat % 256 ^ n ∧ busRead a n t = .next { t with reads := x :: t.reads }

/-- R62, R63, R255: the host accesses the model refuses are exactly those of another width or alignment, or across the end of a window's
backed bytes; all others answer a next state. Which widths the reserved ranges have is the model's choice (log 9): the register map's
below the windows, the windows' above them. -/
def Obligations.RefusedAccessesAreTheMalformedOnes : Prop :=
  ∀ (s : State) (a : Addr) (n : Nat) (v : Word),
    ((∃ t, busRead a.toNat n s = .next t) ↔ accessOk s.caps a.toNat n) ∧
    ((∃ r, busRead a.toNat n s = .refused r) ↔ ¬accessOk s.caps a.toNat n) ∧
    ((∃ t, busWrite a.toNat n v s = .next t) ↔ accessOk s.caps a.toNat n) ∧
    ((∃ r, busWrite a.toNat n v s = .refused r) ↔ ¬accessOk s.caps a.toNat n)

/-- R64, R50, R70, R261: reserved register offsets, window offsets at or beyond the capacity and the reserved ranges read 0, busy or
idle, and ignore a write while BUSY = 0. Two things are the model's choice and no rule's: that window offsets at or beyond the capacity
read 0 while BUSY = 1 too, where R261's "every window byte read" could be read to take them in (log 11), and the widths that accesses
to the reserved ranges have (log 9). -/
def Obligations.ReservedAddressesReadZero : Prop :=
  ∀ (s : State) (a : Addr) (n : Nat) (v : Word), s.caps.Ok → accessOk s.caps a.toNat n →
    ((0x090 ≤ a.toNat ∧ a.toNat < 0x800) ∨ (0x01000 ≤ a.toNat ∧ a.toNat < 0x10000) ∨
      (0x10000 + s.caps.inBytes ≤ a.toNat ∧ a.toNat < 0x20000) ∨
      (0x20000 + s.caps.outBytes ≤ a.toNat ∧ a.toNat < 0x30000) ∨ 0x30000 ≤ a.toNat) →
    (∃ t, busRead a.toNat n s = .next t ∧ t.reads = 0 :: s.reads) ∧
    (s.busy = false → busWrite a.toNat n v s = .next s)
end

