-- ==== Sys2Proof/Laws/State.lean ====
section
/-! SUPPORT. One lemma per field per shared update of State, so that no proof unfolds a record update. -/

namespace Sys2Proof.Machine.State

/-! ## commit -/

@[simp] theorem commit_caps (s : State) : s.commit.caps = s.caps := by rfl
@[simp] theorem commit_arg (s : State) : s.commit.arg = s.arg := by rfl
@[simp] theorem commit_result (s : State) : s.commit.result = s.result := by rfl
@[simp] theorem commit_pos (s : State) : s.commit.pos = s.pos := by rfl
@[simp] theorem commit_inLen (s : State) : s.commit.inLen = s.inLen := by rfl
@[simp] theorem commit_inRp (s : State) : s.commit.inRp = s.inRp := by rfl
@[simp] theorem commit_outLen (s : State) : s.commit.outLen = s.outLen := by rfl
@[simp] theorem commit_err (s : State) : s.commit.err = false := by rfl
@[simp] theorem commit_found (s : State) : s.commit.found = s.found := by rfl
@[simp] theorem commit_haz (s : State) : s.commit.haz = s.haz := by rfl
@[simp] theorem commit_errcode (s : State) : s.commit.errcode = 0 := by rfl
@[simp] theorem commit_bv (s : State) : s.commit.bv = s.bv := by rfl
@[simp] theorem commit_freq (s : State) : s.commit.freq = s.freq := by rfl
@[simp] theorem commit_tree (s : State) : s.commit.tree = s.tree := by rfl
@[simp] theorem commit_pq (s : State) : s.commit.pq = s.pq := by rfl
@[simp] theorem commit_mem (s : State) : s.commit.mem = s.mem := by rfl
@[simp] theorem commit_flight (s : State) : s.commit.flight = none := by rfl
@[simp] theorem commit_ramDraw (s : State) : s.commit.ramDraw = s.ramDraw := by rfl
@[simp] theorem commit_outDraws (s : State) : s.commit.outDraws = s.outDraws := by rfl
@[simp] theorem commit_draws (s : State) : s.commit.draws = s.draws := by rfl
@[simp] theorem commit_host (s : State) : s.commit.host = s.host := by rfl
@[simp] theorem commit_reads (s : State) : s.commit.reads = s.reads := by rfl
@[simp] theorem commit_awaiting (s : State) : s.commit.awaiting = s.awaiting := by rfl

/-! ## rollback -/

@[simp] theorem rollback_caps (s : State) (e : ErrCode) : (s.rollback e).caps = s.caps := by rfl
@[simp] theorem rollback_arg (s : State) (e : ErrCode) : (s.rollback e).arg = s.arg := by rfl
@[simp] theorem rollback_result (s : State) (e : ErrCode) : (s.rollback e).result = s.result := by rfl
@[simp] theorem rollback_pos (s : State) (e : ErrCode) : (s.rollback e).pos = s.pos := by rfl
@[simp] theorem rollback_inLen (s : State) (e : ErrCode) : (s.rollback e).inLen = s.inLen := by rfl
@[simp] theorem rollback_inRp (s : State) (e : ErrCode) : (s.rollback e).inRp = s.inRp := by rfl
@[simp] theorem rollback_outLen (s : State) (e : ErrCode) : (s.rollback e).outLen = s.outLen := by rfl
@[simp] theorem rollback_err (s : State) (e : ErrCode) : (s.rollback e).err = true := by rfl
@[simp] theorem rollback_found (s : State) (e : ErrCode) : (s.rollback e).found = s.found := by rfl
@[simp] theorem rollback_haz (s : State) (e : ErrCode) : (s.rollback e).haz = s.haz := by rfl
@[simp] theorem rollback_errcode (s : State) (e : ErrCode) : (s.rollback e).errcode = e.bits := by rfl
@[simp] theorem rollback_bv (s : State) (e : ErrCode) : (s.rollback e).bv = s.bv := by rfl
@[simp] theorem rollback_freq (s : State) (e : ErrCode) : (s.rollback e).freq = s.freq := by rfl
@[simp] theorem rollback_tree (s : State) (e : ErrCode) : (s.rollback e).tree = s.tree := by rfl
@[simp] theorem rollback_pq (s : State) (e : ErrCode) : (s.rollback e).pq = s.pq := by rfl
@[simp] theorem rollback_mem (s : State) (e : ErrCode) : (s.rollback e).mem = s.mem.keepBelow (Config.outBase + s.outLen.toNat) := by rfl
@[simp] theorem rollback_flight (s : State) (e : ErrCode) : (s.rollback e).flight = none := by rfl
@[simp] theorem rollback_ramDraw (s : State) (e : ErrCode) : (s.rollback e).ramDraw = s.ramDraw := by rfl
@[simp] theorem rollback_outDraws (s : State) (e : ErrCode) : (s.rollback e).outDraws = (s.outLen.toNat, s.draws) :: s.outDraws.filter fun d => decide (d.1 < s.outLen.toNat) := by rfl
@[simp] theorem rollback_draws (s : State) (e : ErrCode) : (s.rollback e).draws = s.draws + 1 := by rfl
@[simp] theorem rollback_host (s : State) (e : ErrCode) : (s.rollback e).host = s.host := by rfl
@[simp] theorem rollback_reads (s : State) (e : ErrCode) : (s.rollback e).reads = s.reads := by rfl
@[simp] theorem rollback_awaiting (s : State) (e : ErrCode) : (s.rollback e).awaiting = s.awaiting := by rfl

/-! ## issue -/

@[simp] theorem issue_caps (s : State) (w : Word) (d : Nat) : (s.issue w d).caps = s.caps := by rfl
@[simp] theorem issue_arg (s : State) (w : Word) (d : Nat) : (s.issue w d).arg = s.arg := by rfl
@[simp] theorem issue_result (s : State) (w : Word) (d : Nat) : (s.issue w d).result = s.result := by rfl
@[simp] theorem issue_pos (s : State) (w : Word) (d : Nat) : (s.issue w d).pos = s.pos := by rfl
@[simp] theorem issue_inLen (s : State) (w : Word) (d : Nat) : (s.issue w d).inLen = s.inLen := by rfl
@[simp] theorem issue_inRp (s : State) (w : Word) (d : Nat) : (s.issue w d).inRp = s.inRp := by rfl
@[simp] theorem issue_outLen (s : State) (w : Word) (d : Nat) : (s.issue w d).outLen = s.outLen := by rfl
@[simp] theorem issue_err (s : State) (w : Word) (d : Nat) : (s.issue w d).err = false := by rfl
@[simp] theorem issue_found (s : State) (w : Word) (d : Nat) : (s.issue w d).found = s.found := by rfl
@[simp] theorem issue_haz (s : State) (w : Word) (d : Nat) : (s.issue w d).haz = s.haz := by rfl
@[simp] theorem issue_errcode (s : State) (w : Word) (d : Nat) : (s.issue w d).errcode = 0 := by rfl
@[simp] theorem issue_bv (s : State) (w : Word) (d : Nat) : (s.issue w d).bv = s.bv := by rfl
@[simp] theorem issue_freq (s : State) (w : Word) (d : Nat) : (s.issue w d).freq = s.freq := by rfl
@[simp] theorem issue_tree (s : State) (w : Word) (d : Nat) : (s.issue w d).tree = s.tree := by rfl
@[simp] theorem issue_pq (s : State) (w : Word) (d : Nat) : (s.issue w d).pq = s.pq := by rfl
@[simp] theorem issue_mem (s : State) (w : Word) (d : Nat) : (s.issue w d).mem = s.mem := by rfl
@[simp] theorem issue_flight (s : State) (w : Word) (d : Nat) : (s.issue w d).flight = some { word := w, delay := d } := by rfl
@[simp] theorem issue_ramDraw (s : State) (w : Word) (d : Nat) : (s.issue w d).ramDraw = s.ramDraw := by rfl
@[simp] theorem issue_outDraws (s : State) (w : Word) (d : Nat) : (s.issue w d).outDraws = s.outDraws := by rfl
@[simp] theorem issue_draws (s : State) (w : Word) (d : Nat) : (s.issue w d).draws = s.draws := by rfl
@[simp] theorem issue_host (s : State) (w : Word) (d : Nat) : (s.issue w d).host = s.host := by rfl
@[simp] theorem issue_reads (s : State) (w : Word) (d : Nat) : (s.issue w d).reads = s.reads := by rfl
@[simp] theorem issue_awaiting (s : State) (w : Word) (d : Nat) : (s.issue w d).awaiting = true := by rfl

/-! ## setHaz -/

@[simp] theorem setHaz_caps (s : State) : s.setHaz.caps = s.caps := by rfl
@[simp] theorem setHaz_arg (s : State) : s.setHaz.arg = s.arg := by rfl
@[simp] theorem setHaz_result (s : State) : s.setHaz.result = s.result := by rfl
@[simp] theorem setHaz_pos (s : State) : s.setHaz.pos = s.pos := by rfl
@[simp] theorem setHaz_inLen (s : State) : s.setHaz.inLen = s.inLen := by rfl
@[simp] theorem setHaz_inRp (s : State) : s.setHaz.inRp = s.inRp := by rfl
@[simp] theorem setHaz_outLen (s : State) : s.setHaz.outLen = s.outLen := by rfl
@[simp] theorem setHaz_err (s : State) : s.setHaz.err = s.err := by rfl
@[simp] theorem setHaz_found (s : State) : s.setHaz.found = s.found := by rfl
@[simp] theorem setHaz_haz (s : State) : s.setHaz.haz = true := by rfl
@[simp] theorem setHaz_errcode (s : State) : s.setHaz.errcode = s.errcode := by rfl
@[simp] theorem setHaz_bv (s : State) : s.setHaz.bv = s.bv := by rfl
@[simp] theorem setHaz_freq (s : State) : s.setHaz.freq = s.freq := by rfl
@[simp] theorem setHaz_tree (s : State) : s.setHaz.tree = s.tree := by rfl
@[simp] theorem setHaz_pq (s : State) : s.setHaz.pq = s.pq := by rfl
@[simp] theorem setHaz_mem (s : State) : s.setHaz.mem = s.mem := by rfl
@[simp] theorem setHaz_flight (s : State) : s.setHaz.flight = s.flight := by rfl
@[simp] theorem setHaz_ramDraw (s : State) : s.setHaz.ramDraw = s.ramDraw := by rfl
@[simp] theorem setHaz_outDraws (s : State) : s.setHaz.outDraws = s.outDraws := by rfl
@[simp] theorem setHaz_draws (s : State) : s.setHaz.draws = s.draws := by rfl
@[simp] theorem setHaz_host (s : State) : s.setHaz.host = s.host := by rfl
@[simp] theorem setHaz_reads (s : State) : s.setHaz.reads = s.reads := by rfl
@[simp] theorem setHaz_awaiting (s : State) : s.setHaz.awaiting = s.awaiting := by rfl

/-! ## hostRead -/

@[simp] theorem hostRead_caps (s : State) (n : Nat) (t : Target) : (s.hostRead n t).caps = s.caps := by rfl
@[simp] theorem hostRead_arg (s : State) (n : Nat) (t : Target) : (s.hostRead n t).arg = s.arg := by rfl
@[simp] theorem hostRead_result (s : State) (n : Nat) (t : Target) : (s.hostRead n t).result = s.result := by rfl
@[simp] theorem hostRead_pos (s : State) (n : Nat) (t : Target) : (s.hostRead n t).pos = s.pos := by rfl
@[simp] theorem hostRead_inLen (s : State) (n : Nat) (t : Target) : (s.hostRead n t).inLen = s.inLen := by rfl
@[simp] theorem hostRead_inRp (s : State) (n : Nat) (t : Target) : (s.hostRead n t).inRp = s.inRp := by rfl
@[simp] theorem hostRead_outLen (s : State) (n : Nat) (t : Target) : (s.hostRead n t).outLen = s.outLen := by rfl
@[simp] theorem hostRead_err (s : State) (n : Nat) (t : Target) : (s.hostRead n t).err = s.err := by rfl
@[simp] theorem hostRead_found (s : State) (n : Nat) (t : Target) : (s.hostRead n t).found = s.found := by rfl
@[simp] theorem hostRead_haz (s : State) (n : Nat) (t : Target) : (s.hostRead n t).haz = s.haz := by rfl
@[simp] theorem hostRead_errcode (s : State) (n : Nat) (t : Target) : (s.hostRead n t).errcode = s.errcode := by rfl
@[simp] theorem hostRead_bv (s : State) (n : Nat) (t : Target) : (s.hostRead n t).bv = s.bv := by rfl
@[simp] theorem hostRead_freq (s : State) (n : Nat) (t : Target) : (s.hostRead n t).freq = s.freq := by rfl
@[simp] theorem hostRead_tree (s : State) (n : Nat) (t : Target) : (s.hostRead n t).tree = s.tree := by rfl
@[simp] theorem hostRead_pq (s : State) (n : Nat) (t : Target) : (s.hostRead n t).pq = s.pq := by rfl
@[simp] theorem hostRead_mem (s : State) (n : Nat) (t : Target) : (s.hostRead n t).mem = s.mem := by rfl
@[simp] theorem hostRead_flight (s : State) (n : Nat) (t : Target) : (s.hostRead n t).flight = s.flight := by rfl
@[simp] theorem hostRead_ramDraw (s : State) (n : Nat) (t : Target) : (s.hostRead n t).ramDraw = s.ramDraw := by rfl
@[simp] theorem hostRead_outDraws (s : State) (n : Nat) (t : Target) : (s.hostRead n t).outDraws = s.outDraws := by rfl
@[simp] theorem hostRead_draws (s : State) (n : Nat) (t : Target) : (s.hostRead n t).draws = if s.busy then s.draws + 1 else s.draws := by rfl
@[simp] theorem hostRead_host (s : State) (n : Nat) (t : Target) : (s.hostRead n t).host = s.host := by rfl
@[simp] theorem hostRead_reads (s : State) (n : Nat) (t : Target) : (s.hostRead n t).reads = s.readTarget n t :: s.reads := by rfl
@[simp] theorem hostRead_awaiting (s : State) (n : Nat) (t : Target) : (s.hostRead n t).awaiting = (s.awaiting && !(s.showsIdle t)) := by rfl

/-! ## softReset -/

@[simp] theorem softReset_caps (s : State) : s.softReset.caps = s.caps := by rfl
@[simp] theorem softReset_arg (s : State) : s.softReset.arg = 0 := by rfl
@[simp] theorem softReset_result (s : State) : s.softReset.result = 0 := by rfl
@[simp] theorem softReset_pos (s : State) : s.softReset.pos = 0 := by rfl
@[simp] theorem softReset_inLen (s : State) : s.softReset.inLen = 0 := by rfl
@[simp] theorem softReset_inRp (s : State) : s.softReset.inRp = 0 := by rfl
@[simp] theorem softReset_outLen (s : State) : s.softReset.outLen = 0 := by rfl
@[simp] theorem softReset_err (s : State) : s.softReset.err = false := by rfl
@[simp] theorem softReset_found (s : State) : s.softReset.found = false := by rfl
@[simp] theorem softReset_haz (s : State) : s.softReset.haz = false := by rfl
@[simp] theorem softReset_errcode (s : State) : s.softReset.errcode = 0 := by rfl
@[simp] theorem softReset_bv (s : State) : s.softReset.bv = [] := by rfl
@[simp] theorem softReset_freq (s : State) : s.softReset.freq = Vector.replicate 256 0 := by rfl
@[simp] theorem softReset_tree (s : State) : s.softReset.tree = none := by rfl
@[simp] theorem softReset_pq (s : State) : s.softReset.pq = [] := by rfl
@[simp] theorem softReset_mem (s : State) : s.softReset.mem = [] := by rfl
@[simp] theorem softReset_flight (s : State) : s.softReset.flight = none := by rfl
@[simp] theorem softReset_ramDraw (s : State) : s.softReset.ramDraw = s.draws := by rfl
@[simp] theorem softReset_outDraws (s : State) : s.softReset.outDraws = [] := by rfl
@[simp] theorem softReset_draws (s : State) : s.softReset.draws = s.draws + 1 := by rfl
@[simp] theorem softReset_host (s : State) : s.softReset.host = s.host := by rfl
@[simp] theorem softReset_reads (s : State) : s.softReset.reads = s.reads := by rfl
@[simp] theorem softReset_awaiting (s : State) : s.softReset.awaiting = s.awaiting := by rfl

/-! ## FREQ -/

/-- FREQ[sym] of a cleared frequency file (R132, R51). -/
theorem freqOf_clear {s : State} (h : s.freq = Vector.replicate 256 0) (sym : Byte) : s.freqOf sym = 0 := by
  rw [freqOf, h, Vector.getElem?_replicate]
  split <;> rfl

/-- FREQ[sym] is the register with that number. -/
theorem freqOf_eq (s : State) (sym : Byte) : s.freqOf sym = s.freq[sym.toNat]'sym.isLt := by
  rw [freqOf, Vector.getElem?_eq_getElem (h := sym.isLt), Option.getD_some]

end Sys2Proof.Machine.State
end

