-- ==== Sys2Proof/Laws/Memory.lean ====
section
/-! SUPPORT. The window RAM: a read after a write, what a write leaves alone, and that every operation keeps the canonical
form. -/

namespace Sys2Proof.Machine

@[simp] theorem Memory.get_nil (k : Nat) : Memory.get [] k = none := rfl

theorem Memory.get_eq_none_of_lt {m : Memory} {k : Nat} (h : ∀ c ∈ m, k < c.1) : Memory.get m k = none := by
  induction m with
  | nil => rfl
  | cons c m ih =>
    obtain ⟨a, b⟩ := c
    have ha : k < a := h (a, b) List.mem_cons_self
    simp only [Memory.get]
    rw [if_neg (by omega)]
    exact ih fun c hc => h c (List.mem_cons_of_mem _ hc)

/-- A read after a write: the written byte at the written address, the old one everywhere else. -/
theorem Memory.get_set (m : Memory) (k : Nat) (v : Byte) (j : Nat) :
    (Memory.set m k v).get j = if j = k then some v else m.get j := by
  induction m with
  | nil =>
    simp only [Memory.set, Memory.get, eq_comm (a := k)]
  | cons c m ih =>
    obtain ⟨a, b⟩ := c
    simp only [Memory.set]
    split
    · by_cases h : j = k
      · simp [Memory.get, h]
      · simp [Memory.get, h, Ne.symm h]
    · split
      · rename_i _ h2
        subst h2
        simp only [Memory.get, eq_comm (a := k)]
        split <;> rfl
      · simp only [Memory.get, ih]
        by_cases h : j = k
        · subst h
          rw [if_neg (by omega), if_pos rfl]
          simp
        · simp [h]

theorem Memory.mem_set {m : Memory} {k : Nat} {v : Byte} {c : Host.Cell} (h : c ∈ Memory.set m k v) :
    c = (k, v) ∨ c ∈ m := by
  induction m with
  | nil => simpa [Memory.set] using h
  | cons d m ih =>
    obtain ⟨a, b⟩ := d
    simp only [Memory.set] at h
    split at h
    · simpa using h
    · split at h
      · rcases List.mem_cons.mp h with h | h
        · exact .inl h
        · exact .inr (List.mem_cons_of_mem _ h)
      · rcases List.mem_cons.mp h with h | h
        · exact .inr (by simp [h])
        · rcases ih h with h | h
          · exact .inl h
          · exact .inr (List.mem_cons_of_mem _ h)

/-- A write keeps the canonical form. -/
theorem Memory.wf_set {m : Memory} (k : Nat) (v : Byte) (hm : Memory.wf m) : Memory.wf (Memory.set m k v) := by
  induction m with
  | nil => simp [Memory.set, Memory.wf]
  | cons d m ih =>
    obtain ⟨a, b⟩ := d
    have hm' := List.pairwise_cons.mp hm
    simp only [Memory.set]
    split
    · rename_i h
      refine List.pairwise_cons.mpr ⟨fun c hc => ?_, hm⟩
      rcases List.mem_cons.mp hc with rfl | hc
      · exact h
      · exact lt_trans h (hm'.1 c hc)
    · split
      · rename_i h
        subst h
        exact List.pairwise_cons.mpr ⟨hm'.1, hm'.2⟩
      · refine List.pairwise_cons.mpr ⟨fun c hc => ?_, ih hm'.2⟩
        rcases Memory.mem_set hc with rfl | hc
        · show a < k
          omega
        · exact hm'.1 c hc

theorem Memory.wf_setList {m : Memory} (k : Nat) (bs : List Byte) (hm : Memory.wf m) :
    Memory.wf (Memory.setList m k bs) := by
  induction bs generalizing m k with
  | nil => exact hm
  | cons b bs ih => exact ih (k + 1) (Memory.wf_set k b hm)

theorem Memory.wf_keepBelow {m : Memory} (k : Nat) (hm : Memory.wf m) : Memory.wf (m.keepBelow k) :=
  List.Pairwise.filter _ hm

/-- A read after a list of bytes was written at k, k + 1, ... -/
theorem Memory.get_setList (m : Memory) (k : Nat) (bs : List Byte) (j : Nat) :
    (Memory.setList m k bs).get j = if k ≤ j ∧ j < k + bs.length then bs[j - k]? else m.get j := by
  induction bs generalizing m k with
  | nil =>
    simp only [Memory.setList, List.length_nil]
    rw [if_neg (by omega)]
  | cons b bs ih =>
    simp only [Memory.setList, ih, List.length_cons, Memory.get_set]
    by_cases h : j = k
    · subst h
      rw [if_neg (by omega), if_pos rfl, if_pos (by omega)]
      simp
    · by_cases h1 : k + 1 ≤ j ∧ j < k + 1 + bs.length
      · rw [if_pos h1, if_pos (by omega)]
        have : j - k = (j - (k + 1)) + 1 := by omega
        rw [this, List.getElem?_cons_succ]
      · rw [if_neg h1, if_neg h, if_neg (by omega)]

theorem Memory.mem_setList {m : Memory} {k : Nat} {bs : List Byte} {c : Host.Cell} (h : c ∈ Memory.setList m k bs) :
    (k ≤ c.1 ∧ c.1 < k + bs.length) ∨ c ∈ m := by
  induction bs generalizing m k with
  | nil => exact .inr h
  | cons b bs ih =>
    simp only [Memory.setList] at h
    rcases ih h with h | h
    · left
      simp only [List.length_cons]
      omega
    · rcases Memory.mem_set h with rfl | h
      · left
        simp
      · exact .inr h

/-- Forgetting the bytes from k up leaves every byte below k alone. -/
theorem Memory.get_keepBelow (m : Memory) (k j : Nat) : (m.keepBelow k).get j = if j < k then Memory.get m j else none := by
  induction m with
  | nil => simp [Memory.keepBelow]
  | cons c m ih =>
    obtain ⟨a, b⟩ := c
    have ih' : Memory.get (List.filter (fun c => decide (c.1 < k)) m) j = if j < k then Memory.get m j else none := ih
    simp only [Memory.keepBelow, List.filter_cons, decide_eq_true_eq]
    by_cases ha : a < k
    · rw [if_pos ha]
      simp only [Memory.get, ih']
      by_cases h : a = j
      · subst h
        simp [ha]
      · simp [h]
    · rw [if_neg ha, ih']
      by_cases hj : j < k
      · have : a ≠ j := by omega
        simp [hj, Memory.get, this]
      · simp [hj]

/-- The canonical form is canonical: two such memories that hold the same byte, or none, at every address are equal. -/
theorem Memory.eq_of_get_eq {m n : Memory} (hm : Memory.wf m) (hn : Memory.wf n) (h : ∀ k, m.get k = n.get k) : m = n := by
  induction m generalizing n with
  | nil =>
    cases n with
    | nil => rfl
    | cons d n =>
      have := h d.1
      simp [Memory.get] at this
  | cons c m ih =>
    obtain ⟨a, b⟩ := c
    cases n with
    | nil =>
      have := h a
      simp [Memory.get] at this
    | cons d n =>
      obtain ⟨a', b'⟩ := d
      have hm' := List.pairwise_cons.mp hm
      have hn' := List.pairwise_cons.mp hn
      have haa : a = a' := by
        by_contra hne
        rcases Nat.lt_or_gt_of_ne hne with hlt | hlt
        · have e := h a
          rw [Memory.get_eq_none_of_lt (m := (a', b') :: n)] at e
          · simp [Memory.get] at e
          · intro c hc
            rcases List.mem_cons.mp hc with rfl | hc
            · exact hlt
            · exact lt_trans hlt (hn'.1 c hc)
        · have e := (h a').symm
          rw [Memory.get_eq_none_of_lt (m := (a, b) :: m)] at e
          · simp [Memory.get] at e
          · intro c hc
            rcases List.mem_cons.mp hc with rfl | hc
            · exact hlt
            · exact lt_trans hlt (hm'.1 c hc)
      subst haa
      have hb : b = b' := by simpa [Memory.get] using h a
      subst hb
      have : m = n := by
        refine ih hm'.2 hn'.2 fun k => ?_
        by_cases hk : a = k
        · subst hk
          rw [Memory.get_eq_none_of_lt hm'.1, Memory.get_eq_none_of_lt hn'.1]
        · simpa [Memory.get, hk] using h k
      rw [this]

/-! ## Window bytes -/

/-- A window byte depends on the RAM and on the draws only. -/
theorem State.ramByte_congr {s t : State} (hm : t.mem = s.mem) (hd : t.outDraws = s.outDraws)
    (hr : t.ramDraw = s.ramDraw) (a : Nat) : t.ramByte a = s.ramByte a := by
  simp [State.ramByte, State.drawOf, hm, hd, hr]

/-- A roll back leaves every byte below OUT[OUT_LEN] as it read before. -/
theorem State.ramByte_rollback_below (s : State) (e : ErrCode) {a : Nat}
    (h : a < Config.outBase + s.outLen.toNat) : (s.rollback e).ramByte a = s.ramByte a := by
  have hd : (s.rollback e).drawOf a = s.drawOf a := by
    simp only [State.drawOf, State.rollback_outDraws, State.rollback_ramDraw]
    rw [List.find?_cons_of_neg (by simp; omega)]
    have : ∀ l : List (Nat × Nat),
        (l.filter fun d => decide (d.1 < s.outLen.toNat)).find? (fun d => decide (Config.outBase + d.1 ≤ a)) =
          l.find? (fun d => decide (Config.outBase + d.1 ≤ a)) := by
      intro l
      induction l with
      | nil => rfl
      | cons d l ih =>
        rw [List.filter_cons]
        by_cases hd : d.1 < s.outLen.toNat
        · rw [if_pos (by simpa using hd), List.find?_cons, List.find?_cons, ih]
        · rw [if_neg (by simpa using hd), ih, List.find?_cons_of_neg (by simp; omega)]
    rw [this]
  simp only [State.ramByte, State.rollback_mem, Memory.get_keepBelow, if_pos h, hd]

/-- A roll back draws every byte from OUT[OUT_LEN] up afresh. -/
theorem State.ramByte_rollback_above (s : State) (e : ErrCode) {a : Nat}
    (h : Config.outBase + s.outLen.toNat ≤ a) : (s.rollback e).ramByte a = Config.freeByte s.draws a := by
  simp only [State.ramByte, State.rollback_mem, Memory.get_keepBelow, if_neg (Nat.not_lt.mpr h), State.drawOf,
    State.rollback_outDraws]
  rw [List.find?_cons_of_pos (by simpa using h)]

/-- The IN window is below every OUT byte, so a roll back leaves it alone. -/
theorem State.inByte_rollback (s : State) (e : ErrCode) (hc : s.caps.inBytes ≤ 65536) (i : Nat) :
    (s.rollback e).inByte i = s.inByte i := by
  simp only [State.inByte, State.rollback_caps]
  by_cases h : i < s.caps.inBytes
  · rw [if_pos h, if_pos h]
    refine s.ramByte_rollback_below e ?_
    simp only [Config.inBase, Config.outBase]
    omega
  · rw [if_neg h, if_neg h]

/-- Window bytes after a list of bytes was stored. -/
theorem State.ramByte_setList {s t : State} {k : Nat} {bs : List Byte}
    (hm : t.mem = s.mem.setList k bs) (hd : t.outDraws = s.outDraws) (hr : t.ramDraw = s.ramDraw) (a : Nat) :
    t.ramByte a = if h : k ≤ a ∧ a - k < bs.length then bs[a - k]'h.2 else s.ramByte a := by
  simp only [State.ramByte, hm, Memory.get_setList, State.drawOf, hd, hr]
  by_cases h : k ≤ a ∧ a < k + bs.length
  · have h' : a - k < bs.length := by omega
    simp [h, h']
  · rw [if_neg h]
    have : ¬ (k ≤ a ∧ a - k < bs.length) := by omega
    simp [this]

end Sys2Proof.Machine
end

