-- ==== Sys2Proof/Laws/Queue.lean ====
section
/-! SUPPORT. The queue primitives: what `popmin` takes and leaves, and what every round of BUILD's loop keeps. -/

namespace Sys2Proof.Machine

@[simp] theorem totalNodes_nil : totalNodes [] = 0 := rfl

@[simp] theorem totalNodes_cons (t : Tree) (q : List Tree) : totalNodes (t :: q) = t.nodes + totalNodes q := by
  simp [totalNodes]

@[simp] theorem totalNodes_append (p q : List Tree) : totalNodes (p ++ q) = totalNodes p + totalNodes q := by
  simp [totalNodes]

/-- The exact sum of the weights of a queue. -/
def totalWeight (q : List Tree) : Nat := (q.map fun t => t.weight.toNat).sum

@[simp] theorem totalWeight_nil : totalWeight [] = 0 := rfl

@[simp] theorem totalWeight_cons (t : Tree) (q : List Tree) :
    totalWeight (t :: q) = t.weight.toNat + totalWeight q := by simp [totalWeight]

@[simp] theorem totalWeight_append (p q : List Tree) : totalWeight (p ++ q) = totalWeight p + totalWeight q := by
  simp [totalWeight]

theorem foldl_min_le (q : List Tree) (m : Nat) :
    q.foldl (fun m u => min m u.weight.toNat) m ≤ m ∧ ∀ u ∈ q, q.foldl (fun m u => min m u.weight.toNat) m ≤ u.weight.toNat := by
  induction q generalizing m with
  | nil => simp
  | cons t q ih =>
    simp only [List.foldl_cons, List.mem_cons]
    have := ih (min m t.weight.toNat)
    refine ⟨by omega, ?_⟩
    rintro u (rfl | hu)
    · omega
    · exact this.2 u hu

theorem foldl_min_mem (q : List Tree) (m : Nat) :
    q.foldl (fun m u => min m u.weight.toNat) m = m ∨
      ∃ u ∈ q, q.foldl (fun m u => min m u.weight.toNat) m = u.weight.toNat := by
  induction q generalizing m with
  | nil => simp
  | cons t q ih =>
    simp only [List.foldl_cons]
    rcases ih (min m t.weight.toNat) with h | ⟨u, hu, h⟩
    · rcases Nat.le_total m t.weight.toNat with hle | hle
      · left
        rw [h]
        omega
      · right
        exact ⟨t, List.mem_cons_self, by rw [h]; omega⟩
    · right
      exact ⟨u, List.mem_cons_of_mem _ hu, h⟩

/-- Every weight of the queue is at least the least weight, and some entry has it. -/
theorem leastWeight_spec (t : Tree) (q : List Tree) :
    (∀ u ∈ t :: q, leastWeight t q ≤ u.weight.toNat) ∧ ∃ u ∈ t :: q, u.weight.toNat = leastWeight t q := by
  have h := foldl_min_le q t.weight.toNat
  refine ⟨?_, ?_⟩
  · intro u hu
    rcases List.mem_cons.mp hu with rfl | hu
    · exact h.1
    · exact h.2 u hu
  · rcases foldl_min_mem q t.weight.toNat with e | ⟨u, hu, e⟩
    · exact ⟨t, List.mem_cons_self, e.symm⟩
    · exact ⟨u, List.mem_cons_of_mem _ hu, e.symm⟩

/-- `removeFirst` splits the queue around the earliest entry of weight m. -/
theorem removeFirst_some {m : Nat} {q rest : List Tree} {t : Tree} (h : removeFirst m q = some (t, rest)) :
    ∃ pre post, q = pre ++ t :: post ∧ rest = pre ++ post ∧ t.weight.toNat = m ∧ ∀ u ∈ pre, u.weight.toNat ≠ m := by
  induction q generalizing rest with
  | nil => simp [removeFirst] at h
  | cons a q ih =>
    simp only [removeFirst] at h
    split at h
    · rename_i hm
      obtain ⟨rfl, rfl⟩ := by simpa using h
      exact ⟨[], q, rfl, rfl, hm, by simp⟩
    · rename_i hm
      split at h
      · rename_i u r hr
        obtain ⟨rfl, rfl⟩ := by simpa using h
        obtain ⟨pre, post, rfl, rfl, hw, hne⟩ := ih hr
        refine ⟨a :: pre, post, rfl, rfl, hw, ?_⟩
        intro v hv
        rcases List.mem_cons.mp hv with rfl | hv
        · exact hm
        · exact hne v hv
      · simp at h

theorem removeFirst_none {m : Nat} {q : List Tree} (h : removeFirst m q = none) : ∀ u ∈ q, u.weight.toNat ≠ m := by
  induction q with
  | nil => simp
  | cons a q ih =>
    simp only [removeFirst] at h
    split at h
    · simp at h
    · rename_i hm
      split at h
      · simp at h
      · rename_i hr
        intro v hv
        rcases List.mem_cons.mp hv with rfl | hv
        · exact hm
        · exact ih hr v hv

/-- What `popmin` takes and leaves: the earliest pushed among the lightest, the others in their order. -/
theorem popmin_some {q rest : List Tree} {t : Tree} (h : popmin q = some (t, rest)) :
    ∃ pre post, q = pre ++ t :: post ∧ rest = pre ++ post ∧
      (∀ u ∈ pre, t.weight.toNat < u.weight.toNat) ∧ ∀ u ∈ post, t.weight.toNat ≤ u.weight.toNat := by
  cases q with
  | nil => simp [popmin] at h
  | cons a q =>
    simp only [popmin] at h
    obtain ⟨pre, post, hq, hr, hw, hne⟩ := removeFirst_some h
    have hl := (leastWeight_spec a q).1
    refine ⟨pre, post, hq, hr, ?_, ?_⟩
    · intro u hu
      have h1 := hl u (by rw [hq]; simp [hu])
      have h2 := hne u hu
      omega
    · intro u hu
      have h1 := hl u (by rw [hq]; simp [hu])
      omega

theorem popmin_eq_none {q : List Tree} : popmin q = none ↔ q = [] := by
  cases q with
  | nil => simp [popmin]
  | cons a q =>
    simp only [popmin, reduceCtorEq, iff_false]
    intro h
    obtain ⟨u, hu, e⟩ := (leastWeight_spec a q).2
    exact removeFirst_none h u hu e

theorem popmin_length {q rest : List Tree} {t : Tree} (h : popmin q = some (t, rest)) :
    q.length = rest.length + 1 := by
  obtain ⟨pre, post, rfl, rfl, -⟩ := popmin_some h
  simp
  omega

/-- `popmin` permutes the queue. -/
theorem popmin_perm {q rest : List Tree} {t : Tree} (h : popmin q = some (t, rest)) : q.Perm (t :: rest) := by
  obtain ⟨pre, post, rfl, rfl, -⟩ := popmin_some h
  exact List.perm_middle

theorem totalNodes_perm {p q : List Tree} (h : p.Perm q) : totalNodes p = totalNodes q :=
  (h.map Tree.nodes).sum_eq

theorem totalWeight_perm {p q : List Tree} (h : p.Perm q) : totalWeight p = totalWeight q :=
  (h.map fun t : Tree => t.weight.toNat).sum_eq

theorem popTwo_some {q rest : List Tree} {a b : Tree} :
    popTwo q = some (a, b, rest) ↔ ∃ q', popmin q = some (a, q') ∧ popmin q' = some (b, rest) := by
  unfold popTwo
  constructor
  · intro h
    split at h
    · simp at h
    · rename_i c q' hc
      split at h
      · simp at h
      · rename_i d r hd
        obtain ⟨rfl, rfl, rfl⟩ := by simpa using h
        exact ⟨q', hc, hd⟩
  · rintro ⟨q', h1, h2⟩
    simp [h1, h2]

theorem popTwo_perm {q rest : List Tree} {a b : Tree} (h : popTwo q = some (a, b, rest)) :
    q.Perm (a :: b :: rest) := by
  obtain ⟨q', h1, h2⟩ := popTwo_some.mp h
  exact (popmin_perm h1).trans ((popmin_perm h2).cons a)

theorem popTwo_eq_none {q : List Tree} : popTwo q = none ↔ q.length < 2 := by
  constructor
  · intro h
    unfold popTwo at h
    split at h
    · rename_i hc
      rw [popmin_eq_none.mp hc]
      decide
    · rename_i c q' hc
      split at h
      · rename_i hd
        have := popmin_length hc
        rw [popmin_eq_none.mp hd] at this
        simp at this
        omega
      · simp at h
  · intro h
    by_contra hne
    obtain ⟨⟨a, b, rest⟩, e⟩ := Option.ne_none_iff_exists'.mp hne
    have := (popTwo_perm e).length_eq
    simp at this
    omega

/-- One round of BUILD's loop keeps a property of queues, so the loop does. -/
theorem mergeAll_induct {P : List Tree → Prop}
    (hstep : ∀ q a b rest, P q → popTwo q = some (a, b, rest) → P (push rest (combine a b))) :
    ∀ (fuel : Nat) (q : List Tree), P q → P (mergeAll fuel q) := by
  intro fuel
  induction fuel with
  | zero => exact fun q h => h
  | succ fuel ih =>
    intro q h
    simp only [mergeAll]
    split
    · exact h
    · rename_i a b rest e
      exact ih _ (hstep q a b rest h e)

/-- With enough fuel the loop ends with one tree, or with none if it began with none. -/
theorem mergeAll_length (fuel : Nat) (q : List Tree) (h : q.length ≤ fuel + 1) :
    (mergeAll fuel q).length = min 1 q.length := by
  induction fuel generalizing q with
  | zero =>
    simp only [mergeAll]
    omega
  | succ fuel ih =>
    simp only [mergeAll]
    split
    · rename_i e
      have := popTwo_eq_none.mp e
      omega
    · rename_i a b rest e
      have hl := (popTwo_perm e).length_eq
      simp only [List.length_cons] at hl
      rw [ih _ (by simp [push]; omega)]
      simp only [push, List.length_append, List.length_cons, List.length_nil]
      omega

/-- Merging k trees adds k - 1 nodes. -/
theorem mergeAll_nodes (fuel : Nat) (q : List Tree) :
    totalNodes (mergeAll fuel q) + (mergeAll fuel q).length = totalNodes q + q.length := by
  refine mergeAll_induct (P := fun r => totalNodes r + r.length = totalNodes q + q.length) ?_ fuel q rfl
  intro r a b rest h e
  have hn := totalNodes_perm (popTwo_perm e)
  have hl := (popTwo_perm e).length_eq
  simp only [totalNodes_cons, List.length_cons] at hn hl
  simp only [push, totalNodes_append, totalNodes_cons, totalNodes_nil, List.length_append, List.length_cons,
    List.length_nil, combine, Tree.nodes]
  omega

/-- The sum of two queued weights is exact when the whole queue's weight fits 64 bits. -/
theorem combine_weight {a b : Tree} (h : a.weight.toNat + b.weight.toNat < 2 ^ 64) :
    (combine a b).weight.toNat = a.weight.toNat + b.weight.toNat := by
  simp only [combine, Tree.weight, BitVec.toNat_add]
  exact Nat.mod_eq_of_lt h

/-- The loop keeps the total weight, when it fits 64 bits, and builds trees whose weights are exact sums. -/
theorem mergeAll_weights (fuel : Nat) (q : List Tree) (hw : totalWeight q < 2 ^ 64) (hs : ∀ t ∈ q, t.sumWeights) :
    totalWeight (mergeAll fuel q) = totalWeight q ∧ ∀ t ∈ mergeAll fuel q, t.sumWeights := by
  refine mergeAll_induct (P := fun r => totalWeight r = totalWeight q ∧ ∀ t ∈ r, t.sumWeights) ?_ fuel q ⟨rfl, hs⟩
  rintro r a b rest ⟨h, hs⟩ e
  have hp := popTwo_perm e
  have hn := totalWeight_perm hp
  simp only [totalWeight_cons] at hn
  have hc := combine_weight (a := a) (b := b) (by omega)
  refine ⟨?_, ?_⟩
  · simp only [push, totalWeight_append, totalWeight_cons, totalWeight_nil, hc]
    omega
  · intro t ht
    rcases List.mem_append.mp ht with ht | ht
    · exact hs t (hp.symm.subset (by simp [ht]))
    · obtain rfl := by simpa using ht
      exact ⟨hc, hs a (hp.symm.subset (by simp)), hs b (hp.symm.subset (by simp))⟩

/-- The loop only regroups the leaves. -/
theorem mergeAll_leaves (fuel : Nat) (q : List Tree) :
    ((mergeAll fuel q).flatMap Tree.leaves).Perm (q.flatMap Tree.leaves) := by
  refine mergeAll_induct (P := fun r => (r.flatMap Tree.leaves).Perm (q.flatMap Tree.leaves)) ?_ fuel q (.refl _)
  intro r a b rest h e
  refine List.Perm.trans ?_ h
  have hp := (popTwo_perm e).flatMap_right Tree.leaves
  refine List.Perm.trans ?_ hp.symm
  simp only [push, List.flatMap_append, List.flatMap_cons, List.flatMap_nil, List.append_nil, combine, Tree.leaves]
  rw [← List.append_assoc a.leaves]
  exact List.perm_append_comm

end Sys2Proof.Machine
end

