-- ==== Sys2Proof/Laws/Formats.lean ====
section
/-! SUPPORT. The serialized formats: sizes, little-endian integers, packed bits, what the parser can answer, and that it reads
back what the serializer wrote. -/

namespace Sys2Proof.Machine

/-! ## Integers -/

@[simp] theorem le64_length (v : Word) : (le64 v).length = 8 := by simp [le64]

theorem readLE_congr {f g : Nat → Byte} {a n : Nat} (h : ∀ k < n, f (a + k) = g (a + k)) :
    readLE f a n = readLE g a n := by
  induction n generalizing a with
  | zero => rfl
  | succ n ih =>
    simp only [readLE]
    have h0 := h 0 (by omega)
    rw [Nat.add_zero] at h0
    rw [h0, ih]
    intro k hk
    have := h (k + 1) (by omega)
    rwa [show a + 1 + k = a + (k + 1) by omega]

/-- The little-endian value of the low n bytes of v is v modulo 2^(8n). -/
theorem readLE_bytes (v : Word) (f : Nat → Byte) (a n : Nat)
    (h : ∀ k < n, f (a + k) = v.extractLsb' (8 * k) 8) : readLE f a n = v.toNat % 256 ^ n := by
  suffices H : ∀ (n j a : Nat), (∀ k < n, f (a + k) = v.extractLsb' (8 * (j + k)) 8) →
      readLE f a n = v.toNat / 256 ^ j % 256 ^ n by
    have := H n 0 a (by simpa using h)
    simpa using this
  intro n
  induction n with
  | zero =>
    intro j a _
    simp [readLE, Nat.mod_one]
  | succ n ih =>
    intro j a h
    simp only [readLE]
    have h0 := h 0 (by omega)
    rw [ih (j + 1) (a + 1)]
    · rw [Nat.add_zero] at h0
      rw [h0, BitVec.extractLsb'_toNat, Nat.shiftRight_eq_div_pow]
      have e1 : 2 ^ (8 * (j + 0)) = 256 ^ j := by rw [Nat.add_zero, Nat.pow_mul]
      have e2 : (2 : Nat) ^ 8 = 256 := by norm_num
      rw [e1, e2, Nat.pow_succ 256 j, ← Nat.div_div_eq_div_mul, Nat.pow_succ 256 n, Nat.mul_comm (256 ^ n) 256,
        Nat.mod_mul]
    · intro k hk
      have := h (k + 1) (by omega)
      rw [show a + 1 + k = a + (k + 1) by omega, this]
      congr 2
      omega

theorem readLE_lt (f : Nat → Byte) (a n : Nat) : readLE f a n < 256 ^ n := by
  induction n generalizing a with
  | zero => simp [readLE]
  | succ n ih =>
    have h1 := (f a).isLt
    have h2 := ih (a + 1)
    simp only [readLE, Nat.pow_succ]
    omega

/-- `readle64` is the inverse of `le64` (R9). -/
theorem readLE64_le64 (v : Word) (f : Nat → Byte) (a : Nat) (h : ∀ k (hk : k < 8), f (a + k) = (le64 v)[k]'(by simpa)) :
    readLE64 f a = v := by
  have : readLE f a 8 = v.toNat % 256 ^ 8 := readLE_bytes v f a 8 fun k hk => by simpa [le64] using h k hk
  unfold readLE64
  rw [this]
  apply BitVec.eq_of_toNat_eq
  have := v.isLt
  simp
  omega

/-! ## Sizes -/

/-- Byte k of a little-endian value is the byte at position a + k (R73). -/
theorem readLE_byte (f : Nat → Byte) (a n k : Nat) (hk : k < n) : readLE f a n / 256 ^ k % 256 = (f (a + k)).toNat := by
  induction k generalizing a n with
  | zero =>
    obtain ⟨n, rfl⟩ : ∃ m, n = m + 1 := ⟨n - 1, by omega⟩
    have := (f a).isLt
    simp only [readLE, Nat.pow_zero, Nat.div_one, Nat.add_zero]
    omega
  | succ k ih =>
    obtain ⟨n, rfl⟩ : ∃ m, n = m + 1 := ⟨n - 1, by omega⟩
    have := (f a).isLt
    rw [readLE, Nat.pow_succ', ← Nat.div_div_eq_div_mul,
      show ((f a).toNat + 256 * readLE f (a + 1) n) / 256 = readLE f (a + 1) n by omega, ih (a + 1) n (by omega),
      show a + 1 + k = a + (k + 1) by omega]

/-- The bytes of the weight read at a position are the bytes standing there (R9). -/
theorem le64_readLE64 (f : Nat → Byte) (a k : Nat) (hk : k < 8) : (le64 (readLE64 f a))[k]'(by simpa) = f (a + k) := by
  apply BitVec.eq_of_toNat_eq
  simp only [le64, readLE64, List.getElem_map, List.getElem_range, BitVec.extractLsb'_toNat, BitVec.toNat_ofNat,
    Nat.shiftRight_eq_div_pow]
  rw [Nat.mod_eq_of_lt (show readLE f a 8 < 2 ^ 64 from readLE_lt f a 8), Nat.pow_mul]
  exact readLE_byte f a 8 k hk

theorem shapeBody_length (t : Tree) : (shapeBody t).length = 3 * t.nodes := by
  induction t with
  | leaf s w => rfl
  | node w l r ihl ihr =>
    simp only [shapeBody, List.length_append, List.length_cons, List.length_nil, ihl, ihr, Tree.nodes]
    omega

theorem fullBody_length (t : Tree) : (fullBody t).length = 14 * t.nodes := by
  induction t with
  | leaf s w => simp [fullBody, Tree.nodes]
  | node w l r ihl ihr =>
    simp only [fullBody, List.length_append, List.length_cons, List.length_nil, ihl, ihr, Tree.nodes, le64_length]
    omega

@[simp] theorem Tree.zeroed_nodes (t : Tree) : t.zeroed.nodes = t.nodes := by
  induction t with
  | leaf s w => rfl
  | node w l r ihl ihr => simp [Tree.zeroed, Tree.nodes, ihl, ihr]

/-- Weights play no part in codes. -/
@[simp] theorem Tree.zeroed_code (t : Tree) (s : Byte) : t.zeroed.code s = t.code s := by
  induction t with
  | leaf s w => rfl
  | node w l r ihl ihr => simp [Tree.zeroed, Tree.code, ihl, ihr]

theorem Tree.nodes_pos (t : Tree) : 0 < t.nodes := by
  cases t <;> simp [Tree.nodes]

/-! ## Packed bits -/

@[simp] theorem pack_length (b : List Bool) : (pack b).length = (b.length + 7) / 8 := by simp [pack]

theorem testBit_ofNat_bits (f : Nat → Bool) :
    ∀ n i, i < n →
      Nat.testBit (((List.range n).map fun k => flagBit (f k) * 2 ^ k).sum) i = f i := by
  intro n
  induction n with
  | zero => intro i hi; omega
  | succ n ih =>
    intro i hi
    have hlt : ∀ m, ((List.range m).map fun k => flagBit (f k) * 2 ^ k).sum < 2 ^ m := by
      intro m
      induction m with
      | zero => simp
      | succ m ih =>
        rw [List.range_succ, List.map_append, List.sum_append, Nat.pow_succ]
        have : flagBit (f m) ≤ 1 := by unfold flagBit; split <;> omega
        have : flagBit (f m) * 2 ^ m ≤ 1 * 2 ^ m := Nat.mul_le_mul_right _ this
        simp
        omega
    rw [List.range_succ, List.map_append, List.sum_append]
    simp only [List.map_cons, List.map_nil, List.sum_cons, List.sum_nil, Nat.add_zero]
    rw [Nat.add_comm, Nat.mul_comm, Nat.testBit_two_pow_mul_add _ (hlt n)]
    by_cases h : i < n
    · rw [if_pos h, ih i h]
    · have : i = n := by omega
      subst this
      rw [if_neg h, Nat.sub_self]
      unfold flagBit
      cases f i <;> simp

/-- Bit k of packed byte j is bit 8j + k of the sequence, or the padding bit 0. -/
theorem packedByte_bit (b : List Bool) (j k : Nat) (hk : k < 8) :
    (packedByte b j).getLsbD k = b.getD (8 * j + k) false := by
  unfold packedByte
  rw [BitVec.getLsbD_ofNat]
  simp only [hk, decide_true, Bool.true_and]
  exact testBit_ofNat_bits (fun k => b.getD (8 * j + k) false) 8 k hk

/-! ## The walk -/

/-- The code of a symbol leads the walk to it, whatever bits follow (R164). -/
theorem walk_code {avail bit : Nat → Bool} {t : Tree} {s : Byte} {cs : List Bool} (hc : t.code s = some cs) (p : Nat)
    (ha : ∀ k < cs.length, avail (p + k) = true) (hb : ∀ k (hk : k < cs.length), bit (p + k) = cs[k]) :
    walk avail bit t p = some (s, p + cs.length) := by
  induction t generalizing p cs with
  | leaf s' w =>
    simp only [Tree.code] at hc
    split at hc
    · rename_i h
      obtain rfl := by simpa using hc
      simp [walk, h]
    · simp at hc
  | node w l r ihl ihr =>
    simp only [Tree.code] at hc
    have key : ∀ b c', cs = b :: c' →
        avail p = true ∧ bit p = b ∧ (∀ k < c'.length, avail (p + 1 + k) = true) ∧
          (∀ k (hk : k < c'.length), bit (p + 1 + k) = c'[k]) ∧ p + cs.length = p + 1 + c'.length := by
      rintro b c' rfl
      refine ⟨?_, ?_, ?_, ?_, ?_⟩
      · simpa using ha 0 (by simp)
      · have := hb 0 (by simp)
        rwa [Nat.add_zero, List.getElem_cons_zero] at this
      · intro k hk
        have := ha (k + 1) (by simpa using hk)
        rwa [show p + 1 + k = p + (k + 1) by omega]
      · intro k hk
        have := hb (k + 1) (by simpa using hk)
        rw [show p + 1 + k = p + (k + 1) by omega, this]
        rfl
      · simp
        omega
    split at hc
    · rename_i c' h
      obtain ⟨h1, h2, h3, h4, h5⟩ := key false c' (by simpa using hc.symm)
      rw [walk, if_pos h1, if_neg (by simp [h2]), h5]
      exact ihl h (p + 1) h3 h4
    · split at hc
      · rename_i c' h
        obtain ⟨h1, h2, h3, h4, h5⟩ := key true c' (by simpa using hc.symm)
        rw [walk, if_pos h1, if_pos h2, h5]
        exact ihr h (p + 1) h3 h4
      · simp at hc

/-- A walk that reaches a leaf has read available bits only. -/
theorem walk_some {avail bit : Nat → Bool} {t : Tree} {s : Byte} {p p' : Nat}
    (h : walk avail bit t p = some (s, p')) : p ≤ p' ∧ ∀ k, p ≤ k → k < p' → avail k = true := by
  induction t generalizing p with
  | leaf s' w =>
    obtain ⟨rfl, rfl⟩ := by simpa [walk] using h
    exact ⟨le_refl _, fun k h1 h2 => by omega⟩
  | node w l r ihl ihr =>
    simp only [walk] at h
    split at h
    · rename_i ha
      have go : ∀ q, (p + 1 ≤ q ∧ ∀ k, p + 1 ≤ k → k < q → avail k = true) →
          (p ≤ q ∧ ∀ k, p ≤ k → k < q → avail k = true) := by
        rintro q ⟨h1, h2⟩
        refine ⟨by omega, fun k hk hk' => ?_⟩
        by_cases e : k = p
        · rw [e]
          exact ha
        · exact h2 k (by omega) hk'
      split at h
      · exact go p' (ihr h)
      · exact go p' (ihl h)
    · simp at h

theorem walkMany_some {avail bit : Nat → Bool} {t : Tree} {n p p' : Nat} {ss : List Byte}
    (h : walkMany avail bit t n p = some (ss, p')) :
    ss.length = n ∧ p ≤ p' ∧ ∀ k, p ≤ k → k < p' → avail k = true := by
  induction n generalizing p ss with
  | zero =>
    obtain ⟨rfl, rfl⟩ := by simpa [walkMany] using h
    exact ⟨rfl, le_refl _, fun k h1 h2 => by omega⟩
  | succ n ih =>
    simp only [walkMany] at h
    split at h
    · simp at h
    · rename_i s q hw
      split at h
      · simp at h
      · rename_i ss' q' hm
        obtain ⟨rfl, rfl⟩ := by simpa using h
        obtain ⟨h1, h2, h3⟩ := ih hm
        obtain ⟨h4, h5⟩ := walk_some hw
        refine ⟨by simp [h1], by omega, fun k hk hk' => ?_⟩
        by_cases hq : k < q
        · exact h5 k hk hq
        · exact h3 k (by omega) hk'

/-- What `decodeMany` answers: n symbols, and every bit before the last one read is available. -/
theorem decodeMany_some {avail bit : Nat → Bool} {t : Option Tree} {n p : Nat} {ss : List Byte}
    (h : decodeMany avail bit t n = some (ss, p)) : ss.length = n ∧ ∀ k < p, avail k = true := by
  cases t with
  | none =>
    simp only [decodeMany] at h
    split at h
    · rename_i hn
      obtain ⟨rfl, rfl⟩ := by simpa using h
      exact ⟨hn.symm, fun k hk => by omega⟩
    · simp at h
  | some t =>
    obtain ⟨h1, -, h3⟩ := walkMany_some h
    exact ⟨h1, fun k hk => h3 k (by omega) hk⟩

/-! ## The parser -/

theorem rdByte_ok {byte : Nat → Byte} {limit c c' : Nat} {v : Byte} :
    rdByte byte limit c = .ok (v, c') ↔ c < limit ∧ v = byte c ∧ c' = c + 1 := by
  unfold rdByte
  split
  · simp [Nat.not_lt.mpr ‹_›]
  · simp only [Except.ok.injEq, Prod.mk.injEq]
    constructor
    · rintro ⟨rfl, rfl⟩
      exact ⟨by omega, rfl, rfl⟩
    · rintro ⟨-, rfl, rfl⟩
      exact ⟨rfl, rfl⟩

theorem rdFlag_ok {byte : Nat → Byte} {limit c c' : Nat} {b : Bool} :
    rdFlag byte limit c = .ok (b, c') ↔ c < limit ∧ byte c = flagByte b ∧ c' = c + 1 := by
  unfold rdFlag rdByte flagByte
  by_cases h : c ≥ limit
  · simp [h, Nat.not_lt.mpr h]
  · simp only [h, if_false]
    by_cases h0 : byte c = 0x00
    · cases b <;> simp [h0, eq_comm]
      omega
    · by_cases h1 : byte c = 0x01
      · cases b <;> simp [h1, eq_comm]
        omega
      · cases b <;> simp_all

theorem skipBytes_ok {byte : Nat → Byte} {limit n c c' : Nat} :
    skipBytes byte limit n c = .ok c' ↔ c' = c + n ∧ (n = 0 ∨ c + n ≤ limit) := by
  induction n generalizing c with
  | zero =>
    simp [skipBytes, eq_comm]
  | succ n ih =>
    simp only [skipBytes, rdByte]
    by_cases h : c ≥ limit
    · simp [h]
      omega
    · simp only [h, if_false, ih]
      omega

/-- The bytes a node takes before its flags: its symbol, and pad and weight in the full form. -/
def TreeKind.head : TreeKind → Nat
  | .shape => 0
  | .full => 11

/-- The bytes of a node: 3 in the shape-only form, 14 in the full form (R181, R182). -/
def TreeKind.size : TreeKind → Nat
  | .shape => 3
  | .full => 14

theorem TreeKind.size_eq (k : TreeKind) : k.size = k.head + 3 := by cases k <;> rfl

theorem rdWeight_ok {byte : Nat → Byte} {kind : TreeKind} {limit c c' : Nat} {w : Word} (hc : c ≤ limit)
    (h : rdWeight byte kind limit c = .ok (w, c')) :
    c' = c + kind.head ∧ c' ≤ limit ∧ (kind = .shape → w = 0) ∧ (kind = .full → w = readLE64 byte (c + 3)) := by
  cases kind with
  | shape =>
    obtain ⟨rfl, rfl⟩ := by simpa [rdWeight] using h
    refine ⟨rfl, hc, fun _ => rfl, ?_⟩
    intro h
    cases h
  | full =>
    simp only [rdWeight] at h
    split at h
    · simp at h
    · rename_i c'' hs
      obtain ⟨rfl, rfl⟩ := by simpa using h
      have := skipBytes_ok.mp hs
      refine ⟨this.1, by omega, ?_, fun _ => rfl⟩
      intro h
      cases h

/-- What `node()` answers when it succeeds: the cursor moved by the size of the nodes and stayed within the limit, and the count
went up by the nodes and stayed within what is available (R185). -/
theorem parseNode_ok {byte : Nat → Byte} {kind : TreeKind} {limit avail fuel c count c' n' : Nat} {t : Tree}
    (h : parseNode byte kind limit avail fuel c count = .ok (t, c', n')) :
    c' = c + kind.size * t.nodes ∧ c' ≤ limit ∧ n' = count + t.nodes ∧ n' ≤ avail := by
  induction fuel generalizing c count c' n' t with
  | zero => simp [parseNode] at h
  | succ fuel ih =>
    have hsz := kind.size_eq
    simp only [parseNode] at h
    split at h
    · simp at h
    · rename_i hcount
      split at h
      · simp at h
      · rename_i sym c1 hb
        obtain ⟨hlt, -, rfl⟩ := rdByte_ok.mp hb
        split at h
        · simp at h
        · rename_i w c2 hw
          obtain ⟨rfl, hle, -⟩ := rdWeight_ok (by omega) hw
          split at h
          · simp at h
          · rename_i c3 hf
            obtain ⟨-, -, rfl⟩ := rdFlag_ok.mp hf
            split at h
            · simp at h
            · simp at h
            · rename_i c4 hf2
              obtain ⟨hlt2, -, rfl⟩ := rdFlag_ok.mp hf2
              obtain ⟨rfl, rfl, rfl⟩ := by simpa using h
              simp only [Tree.nodes, Nat.mul_one, true_and]
              omega
          · rename_i c3 hf
            obtain ⟨-, -, rfl⟩ := rdFlag_ok.mp hf
            split at h
            · simp at h
            · rename_i l c4 n4 hl
              obtain ⟨hl1, hl2, hl3, hl4⟩ := ih hl
              split at h
              · simp at h
              · simp at h
              · rename_i c5 hf2
                obtain ⟨-, -, rfl⟩ := rdFlag_ok.mp hf2
                split at h
                · simp at h
                · rename_i r c6 n6 hr
                  obtain ⟨hr1, hr2, hr3, hr4⟩ := ih hr
                  obtain ⟨rfl, rfl, rfl⟩ := by simpa using h
                  simp only [Tree.nodes, Nat.mul_add]
                  omega

/-- What `parse` answers when it succeeds (R185). -/
theorem parseTree_ok {byte : Nat → Byte} {kind : TreeKind} {base limit avail c : Nat} {t : Option Tree}
    (h : parseTree byte kind base limit avail = .ok (t, c)) :
    c = base + 1 + kind.size * nodesOf t ∧ c ≤ limit ∧ nodesOf t ≤ avail := by
  simp only [parseTree] at h
  split at h
  · simp at h
  · rename_i c1 hf
    obtain ⟨hlt, -, rfl⟩ := rdFlag_ok.mp hf
    obtain ⟨rfl, rfl⟩ := by simpa using h
    simp only [nodesOf]
    omega
  · rename_i c1 hf
    obtain ⟨hlt, -, rfl⟩ := rdFlag_ok.mp hf
    split at h
    · simp at h
    · rename_i t' c' n' hn
      obtain ⟨rfl, rfl⟩ := by simpa using h
      have := parseNode_ok hn
      simp only [nodesOf]
      omega

/-- `rdByte` and `rdFlag` fail with CORRUPTED_ARCHIVE only. -/
theorem rdFlag_error {byte : Nat → Byte} {limit c : Nat} {e : ErrCode} (h : rdFlag byte limit c = .error e) :
    e = .corruptedArchive := by
  unfold rdFlag rdByte at h
  split at h
  · rename_i he
    split at he <;> simp_all
  · split at h
    · simp at h
    · split at h <;> simp_all

theorem rdByte_error {byte : Nat → Byte} {limit c : Nat} {e : ErrCode} (h : rdByte byte limit c = .error e) :
    e = .corruptedArchive := by
  unfold rdByte at h
  split at h <;> simp_all

theorem skipBytes_error {byte : Nat → Byte} {limit n c : Nat} {e : ErrCode} (h : skipBytes byte limit n c = .error e) :
    e = .corruptedArchive := by
  induction n generalizing c with
  | zero => simp [skipBytes] at h
  | succ n ih =>
    simp only [skipBytes] at h
    split at h
    · rename_i he
      obtain rfl := by simpa using h
      exact rdByte_error he
    · exact ih h

theorem rdWeight_error {byte : Nat → Byte} {kind : TreeKind} {limit c : Nat} {e : ErrCode}
    (h : rdWeight byte kind limit c = .error e) : e = .corruptedArchive := by
  cases kind with
  | shape => simp [rdWeight] at h
  | full =>
    simp only [rdWeight] at h
    split at h
    · rename_i he
      obtain rfl := by simpa using h
      exact skipBytes_error he
    · simp at h

/-- The parser reports CORRUPTED_ARCHIVE or CAPACITY_EXCEEDED and nothing else (R187, R222). -/
theorem parseNode_error {byte : Nat → Byte} {kind : TreeKind} {limit avail fuel c count : Nat} {e : ErrCode}
    (h : parseNode byte kind limit avail fuel c count = .error e) : e = .corruptedArchive ∨ e = .capacityExceeded := by
  induction fuel generalizing c count e with
  | zero => right; simpa [parseNode, eq_comm] using h
  | succ fuel ih =>
    simp only [parseNode] at h
    split at h
    · right; simpa [eq_comm] using h
    · split at h
      · rename_i he
        obtain rfl := by simpa using h
        exact .inl (rdByte_error he)
      · split at h
        · rename_i he
          obtain rfl := by simpa using h
          exact .inl (rdWeight_error he)
        · split at h
          · rename_i he
            obtain rfl := by simpa using h
            exact .inl (rdFlag_error he)
          · split at h
            · rename_i he
              obtain rfl := by simpa using h
              exact .inl (rdFlag_error he)
            · left; simpa [eq_comm] using h
            · simp at h
          · split at h
            · rename_i he
              obtain rfl := by simpa using h
              exact ih he
            · split at h
              · rename_i he
                obtain rfl := by simpa using h
                exact .inl (rdFlag_error he)
              · left; simpa [eq_comm] using h
              · split at h
                · rename_i he
                  obtain rfl := by simpa using h
                  exact ih he
                · simp at h

theorem parseTree_error {byte : Nat → Byte} {kind : TreeKind} {base limit avail : Nat} {e : ErrCode}
    (h : parseTree byte kind base limit avail = .error e) : e = .corruptedArchive ∨ e = .capacityExceeded := by
  simp only [parseTree] at h
  split at h
  · rename_i he
    obtain rfl := by simpa using h
    exact .inl (rdFlag_error he)
  · simp at h
  · split at h
    · rename_i he
      obtain rfl := by simpa using h
      exact parseNode_error he
    · simp at h

/-! ## Reading back what was written -/

/-- The serialized body of each form. -/
def bodyOf : TreeKind → Tree → List Byte
  | .shape => shapeBody
  | .full => fullBody

/-- What each form keeps of a tree: the full form all of it, the shape-only form all but the weights (R186, R189). -/
def keptBy : TreeKind → Tree → Tree
  | .shape => Tree.zeroed
  | .full => id

theorem bodyOf_length (k : TreeKind) (t : Tree) : (bodyOf k t).length = k.size * t.nodes := by
  cases k
  · exact shapeBody_length t
  · exact fullBody_length t

/-- The bytes from position c are bs. -/
def BytesAt (byte : Nat → Byte) (c : Nat) (bs : List Byte) : Prop := ∀ k (hk : k < bs.length), byte (c + k) = bs[k]

theorem bytesAt_append {byte : Nat → Byte} {c : Nat} {as bs : List Byte} :
    BytesAt byte c (as ++ bs) ↔ BytesAt byte c as ∧ BytesAt byte (c + as.length) bs := by
  constructor
  · intro h
    refine ⟨fun k hk => ?_, fun k hk => ?_⟩
    · have := h k (by simp; omega)
      rwa [List.getElem_append_left hk] at this
    · have := h (as.length + k) (by simp; omega)
      rw [List.getElem_append_right (by omega)] at this
      simpa [Nat.add_assoc] using this
  · rintro ⟨h1, h2⟩ k hk
    by_cases hlt : k < as.length
    · rw [List.getElem_append_left hlt]
      exact h1 k hlt
    · rw [List.getElem_append_right (by omega)]
      have := h2 (k - as.length) (by simp at hk; omega)
      rwa [show c + as.length + (k - as.length) = c + k by omega] at this

theorem bytesAt_cons {byte : Nat → Byte} {c : Nat} {a : Byte} {bs : List Byte} :
    BytesAt byte c (a :: bs) ↔ byte c = a ∧ BytesAt byte (c + 1) bs := by
  have := bytesAt_append (byte := byte) (c := c) (as := [a]) (bs := bs)
  rw [List.singleton_append] at this
  rw [this]
  constructor
  · rintro ⟨h1, h2⟩
    exact ⟨by simpa using h1 0 (by simp), h2⟩
  · rintro ⟨h1, h2⟩
    refine ⟨fun k hk => ?_, h2⟩
    have : k = 0 := by simpa using hk
    subst this
    simpa using h1

/-- Reading a weight field that holds the serialized weight. -/
theorem rdWeight_full {byte : Nat → Byte} {limit c : Nat} {w : Word} {p0 p1 p2 : Byte}
    (hb : BytesAt byte c ([p0, p1, p2] ++ le64 w)) (hl : c + 11 ≤ limit) :
    rdWeight byte .full limit c = .ok (w, c + 11) := by
  simp only [rdWeight, skipBytes_ok.mpr ⟨rfl, Or.inr hl⟩]
  have := readLE64_le64 w byte (c + 3) fun k hk => (bytesAt_append.mp hb).2 k (by simpa)
  rw [this]

/-- `node()` reads back a serialized body, when enough nodes are available (R189). -/
theorem parseNode_body (kind : TreeKind) (t : Tree) :
    ∀ {byte : Nat → Byte} {limit avail fuel c count : Nat}, BytesAt byte c (bodyOf kind t) →
      c + (bodyOf kind t).length ≤ limit → count + t.nodes ≤ avail → avail + 1 ≤ fuel + count →
      parseNode byte kind limit avail fuel c count =
        .ok (keptBy kind t, c + (bodyOf kind t).length, count + t.nodes) := by
  induction t with
  | leaf s w =>
    intro byte limit avail fuel c count hb hl hn hf
    simp only [Tree.nodes] at hn
    obtain ⟨fuel, rfl⟩ : ∃ f, fuel = f + 1 := ⟨fuel - 1, by omega⟩
    rw [bodyOf_length] at hl
    cases kind with
    | shape =>
      simp only [bodyOf, shapeBody, bytesAt_cons, TreeKind.size, Tree.nodes] at hb hl
      obtain ⟨h0, h1, h2, -⟩ := hb
      rw [parseNode, if_neg (by omega), rdByte_ok.mpr ⟨by omega, h0.symm, rfl⟩]
      simp only [rdWeight]
      rw [rdFlag_ok.mpr ⟨by omega, h1, rfl⟩]
      simp only
      rw [rdFlag_ok.mpr ⟨by omega, h2, rfl⟩]
      rfl
    | full =>
      simp only [bodyOf, fullBody, TreeKind.size, Tree.nodes] at hb hl
      have hb' : BytesAt byte c (s :: (([0, 0, 0] ++ le64 w) ++ [flagByte false, flagByte false])) := hb
      rw [bytesAt_cons, bytesAt_append] at hb'
      obtain ⟨h0, h1, h2⟩ := hb'
      have hlen : ([0, 0, 0] ++ le64 w : List Byte).length = 11 := by simp
      rw [hlen] at h2
      simp only [bytesAt_cons] at h2
      rw [parseNode, if_neg (by omega), rdByte_ok.mpr ⟨by omega, h0.symm, rfl⟩]
      simp only
      rw [rdWeight_full h1 (by omega)]
      simp only
      rw [rdFlag_ok.mpr ⟨by omega, h2.1, rfl⟩]
      simp only
      rw [rdFlag_ok.mpr ⟨by omega, h2.2.1, rfl⟩]
      simp [keptBy, bodyOf, fullBody, Tree.nodes]
  | node w l r ihl ihr =>
    intro byte limit avail fuel c count hb hl hn hf
    simp only [Tree.nodes] at hn
    obtain ⟨fuel, rfl⟩ : ∃ f, fuel = f + 1 := ⟨fuel - 1, by omega⟩
    have hlb := bodyOf_length kind (.node w l r)
    have hll := bodyOf_length kind l
    have hlr := bodyOf_length kind r
    simp only [Tree.nodes, Nat.mul_add] at hlb
    cases kind with
    | shape =>
      have hb' : BytesAt byte c
          (0x00 :: flagByte true :: (bodyOf .shape l ++ (flagByte true :: bodyOf .shape r))) := by
        simpa [bodyOf, shapeBody] using hb
      rw [bytesAt_cons, bytesAt_cons, bytesAt_append, bytesAt_cons] at hb'
      obtain ⟨h0, h1, h2, h3, h4⟩ := hb'
      simp only [TreeKind.size] at hlb hll hlr
      rw [parseNode, if_neg (by omega), rdByte_ok.mpr ⟨by omega, h0.symm, rfl⟩]
      simp only [rdWeight]
      rw [rdFlag_ok.mpr ⟨by omega, h1, rfl⟩]
      simp only
      rw [ihl h2 (by omega) (by omega) (by omega)]
      simp only
      rw [rdFlag_ok.mpr ⟨by omega, h3, rfl⟩]
      simp only
      rw [ihr h4 (by omega) (by omega) (by omega), hlb, hll, hlr]
      simp only [keptBy, Tree.zeroed, Tree.nodes, Except.ok.injEq, Prod.mk.injEq, true_and]
      omega
    | full =>
      have hb' : BytesAt byte c
          (0x00 :: (([0, 0, 0] ++ le64 w) ++ (flagByte true :: (bodyOf .full l ++ (flagByte true :: bodyOf .full r))))) := by
        simpa [bodyOf, fullBody] using hb
      have hlen : ([0, 0, 0] ++ le64 w : List Byte).length = 11 := by simp
      obtain ⟨h0, hb1⟩ := bytesAt_cons.mp hb'
      obtain ⟨hw, hb2⟩ := bytesAt_append.mp hb1
      rw [hlen, bytesAt_cons, bytesAt_append, bytesAt_cons] at hb2
      obtain ⟨h1, h2, h3, h4⟩ := hb2
      simp only [TreeKind.size] at hlb hll hlr
      rw [parseNode, if_neg (by omega), rdByte_ok.mpr ⟨by omega, h0.symm, rfl⟩]
      simp only
      rw [rdWeight_full hw (by omega)]
      simp only
      rw [rdFlag_ok.mpr ⟨by omega, h1, rfl⟩]
      simp only
      rw [ihl h2 (by omega) (by omega) (by omega)]
      simp only
      rw [rdFlag_ok.mpr ⟨by omega, h3, rfl⟩]
      simp only
      rw [ihr h4 (by omega) (by omega) (by omega), hlb, hll, hlr]
      simp only [keptBy, id, Tree.nodes, Except.ok.injEq, Prod.mk.injEq, true_and]
      omega

/-- Bit i of the packed form is bit i of the sequence, and 0 past its end (R74). -/
theorem bitof_pack (b : List Bool) (i : Nat) (h : i < 8 * (pack b).length) : bitof (pack b) i = b.getD i false := by
  rw [pack_length] at h
  have hi : i / 8 < (b.length + 7) / 8 := by omega
  have hp : (pack b).getD (i / 8) 0 = packedByte b (i / 8) := by
    rw [pack, List.getD_eq_getElem?_getD]
    simp [hi]
  rw [bitof, hp, packedByte_bit b _ _ (Nat.mod_lt _ (by omega)), Nat.div_add_mod]

/-- Where every symbol has a code, `codesOf` concatenates them (R202). -/
theorem codesOf_some (t : Option Tree) (ss : List Byte) (cs : List (List Bool)) (h : ss.map (codeOf t) = cs.map some) :
    codesOf t ss = some cs.flatten := by
  induction ss generalizing cs with
  | nil =>
    cases cs with
    | nil => rfl
    | cons c cs => simp at h
  | cons x ss ih =>
    cases cs with
    | nil => simp at h
    | cons c cs =>
      simp only [List.map_cons, List.cons.injEq] at h
      simp only [codesOf, h.1, ih cs h.2, List.flatten_cons]

/-- Where some symbol has no code, `codesOf` has no answer (R204). -/
theorem codesOf_none (t : Option Tree) (ss : List Byte) (h : ∃ x ∈ ss, codeOf t x = none) : codesOf t ss = none := by
  induction ss with
  | nil => simp at h
  | cons x ss ih =>
    simp only [codesOf]
    cases hc : codeOf t x with
    | none => rfl
    | some c =>
      obtain ⟨y, hy, hy2⟩ := h
      rcases List.mem_cons.mp hy with rfl | hy
      · rw [hc] at hy2
        cases hy2
      · rw [ih ⟨y, hy, hy2⟩]

/-- The codes of symbols one after another lead the walk through those symbols (R164, R205). -/
theorem walkMany_codes {avail bit : Nat → Bool} {t : Tree} (ss : List Byte) (cs : List (List Bool)) (p : Nat)
    (h : ss.map t.code = cs.map some) (ha : ∀ k < cs.flatten.length, avail (p + k) = true)
    (hb : ∀ k (hk : k < cs.flatten.length), bit (p + k) = cs.flatten[k]) :
    walkMany avail bit t ss.length p = some (ss, p + cs.flatten.length) := by
  induction ss generalizing cs p with
  | nil =>
    cases cs with
    | nil => rfl
    | cons c cs => simp at h
  | cons x ss ih =>
    cases cs with
    | nil => simp at h
    | cons c cs =>
      simp only [List.map_cons, List.cons.injEq] at h
      simp only [List.flatten_cons, List.length_append] at ha hb
      have w := walk_code (avail := avail) (bit := bit) h.1 p (fun k hk => ha k (by omega)) fun k hk => by
        rw [hb k (by omega), List.getElem_append_left hk]
      have m := ih cs (p + c.length) h.2
        (fun k hk => by
          rw [Nat.add_assoc]
          exact ha _ (by omega))
        fun k hk => by
          rw [Nat.add_assoc, hb _ (by omega), List.getElem_append_right (by omega)]
          congr 1
          omega
      simp only [List.length_cons, walkMany, w, m, List.flatten_cons, List.length_append, Nat.add_assoc]

end Sys2Proof.Machine
end

