-- ==== Sys2Proof/Laws/Exec.lean ====
section
/-! SUPPORT. What a command can do, said once: `exec_cases` gives, for each command, either a roll back with one of its errors or
a commit of its staged writes, guards included. Later proofs cite it and do not unfold the meanings. -/

namespace Sys2Proof.Machine

/-- The error codes each command can report (R220, R222). -/
def errorsOf : Instr → List ErrCode
  | .nop | .bvClear | .freqClear | .treeClear | .pqClear | .height _ => []
  | .bvGet | .bvSet _ => [.invalidBitIndex]
  | .bvAppend _ | .bvReserve | .bvPack | .pqPushLeaf _ | .exportShape | .exportFull => [.capacityExceeded]
  | .bvUnpack => [.inputUnderrun, .capacityExceeded]
  | .build => [.weightOverflow]
  | .pqMerge => [.emptyQueue, .weightOverflow, .capacityExceeded]
  | .pqPop => [.emptyQueue]
  | .encodeSym _ => [.symbolNotFound, .capacityExceeded]
  | .decodeSym => [.corruptedArchive]
  | .importShape | .importFull => [.corruptedArchive, .capacityExceeded]
  | .payloadEncode => [.inputUnderrun, .symbolNotFound, .capacityExceeded]
  | .payloadDecode => [.corruptedArchive, .capacityExceeded]

/-- The staged writes of a command that produces the bytes b. -/
def State.emitted (s : State) (b : List Byte) : State :=
  { s with
    mem := s.mem.setList (Config.outBase + s.outLen.toNat) b
    outLen := BitVec.ofNat 64 (s.outLen.toNat + b.length)
    result := BitVec.ofNat 64 b.length }

theorem emit_ok {s u : State} {b : List Byte} :
    s.emit b = .ok u ↔ s.outLen.toNat + b.length ≤ s.caps.outBytes ∧ u = s.emitted b := by
  unfold State.emit State.emitted
  split
  · simp
    omega
  · simp only [Except.ok.injEq, eq_comm (b := u)]
    constructor
    · exact fun h => ⟨by omega, h⟩
    · exact fun h => h.2

theorem emit_error {s : State} {b : List Byte} {e : ErrCode} :
    s.emit b = .error e ↔ s.caps.outBytes < s.outLen.toNat + b.length ∧ e = .capacityExceeded := by
  unfold State.emit
  split
  · simp [eq_comm]
    intro _
    omega
  · simp
    omega

theorem appendBits_ok {s u : State} {b : List Bool} :
    s.appendBits b = .ok u ↔ s.bvLen + b.length ≤ s.caps.bvBits ∧ u = { s with bv := s.bv ++ b } := by
  unfold State.appendBits
  split
  · simp
    omega
  · simp only [Except.ok.injEq, eq_comm (b := u)]
    constructor
    · exact fun h => ⟨by omega, h⟩
    · exact fun h => h.2

theorem appendBits_error {s : State} {b : List Bool} {e : ErrCode} :
    s.appendBits b = .error e ↔ s.caps.bvBits < s.bvLen + b.length ∧ e = .capacityExceeded := by
  unfold State.appendBits
  split
  · simp [eq_comm]
    intro _
    omega
  · simp
    omega

/-- The staged writes of each command and the conditions under which it commits them. -/
def Staged (i : Instr) (s u : State) : Prop :=
  match i with
  | .nop => u = s
  | .bvClear => u = { s with bv := [] }
  | .bvGet =>
    s.arg.toNat < s.bvLen ∧ u = { s with result := BitVec.ofNat 64 (flagBit (s.bv.getD s.arg.toNat false)) }
  | .bvSet val => s.arg.toNat < s.bvLen ∧ u = { s with bv := s.bv.set s.arg.toNat val }
  | .bvAppend val => s.bvLen + 1 ≤ s.caps.bvBits ∧ u = { s with bv := s.bv ++ [val] }
  | .bvReserve =>
    s.bvLen + s.arg.toNat ≤ s.caps.bvBits ∧ u = { s with bv := s.bv ++ List.replicate s.arg.toNat false }
  | .bvPack => s.outLen.toNat + (pack s.bv).length ≤ s.caps.outBytes ∧ u = s.emitted (pack s.bv)
  | .bvUnpack =>
    s.inRp.toNat + s.arg.toNat ≤ s.inLen.toNat ∧ s.bvLen + 8 * s.arg.toNat ≤ s.caps.bvBits ∧
      u = { s with
        bv := s.bv ++ (List.range (8 * s.arg.toNat)).map fun i => s.inBit s.inRp.toNat i
        inRp := BitVec.ofNat 64 (s.inRp.toNat + s.arg.toNat) }
  | .freqClear => u = { s with freq := Vector.replicate 256 0 }
  | .build =>
    s.freqTotal ≤ 2 ^ 64 - 1 ∧
      u = { s with tree := (mergeAll s.freqLeaves.length s.freqLeaves).head?, pq := [] }
  | .treeClear => u = { s with tree := none }
  | .pqClear => u = { s with pq := [] }
  | .pqPushLeaf sym =>
    s.pqLen + 1 ≤ s.caps.entries ∧ s.nodesUsed + 1 ≤ s.caps.nodes ∧
      u = { s with pq := push s.pq (.leaf sym s.arg) }
  | .pqMerge =>
    ∃ a b rest, popTwo s.pq = some (a, b, rest) ∧ a.weight.toNat + b.weight.toNat ≤ 2 ^ 64 - 1 ∧
      s.nodesUsed + 1 ≤ s.caps.nodes ∧ u = { s with pq := push rest (combine a b) }
  | .pqPop => ∃ t rest, popmin s.pq = some (t, rest) ∧ u = { s with tree := some t, pq := rest }
  | .encodeSym sym =>
    ∃ c, codeOf s.tree sym = some c ∧ s.bvLen + c.length ≤ s.caps.bvBits ∧ u = { s with bv := s.bv ++ c }
  | .decodeSym =>
    ∃ t sym p, s.tree = some t ∧
      walk (fun p => decide (p < s.bvLen)) (fun p => s.bv.getD p false) t s.pos.toNat = some (sym, p) ∧
        u = { s with result := sym.setWidth 64, pos := BitVec.ofNat 64 p }
  | .height sym =>
    (heightOf s.tree sym = none ∧ u = { s with found := false, result := 0 }) ∨
      ∃ h, heightOf s.tree sym = some h ∧ u = { s with found := true, result := BitVec.ofNat 64 h }
  | .exportShape =>
    s.outLen.toNat + (serShape s.tree).length ≤ s.caps.outBytes ∧ u = s.emitted (serShape s.tree)
  | .exportFull => s.outLen.toNat + (serFull s.tree).length ≤ s.caps.outBytes ∧ u = s.emitted (serFull s.tree)
  | .importShape =>
    ∃ t c, parseTree s.inByte .shape s.inRp.toNat s.inLen.toNat s.freeNodes = .ok (t, c) ∧
      u = { s with tree := t, inRp := BitVec.ofNat 64 c, result := BitVec.ofNat 64 (c - s.inRp.toNat) }
  | .importFull =>
    ∃ t c, parseTree s.inByte .full s.inRp.toNat s.inLen.toNat s.freeNodes = .ok (t, c) ∧
      u = { s with tree := t, inRp := BitVec.ofNat 64 c, result := BitVec.ofNat 64 (c - s.inRp.toNat) }
  | .payloadEncode =>
    ∃ bits, s.inRp.toNat + s.arg.toNat ≤ s.inLen.toNat ∧
      codesOf s.tree (s.inBytes s.inRp.toNat s.arg.toNat) = some bits ∧
      s.outLen.toNat + (payloadOf s.tree s.arg.toNat bits).length ≤ s.caps.outBytes ∧
      u = { s.emitted (payloadOf s.tree s.arg.toNat bits) with
        inRp := BitVec.ofNat 64 (s.inRp.toNat + s.arg.toNat) }
  | .payloadDecode =>
    ∃ t c symbols p, parseTree s.inByte .shape s.inRp.toNat s.inLen.toNat s.freeNodes = .ok (t, c) ∧
      c + 8 ≤ s.inLen.toNat ∧ ¬((readLE64 s.inByte c).toNat > 0 ∧ t = none) ∧
      s.outLen.toNat + (readLE64 s.inByte c).toNat ≤ s.caps.outBytes ∧
      decodeMany (fun j => decide (c + 8 + j / 8 < s.inLen.toNat)) (s.inBit (c + 8)) t (readLE64 s.inByte c).toNat =
        some (symbols, p) ∧
      u = { s.emitted symbols with tree := t, inRp := BitVec.ofNat 64 (c + 8 + (p + 7) / 8) }

/-- ERRCODE after an error is never 0, NONE, and never a reserved code (R220). -/
theorem ErrCode.bits_range (e : ErrCode) : e.bits ≠ 0 ∧ 1 ≤ e.bits.toNat ∧ e.bits.toNat ≤ 8 := by
  cases e <;> decide

/-- The fields no command's staged writes reach. -/
theorem staged_frame {i : Instr} {s u : State} (hu : Staged i s u) :
    u.caps = s.caps ∧ u.arg = s.arg ∧ u.inLen = s.inLen ∧ u.haz = s.haz ∧ u.ramDraw = s.ramDraw ∧
      u.outDraws = s.outDraws ∧ u.draws = s.draws ∧ u.host = s.host ∧ u.reads = s.reads ∧ u.awaiting = s.awaiting := by
  have key : ∀ v : State, u = v → (v.caps = s.caps ∧ v.arg = s.arg ∧ v.inLen = s.inLen ∧ v.haz = s.haz ∧
      v.ramDraw = s.ramDraw ∧ v.outDraws = s.outDraws ∧ v.draws = s.draws ∧ v.host = s.host ∧ v.reads = s.reads ∧ v.awaiting = s.awaiting) →
      u.caps = s.caps ∧ u.arg = s.arg ∧ u.inLen = s.inLen ∧ u.haz = s.haz ∧ u.ramDraw = s.ramDraw ∧
        u.outDraws = s.outDraws ∧ u.draws = s.draws ∧ u.host = s.host ∧ u.reads = s.reads ∧ u.awaiting = s.awaiting := by
    rintro v rfl h
    exact h
  cases i <;> simp only [Staged] at hu
  case height =>
    rcases hu with ⟨-, hu⟩ | ⟨_, -, hu⟩
    all_goals exact key _ hu ⟨rfl, rfl, rfl, rfl, rfl, rfl, rfl, rfl, rfl, rfl⟩
  all_goals
    first
    | exact key _ hu ⟨rfl, rfl, rfl, rfl, rfl, rfl, rfl, rfl, rfl, rfl⟩
    | (obtain ⟨-, hu⟩ := hu; exact key _ hu ⟨rfl, rfl, rfl, rfl, rfl, rfl, rfl, rfl, rfl, rfl⟩)
    | (obtain ⟨-, -, hu⟩ := hu; exact key _ hu ⟨rfl, rfl, rfl, rfl, rfl, rfl, rfl, rfl, rfl, rfl⟩)
    | (obtain ⟨_, _, -, hu⟩ := hu; exact key _ hu ⟨rfl, rfl, rfl, rfl, rfl, rfl, rfl, rfl, rfl, rfl⟩)
    | (obtain ⟨_, -, -, -, hu⟩ := hu; exact key _ hu ⟨rfl, rfl, rfl, rfl, rfl, rfl, rfl, rfl, rfl, rfl⟩)
    | (obtain ⟨_, _, _, -, -, hu⟩ := hu; exact key _ hu ⟨rfl, rfl, rfl, rfl, rfl, rfl, rfl, rfl, rfl, rfl⟩)
    | (obtain ⟨_, _, _, -, -, -, hu⟩ := hu; exact key _ hu ⟨rfl, rfl, rfl, rfl, rfl, rfl, rfl, rfl, rfl, rfl⟩)
    | (obtain ⟨_, _, _, _, -, -, -, -, -, hu⟩ := hu; exact key _ hu ⟨rfl, rfl, rfl, rfl, rfl, rfl, rfl, rfl, rfl, rfl⟩)

theorem endCommand_next {s t : State} {r : Except ErrCode State} :
    endCommand s r = .next t ↔ (∃ u, r = .ok u ∧ t = u.commit) ∨ ∃ e, r = .error e ∧ t = s.rollback e := by
  cases r with
  | ok u => simp [endCommand, eq_comm]
  | error e => simp [endCommand, eq_comm]

/-- A command ends in a commit of its staged writes or in a roll back with one of its errors, and does nothing else (R100 to
R102, R222). -/
theorem exec_cases (i : Instr) (s : State) :
    (∃ u, Staged i s u ∧ exec i s = .next u.commit) ∨ ∃ e ∈ errorsOf i, exec i s = .next (s.rollback e) := by
  cases i with
  | nop => exact .inl ⟨_, rfl, rfl⟩
  | bvClear => exact .inl ⟨_, rfl, rfl⟩
  | bvGet =>
    simp only [exec, execBvGet, Staged, errorsOf]
    split
    · exact .inr ⟨_, by simp, rfl⟩
    · exact .inl ⟨_, ⟨by omega, rfl⟩, rfl⟩
  | bvSet val =>
    simp only [exec, execBvSet, Staged, errorsOf]
    split
    · exact .inr ⟨_, by simp, rfl⟩
    · exact .inl ⟨_, ⟨by omega, rfl⟩, rfl⟩
  | bvAppend val =>
    simp only [exec, execBvAppend, Staged, errorsOf]
    cases h : s.appendBits [val] with
    | error e => exact .inr ⟨e, by simp [(appendBits_error.mp h).2], rfl⟩
    | ok u => exact .inl ⟨u, appendBits_ok.mp h, rfl⟩
  | bvReserve =>
    simp only [exec, execBvReserve, Staged, errorsOf]
    split
    · exact .inr ⟨_, by simp, rfl⟩
    · exact .inl ⟨_, ⟨by omega, rfl⟩, rfl⟩
  | bvPack =>
    simp only [exec, execBvPack, Staged, errorsOf]
    cases h : s.emit (pack s.bv) with
    | error e => exact .inr ⟨e, by simp [(emit_error.mp h).2], rfl⟩
    | ok u => exact .inl ⟨u, emit_ok.mp h, rfl⟩
  | bvUnpack =>
    simp only [exec, execBvUnpack, Staged, errorsOf]
    split
    · exact .inr ⟨_, by simp, rfl⟩
    · split
      · exact .inr ⟨_, by simp, rfl⟩
      · exact .inl ⟨_, ⟨by omega, by omega, rfl⟩, rfl⟩
  | freqClear => exact .inl ⟨_, rfl, rfl⟩
  | build =>
    simp only [exec, execBuild, Staged, errorsOf]
    split
    · exact .inr ⟨_, by simp, rfl⟩
    · exact .inl ⟨_, ⟨by omega, rfl⟩, rfl⟩
  | treeClear => exact .inl ⟨_, rfl, rfl⟩
  | pqClear => exact .inl ⟨_, rfl, rfl⟩
  | pqPushLeaf sym =>
    simp only [exec, execPqPushLeaf, Staged, errorsOf]
    split
    · exact .inr ⟨_, by simp, rfl⟩
    · split
      · exact .inr ⟨_, by simp, rfl⟩
      · exact .inl ⟨_, ⟨by omega, by omega, rfl⟩, rfl⟩
  | pqMerge =>
    simp only [exec, execPqMerge, Staged, errorsOf]
    split
    · exact .inr ⟨_, by simp, rfl⟩
    · rename_i a b rest h
      split
      · exact .inr ⟨_, by simp, rfl⟩
      · split
        · exact .inr ⟨_, by simp, rfl⟩
        · exact .inl ⟨_, ⟨a, b, rest, h, by omega, by omega, rfl⟩, rfl⟩
  | pqPop =>
    simp only [exec, execPqPop, Staged, errorsOf]
    split
    · exact .inr ⟨_, by simp, rfl⟩
    · rename_i t rest h
      exact .inl ⟨_, ⟨t, rest, h, rfl⟩, rfl⟩
  | encodeSym sym =>
    simp only [exec, execEncodeSym, Staged, errorsOf]
    cases hc : codeOf s.tree sym with
    | none => exact .inr ⟨_, by simp, rfl⟩
    | some c =>
      simp only
      cases h : s.appendBits c with
      | error e => exact .inr ⟨e, by simp [(appendBits_error.mp h).2], rfl⟩
      | ok u => exact .inl ⟨u, ⟨c, rfl, appendBits_ok.mp h⟩, rfl⟩
  | decodeSym =>
    simp only [exec, execDecodeSym, Staged, errorsOf]
    split
    · exact .inr ⟨_, by simp, rfl⟩
    · rename_i t ht
      split
      · exact .inr ⟨_, by simp, rfl⟩
      · rename_i sym p h
        exact .inl ⟨_, ⟨t, sym, p, ht, h, rfl⟩, rfl⟩
  | height sym =>
    simp only [exec, execHeight, Staged, errorsOf]
    split
    · rename_i h
      exact .inl ⟨_, .inl ⟨h, rfl⟩, rfl⟩
    · rename_i n h
      exact .inl ⟨_, .inr ⟨n, h, rfl⟩, rfl⟩
  | exportShape =>
    simp only [exec, execExportShape, Staged, errorsOf]
    cases h : s.emit (serShape s.tree) with
    | error e => exact .inr ⟨e, by simp [(emit_error.mp h).2], rfl⟩
    | ok u => exact .inl ⟨u, emit_ok.mp h, rfl⟩
  | exportFull =>
    simp only [exec, execExportFull, Staged, errorsOf]
    cases h : s.emit (serFull s.tree) with
    | error e => exact .inr ⟨e, by simp [(emit_error.mp h).2], rfl⟩
    | ok u => exact .inl ⟨u, emit_ok.mp h, rfl⟩
  | importShape =>
    simp only [exec, execImportShape, State.importTree, Staged, errorsOf]
    split
    · rename_i e h
      exact .inr ⟨e, by simpa using parseTree_error h, rfl⟩
    · rename_i t c h
      exact .inl ⟨_, ⟨t, c, h, rfl⟩, rfl⟩
  | importFull =>
    simp only [exec, execImportFull, State.importTree, Staged, errorsOf]
    split
    · rename_i e h
      exact .inr ⟨e, by simpa using parseTree_error h, rfl⟩
    · rename_i t c h
      exact .inl ⟨_, ⟨t, c, h, rfl⟩, rfl⟩
  | payloadEncode =>
    simp only [exec, execPayloadEncode, Staged, errorsOf]
    split
    · exact .inr ⟨_, by simp, rfl⟩
    · split
      · exact .inr ⟨_, by simp, rfl⟩
      · rename_i bits hb
        cases h : s.emit (payloadOf s.tree s.arg.toNat bits) with
        | error e => exact .inr ⟨e, by simp [(emit_error.mp h).2], rfl⟩
        | ok u =>
          obtain ⟨h1, rfl⟩ := emit_ok.mp h
          exact .inl ⟨_, ⟨bits, by omega, hb, h1, rfl⟩, rfl⟩
  | payloadDecode =>
    simp only [exec, execPayloadDecode, Staged, errorsOf]
    split
    · rename_i e h
      exact .inr ⟨e, by simpa using parseTree_error h, rfl⟩
    · rename_i t c h
      split
      · exact .inr ⟨_, by simp, rfl⟩
      · split
        · exact .inr ⟨_, by simp, rfl⟩
        · rename_i hc hn
          split
          · exact .inr ⟨_, by simp, rfl⟩
          · split
            · exact .inr ⟨_, by simp, rfl⟩
            · rename_i hcap _ symbols p hd
              cases he : s.emit symbols with
              | error e => exact .inr ⟨e, by simp [(emit_error.mp he).2], rfl⟩
              | ok u =>
                obtain ⟨-, rfl⟩ := emit_ok.mp he
                exact .inl ⟨_, ⟨t, c, symbols, p, h, by omega, hn, by omega, hd, rfl⟩, rfl⟩

/-- `exec_cases` read from the answer. -/
theorem exec_next {i : Instr} {s t : State} (h : exec i s = .next t) :
    (∃ u, Staged i s u ∧ t = u.commit) ∨ ∃ e ∈ errorsOf i, t = s.rollback e := by
  rcases exec_cases i s with ⟨u, hu, he⟩ | ⟨e, hm, he⟩
  · rw [he] at h
    cases h
    exact .inl ⟨u, hu, rfl⟩
  · rw [he] at h
    cases h
    exact .inr ⟨e, hm, rfl⟩

/-- A committed command's answer, for a reader that knows it did not report an error. -/
theorem exec_committed {i : Instr} {s t : State} (h : exec i s = .next t) (he : t.err = false) :
    ∃ u, Staged i s u ∧ t = u.commit := by
  rcases exec_next h with h | ⟨e, -, rfl⟩
  · exact h
  · simp at he

/-- A failed command's answer. -/
theorem exec_failed {i : Instr} {s t : State} (h : exec i s = .next t) (he : t.err = true) :
    ∃ e ∈ errorsOf i, t = s.rollback e := by
  rcases exec_next h with ⟨u, -, rfl⟩ | h
  · simp at he
  · exact h

/-- Where the bytes a command produced stand, and that no other byte moved (R183, R204). -/
theorem emitted_bytes {s t : State} {b : List Byte} (hl : s.outLen.toNat + b.length ≤ s.caps.outBytes)
    (hm : t.mem = (s.emitted b).mem) (hd : t.outDraws = s.outDraws) (hr : t.ramDraw = s.ramDraw)
    (hc : t.caps = s.caps) :
    (∀ k (hk : k < b.length), t.outByte (s.outLen.toNat + k) = b[k]) ∧
      ∀ a, ¬(Config.outBase + s.outLen.toNat ≤ a ∧ a < Config.outBase + s.outLen.toNat + b.length) →
        t.ramByte a = s.ramByte a := by
  have hm' : t.mem = s.mem.setList (Config.outBase + s.outLen.toNat) b := hm
  refine ⟨?_, ?_⟩
  · intro k hk
    rw [State.outByte, hc, if_pos (by omega), State.ramByte_setList hm' hd hr, dif_pos ⟨by omega, by omega⟩]
    congr 1
    omega
  · intro a ha
    rw [State.ramByte_setList hm' hd hr, dif_neg]
    intro h
    omega

end Sys2Proof.Machine
end

