-- ==== Sys2Proof/Laws/Step.lean ====
section
/-! SUPPORT. What the host's accesses and a step can do, each said once. -/

namespace Sys2Proof

/-- Every register is found at its own offset (R50). -/
theorem Reg.ofOffset_offset (r : Reg) : Reg.ofOffset r.offset = some r := by
  cases r with
  | freq sym =>
    revert sym
    decide +kernel
  | _ => rfl

/-- The register map gives every 8-byte-aligned offset to at most one register (R50). -/
theorem Reg.offset_of_ofOffset {a : Nat} {r : Reg} (ha : a % 8 = 0) (h : Reg.ofOffset a = some r) : r.offset = a := by
  unfold Reg.ofOffset at h
  split at h
  case h_19 =>
    split at h
    · obtain rfl := by simpa using h
      simp only [Reg.offset, BitVec.toNat_ofNat]
      omega
    · simp at h
  all_goals
    obtain rfl := by simpa using h
    rfl

/-- The offset of every register lies in the register file. -/
theorem Reg.offset_lt (r : Reg) : r.offset < Config.inBase ∧ r.offset % 8 = 0 := by
  cases r with
  | freq sym =>
    have := sym.isLt
    simp only [Reg.offset, Config.inBase]
    omega
  | _ => decide

end Sys2Proof

namespace Sys2Proof.Machine

/-- A 64-bit access at a register's offset reaches that register. -/
theorem busTarget_offset (c : Caps) (r : Reg) : busTarget c r.offset 8 = .ok (.reg r) := by
  simp [busTarget, r.offset_lt.1, r.offset_lt.2, r.ofOffset_offset]

/-- What a window access reaches: RAM at its address, or nothing. -/
theorem windowTarget_ok {cap addr off n : Nat} {t : Target} (h : windowTarget cap addr off n = .ok t) :
    windowShape addr n ∧ ((cap ≤ off ∧ t = .nothing) ∨ (off + n ≤ cap ∧ t = .ram addr)) := by
  unfold windowTarget at h
  split at h
  · rename_i hs
    refine ⟨hs, ?_⟩
    split at h
    · exact .inl ⟨‹_›, by simpa [eq_comm] using h⟩
    · split at h
      · exact .inr ⟨‹_›, by simpa [eq_comm] using h⟩
      · simp at h
  · simp at h

/-- The bus refuses no access to a window that has a shape of R63 and does not cross the window's end. -/
theorem windowTarget_ok_iff (cap addr off n : Nat) :
    (∃ t, windowTarget cap addr off n = .ok t) ↔ windowShape addr n ∧ insideWindow cap off n := by
  unfold windowTarget windowShape insideWindow
  split
  · split
    · simp_all
    · split <;> simp_all
  · simp_all

/-- An access reaches a register only by a 64-bit access at its offset. -/
theorem busTarget_reg {c : Caps} {a n : Nat} {r : Reg} : busTarget c a n = .ok (.reg r) ↔ a = r.offset ∧ n = 8 := by
  constructor
  · intro h
    unfold busTarget at h
    split at h
    · split at h
      · rename_i hn
        split at h
        · rename_i r' hr
          obtain rfl := by simpa using h
          exact ⟨(Reg.offset_of_ofOffset hn.2 hr).symm, hn.1⟩
        · simp at h
      · simp at h
    · split at h
      · simpa using (windowTarget_ok h).2
      · split at h
        · simpa using (windowTarget_ok h).2
        · split at h <;> simp at h
  · rintro ⟨rfl, rfl⟩
    exact busTarget_offset c r

/-- The access that reaches a register reaches no other one. -/
theorem busTarget_at_offset {c : Caps} {n : Nat} {r : Reg} {t : Target} (h : busTarget c r.offset n = .ok t) :
    n = 8 ∧ t = .reg r := by
  have hr := r.offset_lt
  unfold busTarget at h
  rw [if_pos hr.1] at h
  split at h
  · rename_i hn
    simp only [r.ofOffset_offset, Except.ok.injEq] at h
    exact ⟨hn.1, h.symm⟩
  · simp at h

/-- The bus refuses exactly the accesses the host may not make (R62, R63, R255). -/
theorem busTarget_ok_iff (c : Caps) (a n : Nat) : (∃ t, busTarget c a n = .ok t) ↔ accessOk c a n := by
  unfold busTarget accessOk
  split
  · split
    · cases h : Reg.ofOffset a <;> simp_all
    · simp_all
  · split
    · exact windowTarget_ok_iff _ _ _ _
    · split
      · exact windowTarget_ok_iff _ _ _ _
      · unfold windowShape
        split <;> simp_all

/-- A RAM access reaches backed bytes of one window only, at most 8 of them, at the address of the access. -/
theorem busTarget_ram {c : Caps} {a n addr : Nat} (h : busTarget c a n = .ok (.ram addr)) :
    addr = a ∧ (n = 1 ∨ n = 2 ∨ n = 4 ∨ n = 8) ∧ ∀ k < n, backed c (a + k) := by
  unfold busTarget at h
  split at h
  · split at h
    · split at h <;> simp at h
    · simp at h
  · split at h
    · obtain ⟨hs, hc⟩ := windowTarget_ok h
      obtain ⟨hc, rfl⟩ := by simpa using hc
      exact ⟨rfl, hs.1, fun k hk => .inl ⟨by omega, by omega⟩⟩
    · split at h
      · obtain ⟨hs, hc⟩ := windowTarget_ok h
        obtain ⟨hc, rfl⟩ := by simpa using hc
        exact ⟨rfl, hs.1, fun k hk => .inr ⟨by omega, by omega⟩⟩
      · split at h <;> simp at h

/-- A host read only adds to the host's record. -/
theorem busRead_next {a n : Nat} {s t : State} (h : busRead a n s = .next t) :
    ∃ tgt, busTarget s.caps a n = .ok tgt ∧ t = s.hostRead n tgt := by
  unfold busRead at h
  split at h
  · simp at h
  · rename_i tgt ht
    exact ⟨tgt, ht, by simpa [eq_comm] using h⟩

/-- A host write while BUSY = 1 is discarded and sets HAZ, but for CTRL; while BUSY = 0 it reaches its target. -/
theorem busWrite_next {a n : Nat} {v : Word} {s t : State} (h : busWrite a n v s = .next t) :
    ∃ tgt, busTarget s.caps a n = .ok tgt ∧
      ((s.busy = true ∧ tgt = .reg .ctrl ∧ t = s.writeCtrl v) ∨ (s.busy = true ∧ tgt ≠ .reg .ctrl ∧ t = s.setHaz) ∨
        (s.busy = false ∧ t = s.writeTarget n v tgt)) := by
  unfold busWrite at h
  split at h
  · simp at h
  · rename_i tgt ht
    refine ⟨tgt, ht, ?_⟩
    cases hb : s.busy with
    | false =>
      right; right
      simp only [hb] at h
      exact ⟨rfl, by simpa [eq_comm] using h⟩
    | true =>
      simp only [hb, if_true] at h
      by_cases hc : tgt = .reg .ctrl
      · subst hc
        left
        exact ⟨rfl, rfl, by simpa [State.writeBusy, eq_comm] using h⟩
      · right; left
        refine ⟨rfl, hc, ?_⟩
        have : s.writeBusy v tgt = s.setHaz := by
          unfold State.writeBusy
          split
          · exact absurd rfl hc
          · rfl
        rw [this] at h
        simpa [eq_comm] using h

/-- What the host's move can do. -/
theorem hostStep_next {s t : State} (h : hostStep s = .next t) :
    (s.host = [] ∧ t = s) ∨
    (∃ a n rest, s.host = .read a n :: rest ∧ busRead a.toNat n { s with host := rest } = .next t) ∨
    (∃ a n v rest, s.host = .write a n v :: rest ∧ busWrite a.toNat n v { s with host := rest } = .next t) ∨
    (∃ rest, s.host = .wait :: rest ∧ t = { s.pollStatus with host := rest }) ∨
    (∃ rest, s.host = .check :: rest ∧ t = State.checkStatus { s with host := rest }) := by
  unfold hostStep at h
  split at h
  · rename_i hh
    exact .inl ⟨hh, by simpa [eq_comm] using h⟩
  · rename_i a n rest hh
    exact .inr (.inl ⟨a, n, rest, hh, h⟩)
  · rename_i a n v rest hh
    exact .inr (.inr (.inl ⟨a, n, v, rest, hh, h⟩))
  · rename_i rest hh
    exact .inr (.inr (.inr (.inl ⟨rest, hh, by simpa [eq_comm] using h⟩)))
  · rename_i rest hh
    exact .inr (.inr (.inr (.inr ⟨rest, hh, by simpa [eq_comm] using h⟩)))

/-- The state just after a command was accepted, from the word as a 64-bit value. -/
theorem State.withFetchWord_toNat (s : State) (w : Word) : s.withFetchWord 64 w.toNat = s.issue w 0 := by
  have : BitVec.ofNat 64 (w.toNat % 2 ^ 64) = w := by
    rw [Nat.mod_eq_of_lt w.isLt, BitVec.ofNat_toNat, BitVec.setWidth_eq]
  rw [State.withFetchWord, this]

/-- When the engine moves: the host has nothing to do, waits, or has had its accesses. -/
theorem engineTurn_iff {f : Flight} {host : List BusOp} :
    engineTurn f host = true ↔ host = [] ∨ (∃ rest, host = .wait :: rest) ∨ f.delay = 0 := by
  unfold engineTurn
  split <;> simp_all

/-- A step in which the engine moves. -/
theorem step_engine {s : State} {f : Flight} (hf : s.flight = some f) (ht : engineTurn f s.host = true) :
    step s = engineStep f.word s := by
  rw [step, systemStep, hf]
  simp only [ht, if_true]

/-- A legal word in the engine. -/
theorem engineStep_ok {w : Word} {i : Instr} (s : State) (h : decode w = .ok i) : engineStep w s = exec i s := by
  rw [engineStep, h]

/-- An illegal word in the engine. -/
theorem engineStep_error {w : Word} {r : Reject} (s : State) (h : decode w = .error r) :
    engineStep w s = .next (s.rollback .illegalCommand) := by
  rw [engineStep, h]

/-- What a step can do: the engine executes the command in flight, or rolls an illegal word back, or the host moves. -/
theorem step_next {s t : State} (h : step s = .next t) :
    (∃ f i, s.flight = some f ∧ engineTurn f s.host = true ∧ decode f.word = .ok i ∧ exec i s = .next t) ∨
    (∃ f r, s.flight = some f ∧ engineTurn f s.host = true ∧ decode f.word = .error r ∧
      t = s.rollback .illegalCommand) ∨
    (s.flight = none ∧ hostStep s = .next t) ∨
    (∃ f, s.flight = some f ∧ engineTurn f s.host = false ∧ hostStep { s with flight := some f.tick } = .next t) := by
  unfold step systemStep engineStep at h
  split at h
  · rename_i hf
    exact .inr (.inr (.inl ⟨hf, h⟩))
  · rename_i f hf
    split at h
    · rename_i ht
      split at h
      · rename_i i hi
        exact .inl ⟨f, i, hf, ht, hi, h⟩
      · rename_i r hr
        exact .inr (.inl ⟨f, r, hf, ht, hr, by simpa [eq_comm] using h⟩)
    · rename_i ht
      exact .inr (.inr (.inr ⟨f, hf, by simpa using ht, h⟩))

/-- Storing one byte in a backed place keeps every listed cell backed. -/
theorem backed_setList {c : Caps} {m : Memory} {k : Nat} {bs : List Byte} (hm : ∀ x ∈ m, backed c x.1)
    (hb : ∀ j, k ≤ j → j < k + bs.length → backed c j) : ∀ x ∈ m.setList k bs, backed c x.1 := by
  intro x hx
  rcases Memory.mem_setList hx with h | h
  · exact hb x.1 h.1 h.2
  · exact hm x h

/-- A 64-bit read at a register's offset. -/
theorem busRead_reg (s : State) (r : Reg) :
    busRead r.offset 8 s = .next (s.hostRead 8 (.reg r)) := by
  rw [busRead, busTarget_offset]

/-- A 64-bit write at a register's offset. -/
theorem busWrite_reg (s : State) (r : Reg) (v : Word) :
    busWrite r.offset 8 v s = .next (if s.busy then s.writeBusy v (.reg r) else s.writeReg v r) := by
  rw [busWrite, busTarget_offset]
  rfl

/-- While BUSY = 0 a read of anything but STATUS only adds its value to the host's record. -/
theorem hostRead_idle {s : State} {n : Nat} {t : Target} (h : s.busy = false) (ht : t ≠ .reg .status) :
    s.hostRead n t = { s with reads := s.readTarget n t :: s.reads } := by
  have : s.showsIdle t = false := by
    unfold State.showsIdle
    split
    · exact absurd rfl ht
    · rfl
  simp [State.hostRead, h, this]

/-- A read of STATUS while BUSY = 0 also is the read of BUSY = 0 the host owed. -/
theorem hostRead_status_idle {s : State} {n : Nat} (h : s.busy = false) :
    s.hostRead n (.reg .status) = { s with reads := s.statusWord :: s.reads, awaiting := false } := by
  simp [State.hostRead, State.readTarget, State.readReg, State.showsIdle, h]

/-- While BUSY = 1 a read adds its value to the host's record and uses up a draw. -/
theorem hostRead_busy {s : State} {n : Nat} {t : Target} (h : s.busy = true) :
    s.hostRead n t = { s with reads := s.readTarget n t :: s.reads, draws := s.draws + 1 } := by
  have : s.showsIdle t = false := by
    unfold State.showsIdle
    split
    · simp [h]
    · rfl
  simp [State.hostRead, h, this]

/-- While BUSY = 1 no read is the read of BUSY = 0 the host owes. -/
theorem hostRead_keepsAwaiting {s : State} {n : Nat} {t : Target} (h : s.busy = true → s.awaiting = true) :
    (s.hostRead n t).busy = true → (s.hostRead n t).awaiting = true := by
  intro hb
  have hb : s.busy = true := hb
  rw [hostRead_busy hb]
  exact h hb

/-- The STATUS word as a number. -/
theorem statusWord_toNat (s : State) :
    s.statusWord.toNat =
      flagBit s.busy + 2 * flagBit s.err + 4 * flagBit s.found + 8 * flagBit s.haz + 256 * s.errcode.toNat := by
  have := s.errcode.isLt
  simp only [State.statusWord, BitVec.toNat_ofNat, flagBit]
  split <;> split <;> split <;> split <;> omega

/-- A pointer register stores the minimum of what is written and its window's capacity (R43). -/
theorem clamp_toNat (v : Word) (c : Nat) : (clamp v c).toNat = min v.toNat c := by
  have := v.isLt
  simp only [clamp, BitVec.toNat_ofNat]
  omega

end Sys2Proof.Machine
end

