-- ==== Sys2Proof/Laws/Build.lean ====
section
/-! SUPPORT. The leaves BUILD starts from and what its loop makes of them. -/

namespace Sys2Proof.Machine

/-- Every one of the 256 symbols, ascending. -/
def allSymbols : List Byte := (List.range 256).map (BitVec.ofNat 8)

theorem includedSymbols_eq (s : State) : includedSymbols s = allSymbols.filter fun sym => decide (s.freqOf sym ≠ 0) := rfl

theorem includedSymbols_length (s : State) : (includedSymbols s).length ≤ 256 := by
  refine (List.length_filter_le _ _).trans ?_
  simp

/-- FREQ as a list: the count of each symbol in ascending order. -/
theorem freq_toList (s : State) : s.freq.toList = allSymbols.map s.freqOf := by
  apply List.ext_getElem
  · simp [allSymbols]
  · intro k h1 h2
    have hk : k < 256 := by simpa using h1
    simp only [allSymbols, List.getElem_map, List.getElem_range, State.freqOf_eq, BitVec.toNat_ofNat,
      Nat.mod_eq_of_lt hk, Vector.getElem_toList]

/-- The leaves BUILD starts from, symbol by symbol (R131). -/
theorem freqLeaves_eq (s : State) : s.freqLeaves = (includedSymbols s).map fun sym => .leaf sym (s.freqOf sym) := by
  have hz : s.freq.toList.zipIdx = (List.range 256).map fun k => (s.freqOf (BitVec.ofNat 8 k), k) := by
    rw [freq_toList]
    apply List.ext_getElem
    · simp [allSymbols]
    · intro k h1 h2
      simp [allSymbols]
  rw [State.freqLeaves, hz, List.filterMap_map, includedSymbols_eq, allSymbols, List.filter_map, List.map_map]
  induction List.range 256 with
  | nil => rfl
  | cons k l ih =>
    rw [List.filterMap_cons, List.filter_cons]
    by_cases hk : s.freqOf (BitVec.ofNat 8 k) = 0#64
    · simpa [hk] using ih
    · simpa [hk] using ih

theorem freqLeaves_length (s : State) : s.freqLeaves.length = (includedSymbols s).length := by
  rw [freqLeaves_eq, List.length_map]

theorem freqLeaves_nodes (s : State) : totalNodes s.freqLeaves = (includedSymbols s).length := by
  rw [freqLeaves_eq, totalNodes, List.map_map]
  induction includedSymbols s with
  | nil => rfl
  | cons x l ih =>
    rw [List.map_cons, List.sum_cons, ih, List.length_cons]
    simp only [Function.comp_apply, Tree.nodes]
    omega

/-- The leaves weigh what FREQ sums to (R131, R138). -/
theorem freqLeaves_weight (s : State) : totalWeight s.freqLeaves = s.freqTotal := by
  rw [freqLeaves_eq, includedSymbols_eq, totalWeight, State.freqTotal, freq_toList, List.map_map, List.map_map]
  induction allSymbols with
  | nil => rfl
  | cons x l ih =>
    rw [List.filter_cons]
    by_cases hx : s.freqOf x = 0#64
    · simpa [hx] using ih
    · simpa [hx, Tree.weight] using ih

theorem freqLeaves_leaves (s : State) :
    s.freqLeaves.flatMap Tree.leaves = (includedSymbols s).map fun sym => (sym, s.freqOf sym) := by
  rw [freqLeaves_eq, List.flatMap_map]
  induction includedSymbols s with
  | nil => rfl
  | cons x l ih =>
    rw [List.flatMap_cons, ih]
    rfl

/-- BUILD's loop on the leaves: one tree, or none when no symbol is included (R131). -/
theorem build_result (s : State) :
    (includedSymbols s = [] ∧ mergeAll s.freqLeaves.length s.freqLeaves = []) ∨
      ∃ t, mergeAll s.freqLeaves.length s.freqLeaves = [t] ∧ includedSymbols s ≠ [] := by
  have h := mergeAll_length s.freqLeaves.length s.freqLeaves (by omega)
  rw [freqLeaves_length] at h ⊢
  by_cases he : includedSymbols s = []
  · left
    refine ⟨he, ?_⟩
    rw [he, List.length_nil, Nat.min_zero, List.length_eq_zero_iff] at h
    rwa [he]
  · right
    have := List.length_pos_iff.mpr he
    rw [Nat.min_eq_left (by omega)] at h
    obtain ⟨t, ht⟩ := List.length_eq_one_iff.mp h
    exact ⟨t, ht, he⟩

end Sys2Proof.Machine
end

