-- ==== Sys2Proof/Laws/Grammar.lean ====
section
/-! SUPPORT. The parser against the grammar: `node()` succeeds exactly on the byte strings of `TreeBytes` and fails exactly on those of
`FlawedNode`, with the flaw's code. -/

namespace Sys2Proof.Machine

theorem NodeHead.length {kind : TreeKind} {x : Byte} {w : Word} {hd : List Byte} (h : NodeHead kind x w hd) :
    hd.length = kind.head + 1 := by
  cases kind with
  | shape => simp [h.2, TreeKind.head]
  | full =>
    obtain ⟨_, _, _, rfl⟩ := h
    simp [TreeKind.head]

/-- A node's head at a cursor is read whole when it ends within the limit. -/
theorem NodeHead.read {kind : TreeKind} {x : Byte} {w : Word} {hd : List Byte} {byte : Nat → Byte} {limit c : Nat}
    (h : NodeHead kind x w hd) (hb : BytesAt byte c hd) (hl : c + hd.length ≤ limit) :
    rdByte byte limit c = .ok (x, c + 1) ∧ rdWeight byte kind limit (c + 1) = .ok (w, c + hd.length) := by
  have hlen := h.length
  cases kind with
  | shape =>
    obtain ⟨rfl, rfl⟩ := h
    have hx := (bytesAt_cons.mp hb).1
    simp only [List.length_singleton] at hl
    exact ⟨rdByte_ok.mpr ⟨by omega, hx.symm, rfl⟩, rfl⟩
  | full =>
    obtain ⟨p0, p1, p2, rfl⟩ := h
    obtain ⟨hx, hr⟩ := bytesAt_cons.mp (show BytesAt byte c (x :: ([p0, p1, p2] ++ le64 w)) from hb)
    simp only [TreeKind.head] at hlen
    refine ⟨rdByte_ok.mpr ⟨by omega, hx.symm, rfl⟩, ?_⟩
    rw [rdWeight_full hr (by omega), hlen]

/-- A node's head that does not end within the limit is truncated: its symbol byte or its weight fails. -/
theorem NodeHead.cut {kind : TreeKind} {x : Byte} {w : Word} {hd : List Byte} (byte : Nat → Byte) {limit c : Nat}
    (h : NodeHead kind x w hd) (hl : limit < c + hd.length) :
    rdByte byte limit c = .error .corruptedArchive ∨
      ∃ v, rdByte byte limit c = .ok (v, c + 1) ∧ rdWeight byte kind limit (c + 1) = .error .corruptedArchive := by
  have hlen := h.length
  by_cases hc : c < limit
  · refine .inr ⟨byte c, rdByte_ok.mpr ⟨hc, rfl, rfl⟩, ?_⟩
    cases hw : rdWeight byte kind limit (c + 1) with
    | error e => rw [rdWeight_error hw]
    | ok r =>
      have := rdWeight_ok (by omega) hw
      omega
  · left
    simp [rdByte, hc]

/-- Every place holds the head of some node. -/
theorem nodeHead_at (kind : TreeKind) (byte : Nat → Byte) (c : Nat) :
    ∃ w hd, NodeHead kind (byte c) w hd ∧ BytesAt byte c hd := by
  cases kind with
  | shape => exact ⟨0, [byte c], ⟨rfl, rfl⟩, bytesAt_cons.mpr ⟨rfl, fun k hk => by simp at hk⟩⟩
  | full =>
    refine ⟨readLE64 byte (c + 4), [byte c, byte (c + 1), byte (c + 2), byte (c + 3)] ++ le64 (readLE64 byte (c + 4)),
      ⟨_, _, _, rfl⟩, bytesAt_append.mpr ⟨?_, fun k hk => ?_⟩⟩
    · simp only [bytesAt_cons, true_and]
      exact fun k hk => by simp at hk
    · rw [le64_readLE64 byte _ k (by simpa using hk)]
      rfl

/-- The four things a flag byte can be (R180, R185). -/
theorem rdFlag_cases (byte : Nat → Byte) (limit c : Nat) :
    (limit ≤ c ∧ rdFlag byte limit c = .error .corruptedArchive) ∨
    (c < limit ∧ byte c = 0x00 ∧ rdFlag byte limit c = .ok (false, c + 1)) ∨
    (c < limit ∧ byte c = 0x01 ∧ rdFlag byte limit c = .ok (true, c + 1)) ∨
    (c < limit ∧ byte c ≠ 0x00 ∧ byte c ≠ 0x01 ∧ rdFlag byte limit c = .error .corruptedArchive) := by
  unfold rdFlag rdByte
  by_cases hc : c ≥ limit
  · exact .inl ⟨hc, by simp only [hc, if_true]⟩
  · by_cases h0 : byte c = 0x00
    · exact .inr (.inl ⟨by omega, h0, by simp only [hc, h0, if_false, if_true]⟩)
    · by_cases h1 : byte c = 0x01
      · exact .inr (.inr (.inl ⟨by omega, h1, by simp only [hc, h1, if_false]; rfl⟩))
      · exact .inr (.inr (.inr ⟨by omega, h0, h1, by simp only [hc, h0, h1, if_false]⟩))

/-- `node()` after its head: what its flags lead to. -/
theorem parseNode_head {byte : Nat → Byte} {kind : TreeKind} {limit avail fuel c count : Nat} {x : Byte} {w : Word}
    {hd : List Byte} (h : NodeHead kind x w hd) (hb : BytesAt byte c hd) (hl : c + hd.length ≤ limit)
    (hn : count + 1 ≤ avail) :
    parseNode byte kind limit avail (fuel + 1) c count =
      match rdFlag byte limit (c + hd.length) with
      | .error e => .error e
      | .ok (false, c3) =>
        match rdFlag byte limit c3 with
        | .error e => .error e
        | .ok (true, _) => .error .corruptedArchive
        | .ok (false, c4) => .ok (.leaf x w, c4, count + 1)
      | .ok (true, c3) =>
        match parseNode byte kind limit avail fuel c3 (count + 1) with
        | .error e => .error e
        | .ok (l, c4, n4) =>
          match rdFlag byte limit c4 with
          | .error e => .error e
          | .ok (false, _) => .error .corruptedArchive
          | .ok (true, c5) =>
            match parseNode byte kind limit avail fuel c5 n4 with
            | .error e => .error e
            | .ok (r, c6, n6) => .ok (.node w l r, c6, n6) := by
  have hr := h.read hb hl
  rw [parseNode, if_neg (by omega), hr.1]
  simp only [hr.2] <;> rfl

/-- The bytes of a node's head, its left flag and what follows. -/
theorem bytesAt_left {byte : Nat → Byte} {c : Nat} {hd bl : List Byte} {x : Byte} :
    BytesAt byte c (hd ++ [x] ++ bl) ↔
      BytesAt byte c hd ∧ byte (c + hd.length) = x ∧ BytesAt byte (c + hd.length + 1) bl := by
  rw [List.append_assoc, bytesAt_append, List.singleton_append, bytesAt_cons]

/-- The bytes of a node's head, its left flag, its left child and what follows. -/
theorem bytesAt_right {byte : Nat → Byte} {c : Nat} {hd bl br : List Byte} {x : Byte} :
    BytesAt byte c (hd ++ [x] ++ bl ++ br) ↔
      BytesAt byte c hd ∧ byte (c + hd.length) = x ∧ BytesAt byte (c + hd.length + 1) bl ∧
        BytesAt byte (c + hd.length + 1 + bl.length) br := by
  rw [bytesAt_append, bytesAt_left, and_assoc, and_assoc]
  simp only [List.length_append, List.length_singleton, ← Nat.add_assoc]

/-- A node that `node()` reads is one of the grammar, read to its last byte. -/
theorem parseNode_treeBytes {byte : Nat → Byte} {kind : TreeKind} {limit avail fuel c count c' n' : Nat} {t : Tree}
    (h : parseNode byte kind limit avail fuel c count = .ok (t, c', n')) :
    ∃ bs, TreeBytes kind t bs ∧ BytesAt byte c bs ∧ c' = c + bs.length := by
  induction fuel generalizing c count c' n' t with
  | zero => simp [parseNode] at h
  | succ fuel ih =>
    by_cases hn : count + 1 ≤ avail
    swap
    · rw [parseNode, if_pos (by omega)] at h
      cases h
    obtain ⟨w, hd, hh, hb⟩ := nodeHead_at kind byte c
    by_cases hl : c + hd.length ≤ limit
    swap
    · rw [parseNode, if_neg (Nat.not_lt.mpr hn)] at h
      obtain he | ⟨v, hv, he⟩ := hh.cut byte (limit := limit) (c := c) (by omega)
      · rw [he] at h
        cases h
      · rw [hv] at h
        simp only [he] at h
        cases h
    rw [parseNode_head hh hb hl hn] at h
    obtain ⟨-, hf⟩ | ⟨-, hx, hf⟩ | ⟨-, hx, hf⟩ | ⟨-, -, -, hf⟩ := rdFlag_cases byte limit (c + hd.length)
    · simp only [hf] at h
      cases h
    · simp only [hf] at h
      split at h
      · cases h
      · cases h
      · rename_i c4 hf2
        obtain ⟨-, hx2, rfl⟩ := rdFlag_ok.mp hf2
        cases h
        refine ⟨_, .leaf _ _ hd hh, bytesAt_append.mpr ⟨hb, bytesAt_cons.mpr ⟨hx, bytesAt_cons.mpr ⟨hx2, ?_⟩⟩⟩,
          by simp [Nat.add_assoc]⟩
        exact fun k hk => by simp at hk
    · simp only [hf] at h
      split at h
      · cases h
      · rename_i l c4 n4 hl
        obtain ⟨bl, hl1, hl2, rfl⟩ := ih hl
        split at h
        · cases h
        · cases h
        · rename_i c5 hf2
          obtain ⟨-, hx2, rfl⟩ := rdFlag_ok.mp hf2
          split at h
          · cases h
          · rename_i r c6 n6 hr
            obtain ⟨br, hr1, hr2, rfl⟩ := ih hr
            cases h
            refine ⟨_, .node _ _ _ _ hd bl br hh hl1 hr1, ?_, by simp; omega⟩
            rw [List.append_assoc, bytesAt_right]
            exact ⟨hb, hx, hl2, bytesAt_cons.mpr ⟨hx2, hr2⟩⟩
    · simp only [hf] at h
      cases h

/-- `node()` reads every node of the grammar that ends within the limit and fits. -/
theorem TreeBytes.parse {byte : Nat → Byte} {kind : TreeKind} {limit avail : Nat} {t : Tree} {bs : List Byte}
    (h : TreeBytes kind t bs) : ∀ {c count fuel : Nat}, BytesAt byte c bs → c + bs.length ≤ limit →
      count + t.nodes ≤ avail → avail + 1 ≤ fuel + count →
      parseNode byte kind limit avail fuel c count = .ok (t, c + bs.length, count + t.nodes) := by
  induction h with
  | leaf sym w hd hh =>
    intro c count fuel hb hl hn hf
    simp only [Tree.nodes] at hn ⊢
    obtain ⟨fuel, rfl⟩ : ∃ f, fuel = f + 1 := ⟨fuel - 1, by omega⟩
    simp only [bytesAt_append, bytesAt_cons] at hb
    simp only [List.length_append, List.length_cons, List.length_nil] at hl ⊢
    rw [parseNode_head hh hb.1 (by omega) (by omega),
      rdFlag_ok (b := false) |>.mpr ⟨by omega, hb.2.1, rfl⟩]
    simp only
    rw [rdFlag_ok (b := false) |>.mpr ⟨by omega, hb.2.2.1, rfl⟩]
    simp only [Nat.add_assoc]
  | node x w l r hd bl br hh _ _ ihl ihr =>
    intro c count fuel hb hl hn hf
    simp only [Tree.nodes] at hn ⊢
    obtain ⟨fuel, rfl⟩ : ∃ f, fuel = f + 1 := ⟨fuel - 1, by omega⟩
    rw [List.append_assoc, bytesAt_right, List.singleton_append, bytesAt_cons] at hb
    obtain ⟨b1, b2, b3, b4, b5⟩ := hb
    simp only [List.length_append, List.length_cons, List.length_nil] at hl ⊢
    rw [parseNode_head hh b1 (by omega) (by omega), rdFlag_ok (b := true) |>.mpr ⟨by omega, b2, rfl⟩]
    simp only
    rw [ihl b3 (by omega) (by omega) (by omega)]
    simp only
    rw [rdFlag_ok (b := true) |>.mpr ⟨by omega, b4, rfl⟩]
    simp only
    rw [ihr b5 (by omega) (by omega) (by omega)]
    simp only [Except.ok.injEq, Prod.mk.injEq, true_and]
    omega

/-- `node()` on a node of the grammar that does not fit (R187). -/
theorem TreeBytes.parse_noRoom {byte : Nat → Byte} {kind : TreeKind} {limit avail : Nat} {t : Tree} {bs : List Byte}
    (h : TreeBytes kind t bs) : ∀ {c count fuel : Nat}, BytesAt byte c bs → c + bs.length ≤ limit →
      avail < count + t.nodes → avail + 1 ≤ fuel + count →
      parseNode byte kind limit avail fuel c count = .error .capacityExceeded := by
  induction h with
  | leaf sym w hd hh =>
    intro c count fuel hb hl hn hf
    simp only [Tree.nodes] at hn
    cases fuel with
    | zero => rfl
    | succ fuel => rw [parseNode, if_pos hn]
  | node x w l r hd bl br hh htl _ ihl ihr =>
    intro c count fuel hb hl hn hf
    simp only [Tree.nodes] at hn
    cases fuel with
    | zero => rfl
    | succ fuel =>
      by_cases h0 : count + 1 ≤ avail
      swap
      · rw [parseNode, if_pos (by omega)]
      rw [List.append_assoc, bytesAt_right, List.singleton_append, bytesAt_cons] at hb
      obtain ⟨b1, b2, b3, b4, b5⟩ := hb
      simp only [List.length_append, List.length_cons, List.length_nil] at hl
      rw [parseNode_head hh b1 (by omega) h0, rdFlag_ok (b := true) |>.mpr ⟨by omega, b2, rfl⟩]
      simp only
      by_cases h1 : count + 1 + l.nodes ≤ avail
      · rw [htl.parse b3 (by omega) h1 (by omega)]
        simp only
        rw [rdFlag_ok (b := true) |>.mpr ⟨by omega, b4, rfl⟩]
        simp only
        rw [ihr b5 (by omega) (by omega) (by omega)]
      · rw [ihl b3 (by omega) (by omega) (by omega)]

/-- A flag's place with a flaw: `rdflag()` fails there, or reads the flag that may not stand there. -/
theorem FlawedFlag.read {byte : Nat → Byte} {flaw : Flaw} {allowed fl : List Byte} {limit c : Nat}
    (h : FlawedFlag flaw allowed fl) (hb : BytesAt byte c fl) (hl : c + fl.length ≤ limit)
    (ht : flaw = .truncated → c + fl.length = limit) :
    flaw.code = .corruptedArchive ∧
      (rdFlag byte limit c = .error .corruptedArchive ∨
        ∃ b, flagByte b ∉ allowed ∧ rdFlag byte limit c = .ok (b, c + 1)) := by
  obtain ⟨rfl, rfl⟩ | ⟨rfl, f, hf, rfl⟩ := h
  · have hc : c = limit := ht rfl
    exact ⟨rfl, .inl (by simp [rdFlag, rdByte, hc])⟩
  · refine ⟨rfl, ?_⟩
    have hx := (bytesAt_cons.mp hb).1
    obtain ⟨-, h⟩ | ⟨-, h0, h⟩ | ⟨-, h0, h⟩ | ⟨-, -, -, h⟩ := rdFlag_cases byte limit c
    · exact .inl h
    · exact .inr ⟨false, by rwa [show flagByte false = f from h0.symm.trans hx], h⟩
    · exact .inr ⟨true, by rwa [show flagByte true = f from h0.symm.trans hx], h⟩
    · exact .inl h

/-- A flawed node is a begun one. -/
theorem FlawedNode.pos {kind : TreeKind} {flaw : Flaw} {n : Nat} {bs : List Byte} (h : FlawedNode kind flaw n bs) : 1 ≤ n := by
  cases h <;> omega

/-- The bytes bs, which end in a flaw, stand at c, and the n nodes begun in them fit, but for the last one where room is what lacks. -/
structure FlawMet (byte : Nat → Byte) (limit avail c count : Nat) (flaw : Flaw) (n : Nat) (bs : List Byte) : Prop where
  bytes : BytesAt byte c bs
  within : c + bs.length ≤ limit
  atEnd : flaw = .truncated → c + bs.length = limit
  full : flaw = .noRoom → count + n = avail + 1
  fits : flaw ≠ .noRoom → count + n ≤ avail

/-- `node()` fails on a flawed node with the flaw's code (R185, R187). -/
theorem FlawedNode.parse {byte : Nat → Byte} {kind : TreeKind} {limit avail : Nat} {flaw : Flaw} {n : Nat} {bs : List Byte}
    (h : FlawedNode kind flaw n bs) : ∀ {c count fuel : Nat}, FlawMet byte limit avail c count flaw n bs →
      avail + 1 ≤ fuel + count → parseNode byte kind limit avail fuel c count = .error flaw.code := by
  induction h with
  | noRoom h =>
    rintro c count fuel ⟨-, -, -, hfull, -⟩ -
    obtain rfl := h
    cases fuel with
    | zero => rfl
    | succ fuel => rw [parseNode, if_pos (by have := hfull rfl; omega)]; rfl
  | head x w hd part h hh hp hne =>
    rintro c count fuel ⟨-, -, hend, -, hfit⟩ hf
    obtain rfl := h
    have hfit := hfit (by decide)
    obtain ⟨fuel, rfl⟩ : ∃ f, fuel = f + 1 := ⟨fuel - 1, by omega⟩
    have hlt : part.length < hd.length := by
      obtain ⟨rest, rfl⟩ := hp
      cases rest with
      | nil => simp at hne
      | cons a rest => simp
    have hend := hend rfl
    rw [parseNode, if_neg (by omega)]
    obtain he | ⟨v, hv, he⟩ := hh.cut byte (limit := limit) (c := c) (by omega)
    · rw [he]
      rfl
    · rw [hv]
      simp only [he]
      rfl
  | leftFlag x w hd fl hh hfl =>
    rintro c count fuel ⟨hb, hl, hend, hfull, hfit⟩ hf
    rw [bytesAt_append] at hb
    simp only [List.length_append, ← Nat.add_assoc] at hl hend
    obtain ⟨hcode, hread⟩ := hfl.read hb.2 hl hend
    rw [hcode]
    have hfit := hfit (by rintro rfl; cases hcode)
    obtain ⟨fuel, rfl⟩ : ∃ f, fuel = f + 1 := ⟨fuel - 1, by omega⟩
    rw [parseNode_head hh hb.1 (by omega) (by omega)]
    obtain h | ⟨b, hx, h⟩ := hread
    · rw [h]
    · cases b <;> simp [flagByte] at hx
  | rightFlagOfLeaf x w hd fl hh hfl =>
    rintro c count fuel ⟨hb, hl, hend, hfull, hfit⟩ hf
    rw [bytesAt_left] at hb
    simp only [List.length_append, List.length_singleton, ← Nat.add_assoc] at hl hend
    obtain ⟨hcode, hread⟩ := hfl.read hb.2.2 hl hend
    rw [hcode]
    have hfit := hfit (by rintro rfl; cases hcode)
    obtain ⟨fuel, rfl⟩ : ∃ f, fuel = f + 1 := ⟨fuel - 1, by omega⟩
    rw [parseNode_head hh hb.1 (by omega) (by omega), rdFlag_ok (b := false) |>.mpr ⟨by omega, hb.2.1, rfl⟩]
    simp only
    obtain h | ⟨b, hx, h⟩ := hread
    · rw [h]
    · cases b
      · simp [flagByte] at hx
      · rw [h]
  | left x w n hd bl hh hbl ih =>
    rintro c count fuel ⟨hb, hl, hend, hfull, hfit⟩ hf
    rw [bytesAt_left] at hb
    simp only [List.length_append, List.length_singleton, ← Nat.add_assoc] at hl hend
    have hn := hbl.pos
    have hfull' : flaw = .noRoom → count + 1 + n = avail + 1 := fun h => by have := hfull h; omega
    have hfit' : flaw ≠ .noRoom → count + 1 + n ≤ avail := fun h => by have := hfit h; omega
    have hc : count + 1 ≤ avail := by by_cases h : flaw = .noRoom <;> [have := hfull' h; have := hfit' h] <;> omega
    obtain ⟨fuel, rfl⟩ : ∃ f, fuel = f + 1 := ⟨fuel - 1, by omega⟩
    rw [parseNode_head hh hb.1 (by omega) hc, rdFlag_ok (b := true) |>.mpr ⟨by omega, hb.2.1, rfl⟩]
    simp only
    rw [ih ⟨hb.2.2, hl, hend, hfull', hfit'⟩ (by omega)]
  | rightFlag x w l hd bl fl hh hl hfl =>
    rintro c count fuel ⟨hb, hlim, hend, hfull, hfit⟩ hf
    rw [bytesAt_right] at hb
    obtain ⟨b1, b2, b3, b4⟩ := hb
    simp only [List.length_append, List.length_singleton, ← Nat.add_assoc] at hlim hend
    obtain ⟨hcode, hread⟩ := hfl.read b4 hlim hend
    rw [hcode]
    have hfit := hfit (by rintro rfl; cases hcode)
    obtain ⟨fuel, rfl⟩ : ∃ f, fuel = f + 1 := ⟨fuel - 1, by omega⟩
    rw [parseNode_head hh b1 (by omega) (by omega), rdFlag_ok (b := true) |>.mpr ⟨by omega, b2, rfl⟩]
    simp only
    rw [hl.parse b3 (by omega) (by omega) (by omega)]
    simp only
    obtain h | ⟨b, hx, h⟩ := hread
    · rw [h]
    · cases b
      · rw [h]
      · simp [flagByte] at hx
  | right x w l n hd bl br hh hl hbr ih =>
    rintro c count fuel ⟨hb, hlim, hend, hfull, hfit⟩ hf
    rw [List.append_assoc, bytesAt_right, List.singleton_append, bytesAt_cons] at hb
    obtain ⟨b1, b2, b3, b4, b5⟩ := hb
    simp only [List.length_append, List.length_singleton, ← Nat.add_assoc] at hlim hend
    have hn := hbr.pos
    have hfull' : flaw = .noRoom → count + 1 + l.nodes + n = avail + 1 := fun h => by have := hfull h; omega
    have hfit' : flaw ≠ .noRoom → count + 1 + l.nodes + n ≤ avail := fun h => by have := hfit h; omega
    have hc : count + 1 + l.nodes ≤ avail := by by_cases h : flaw = .noRoom <;> [have := hfull' h; have := hfit' h] <;> omega
    obtain ⟨fuel, rfl⟩ : ∃ f, fuel = f + 1 := ⟨fuel - 1, by omega⟩
    rw [parseNode_head hh b1 (by omega) (by omega), rdFlag_ok (b := true) |>.mpr ⟨by omega, b2, rfl⟩]
    simp only
    rw [hl.parse b3 (by omega) hc (by omega)]
    simp only
    rw [rdFlag_ok (b := true) |>.mpr ⟨by omega, b4, rfl⟩]
    simp only
    rw [ih ⟨b5, hlim, hend, hfull', hfit'⟩ (by omega)]

/-- A flaw met after some bytes that hold k nodes. -/
theorem FlawMet.after {byte : Nat → Byte} {limit avail c count n k : Nat} {flaw : Flaw} {pre bs : List Byte}
    (hp : BytesAt byte c pre) (h : FlawMet byte limit avail (c + pre.length) (count + k) flaw n bs) :
    FlawMet byte limit avail c count flaw (k + n) (pre ++ bs) := by
  obtain ⟨h1, h2, h3, h4, h5⟩ := h
  refine ⟨bytesAt_append.mpr ⟨hp, h1⟩, ?_, fun h => ?_, fun h => ?_, fun h => ?_⟩
  · rwa [List.length_append, ← Nat.add_assoc]
  · rw [List.length_append, ← Nat.add_assoc]
    exact h3 h
  · rw [← Nat.add_assoc]
    exact h4 h
  · rw [← Nat.add_assoc]
    exact h5 h

/-- A flag's place where `rdflag()` does not read a flag that may stand there has a flaw, and CORRUPTED_ARCHIVE is its code. -/
theorem flawedFlag_of_read {byte : Nat → Byte} {allowed : List Byte} {limit avail c count : Nat}
    (hall : ∀ x ∈ allowed, x = 0x00 ∨ x = 0x01) (hc : c ≤ limit) (hn : count ≤ avail)
    (h : ∀ b c', rdFlag byte limit c = .ok (b, c') → flagByte b ∉ allowed) :
    ∃ flaw fl, FlawedFlag flaw allowed fl ∧ FlawMet byte limit avail c count flaw 0 fl ∧
      ErrCode.corruptedArchive = flaw.code := by
  have bad : c < limit → byte c ∉ allowed → ∃ flaw fl, FlawedFlag flaw allowed fl ∧
      FlawMet byte limit avail c count flaw 0 fl ∧ ErrCode.corruptedArchive = flaw.code := fun hlt hx =>
    ⟨.badFlag, [byte c], .inr ⟨rfl, _, hx, rfl⟩, ⟨bytesAt_cons.mpr ⟨rfl, fun k hk => by simp at hk⟩, hlt,
      fun h => (by cases h), fun h => (by cases h), fun _ => hn⟩, rfl⟩
  obtain ⟨hle, -⟩ | ⟨hlt, h0, hr⟩ | ⟨hlt, h0, hr⟩ | ⟨hlt, h0, h1, -⟩ := rdFlag_cases byte limit c
  · exact ⟨.truncated, [], .inl ⟨rfl, rfl⟩, ⟨fun k hk => by simp at hk, hc, fun _ => (by simp; omega),
      fun h => (by cases h), fun _ => hn⟩, rfl⟩
  · exact bad hlt (h0 ▸ h _ _ hr)
  · exact bad hlt (h0 ▸ h _ _ hr)
  · exact bad hlt fun hx => (hall _ hx).elim h0 h1

/-- Where `node()` fails stands a flawed node, and the flaw's code is what it reports (R185, R187). -/
theorem parseNode_flawedNode {byte : Nat → Byte} {kind : TreeKind} {limit avail fuel c count : Nat} {e : ErrCode}
    (hc : c ≤ limit) (hcount : count ≤ avail) (hf : avail + 1 ≤ fuel + count)
    (h : parseNode byte kind limit avail fuel c count = .error e) :
    ∃ flaw n bs, FlawedNode kind flaw n bs ∧ FlawMet byte limit avail c count flaw n bs ∧ e = flaw.code := by
  induction fuel generalizing c count with
  | zero => omega
  | succ fuel ih =>
    by_cases hn : count + 1 ≤ avail
    swap
    · rw [parseNode, if_pos (by omega)] at h
      cases h
      exact ⟨.noRoom, 1, [], .noRoom rfl,
        ⟨fun k hk => by simp at hk, hc, fun h => (by cases h), fun _ => by omega, fun h => (h rfl).elim⟩, rfl⟩
    obtain ⟨w, hd, hh, hb⟩ := nodeHead_at kind byte c
    by_cases hl : c + hd.length ≤ limit
    swap
    · refine ⟨.truncated, 1, hd.take (limit - c), .head _ w hd _ rfl hh (hd.take_prefix _) ?_, ⟨?_, ?_, ?_, ?_, ?_⟩, ?_⟩
      · intro he
        have := congrArg List.length he
        simp only [List.length_take] at this
        omega
      · intro k hk
        rw [List.getElem_take]
        exact hb k (by simp only [List.length_take] at hk; omega)
      · simp only [List.length_take]
        omega
      · intro _
        simp only [List.length_take]
        omega
      · intro h
        cases h
      · exact fun _ => hn
      · rw [parseNode, if_neg (Nat.not_lt.mpr hn)] at h
        obtain he | ⟨v, hv, he⟩ := hh.cut byte (limit := limit) (c := c) (by omega)
        · rw [he] at h
          cases h
          rfl
        · rw [hv] at h
          simp only [he] at h
          cases h
          rfl
    rw [parseNode_head hh hb hl hn] at h
    cases hr : rdFlag byte limit (c + hd.length) with
    | error e' =>
      obtain rfl := rdFlag_error hr
      simp only [hr] at h
      obtain ⟨flaw, fl, h1, h2, h3⟩ := flawedFlag_of_read (allowed := [0x00, 0x01]) (by simp) hl hn
        (fun b c' h => by rw [hr] at h; cases h)
      cases h
      exact ⟨flaw, 1, hd ++ fl, .leftFlag _ w hd fl hh h1, h2.after hb, h3⟩
    | ok r =>
      obtain ⟨b, c3⟩ := r
      obtain ⟨hlt, hx, rfl⟩ := rdFlag_ok.mp hr
      simp only [hr] at h
      have hb1 : BytesAt byte c (hd ++ [flagByte b]) :=
        bytesAt_append.mpr ⟨hb, bytesAt_cons.mpr ⟨hx, fun k hk => by simp at hk⟩⟩
      have hlen : c + (hd ++ [flagByte b]).length = c + hd.length + 1 := by simp [Nat.add_assoc]
      cases b with
      | false =>
        simp only at h
        obtain ⟨flaw, fl, h1, h2, h3⟩ := flawedFlag_of_read (allowed := [0x00]) (byte := byte) (limit := limit)
          (c := c + hd.length + 1) (by simp) hlt hn fun b c' h' => by
            rw [h'] at h
            cases b
            · cases h
            · decide
        have he : e = .corruptedArchive := by
          split at h
          · rename_i hr2
            cases h
            exact rdFlag_error hr2
          · cases h
            rfl
          · cases h
        exact ⟨flaw, 1, _, .rightFlagOfLeaf _ w hd fl hh h1, FlawMet.after hb1 (hlen ▸ h2), he ▸ h3⟩
      | true =>
        simp only at h
        split at h
        · rename_i hrec
          cases h
          obtain ⟨flaw, n, bl, h1, h2, he⟩ := ih hlt hn (by omega) hrec
          exact ⟨flaw, 1 + n, _, .left _ w n hd bl hh h1, FlawMet.after hb1 (hlen ▸ h2), he⟩
        · rename_i l c4 n4 hrec
          obtain ⟨-, hle, rfl, hfit⟩ := parseNode_ok hrec
          obtain ⟨bl, hl1, hl2, rfl⟩ := parseNode_treeBytes hrec
          have hb2 : BytesAt byte c (hd ++ [0x01] ++ bl) := bytesAt_append.mpr ⟨hb1, hlen ▸ hl2⟩
          have hlen2 : c + (hd ++ [0x01] ++ bl).length = c + hd.length + 1 + bl.length := by
            simp only [List.length_append, List.length_singleton, Nat.add_assoc]
          cases hr2 : rdFlag byte limit (c + hd.length + 1 + bl.length) with
          | error e' =>
            obtain rfl := rdFlag_error hr2
            simp only [hr2] at h
            cases h
            obtain ⟨flaw, fl, h1, h2, h3⟩ := flawedFlag_of_read (allowed := [0x01]) (by simp) hle hfit
              (fun b c' h => by rw [hr2] at h; cases h)
            exact ⟨flaw, 1 + l.nodes, _, .rightFlag _ w l hd bl fl hh hl1 h1, FlawMet.after (k := 1 + l.nodes) (n := 0) hb2
                (by rwa [hlen2, ← Nat.add_assoc]), h3⟩
          | ok r =>
            obtain ⟨b, c5⟩ := r
            obtain ⟨hlt2, hx2, rfl⟩ := rdFlag_ok.mp hr2
            simp only [hr2] at h
            cases b with
            | false =>
              cases h
              obtain ⟨flaw, fl, h1, h2, h3⟩ := flawedFlag_of_read (allowed := [0x01]) (by simp) hle hfit
                (fun b c' h => by rw [hr2] at h; cases h; decide)
              exact ⟨flaw, 1 + l.nodes, _, .rightFlag _ w l hd bl fl hh hl1 h1, FlawMet.after (k := 1 + l.nodes) (n := 0) hb2
                (by rwa [hlen2, ← Nat.add_assoc]), h3⟩
            | true =>
              simp only at h
              split at h
              · rename_i hrec2
                cases h
                obtain ⟨flaw, n, br, h1, h2, he⟩ := ih hlt2 hfit (by omega) hrec2
                have hb3 : BytesAt byte c (hd ++ [0x01] ++ bl ++ [0x01]) :=
                  bytesAt_append.mpr ⟨hb2, hlen2 ▸ bytesAt_cons.mpr ⟨hx2, fun k hk => by simp at hk⟩⟩
                have hlen3 : c + (hd ++ [0x01] ++ bl ++ [0x01]).length = c + hd.length + 1 + bl.length + 1 := by
                  rw [List.length_append, ← Nat.add_assoc, hlen2]
                  rfl
                exact ⟨flaw, 1 + l.nodes + n, _, .right _ w l n hd bl br hh hl1 h1, FlawMet.after hb3
                  (by rwa [hlen3, ← Nat.add_assoc]), he⟩
              · cases h

/-- `node()` fails exactly on the byte strings of `FlawedNode`, with the flaw's code (R185, R187). -/
theorem parseNode_error_iff {byte : Nat → Byte} {kind : TreeKind} {limit avail fuel c count : Nat} {e : ErrCode}
    (hc : c ≤ limit) (hcount : count ≤ avail) (hf : avail + 1 ≤ fuel + count) :
    parseNode byte kind limit avail fuel c count = .error e ↔
      ∃ flaw n bs, FlawedNode kind flaw n bs ∧ FlawMet byte limit avail c count flaw n bs ∧ e = flaw.code := by
  constructor
  · exact parseNode_flawedNode hc hcount hf
  · rintro ⟨flaw, n, bs, h, hm, rfl⟩
    exact h.parse hm hf

/-- `parse` fails exactly when its bytes end before the top flag, the top flag is no flag byte, or the root is a flawed node (R185,
R187). -/
theorem parseTree_error_iff {byte : Nat → Byte} {kind : TreeKind} {base limit avail : Nat} {e : ErrCode} :
    parseTree byte kind base limit avail = .error e ↔
      (e = .corruptedArchive ∧ (limit ≤ base ∨ (base < limit ∧ byte base ≠ 0x00 ∧ byte base ≠ 0x01))) ∨
      (base < limit ∧ byte base = 0x01 ∧
        ∃ flaw n bs, FlawedNode kind flaw n bs ∧ FlawMet byte limit avail (base + 1) 0 flaw n bs ∧ e = flaw.code) := by
  unfold parseTree
  obtain ⟨hle, hf⟩ | ⟨hlt, hx, hf⟩ | ⟨hlt, hx, hf⟩ | ⟨hlt, h0, h1, hf⟩ := rdFlag_cases byte limit base <;> rw [hf]
  · constructor
    · rintro ⟨⟩
      exact .inl ⟨rfl, .inl hle⟩
    · rintro (⟨rfl, -⟩ | ⟨hlt, -⟩)
      · rfl
      · omega
  · constructor
    · rintro ⟨⟩
    · rintro (⟨-, hle | ⟨-, h, -⟩⟩ | ⟨-, h, -⟩)
      · omega
      · exact (h hx).elim
      · rw [hx] at h
        cases h
  · have h := parseNode_error_iff (byte := byte) (kind := kind) (e := e) (c := base + 1) (fuel := avail + 1) hlt
      (Nat.zero_le avail) (Nat.le_add_right _ 0)
    rw [← h]
    constructor
    · intro he
      simp only at he
      split at he
      · rename_i hp
        cases he
        exact .inr ⟨hlt, hx, hp⟩
      · cases he
    · rintro (⟨-, hle | ⟨-, -, h⟩⟩ | ⟨-, -, hp⟩)
      · omega
      · exact (h hx).elim
      · simp only [hp]
  · constructor
    · rintro ⟨⟩
      exact .inl ⟨rfl, .inr ⟨hlt, h0, h1⟩⟩
    · rintro (⟨rfl, -⟩ | ⟨-, hx, -⟩)
      · rfl
      · exact (h1 hx).elim

/-- IN holds a byte and what follows it. -/
theorem State.inHolds_cons {s : State} {c : Nat} {x : Byte} {bs : List Byte} :
    s.inHolds c (x :: bs) ↔ c + 1 + bs.length ≤ s.inLen.toNat ∧ s.inByte c = x ∧ BytesAt s.inByte (c + 1) bs := by
  rw [← bytesAt_cons (byte := s.inByte), Nat.add_assoc, Nat.add_comm 1]
  rfl

end Sys2Proof.Machine
end

