-- ==== Sys2Proof/Laws/PerInstr.lean ====
section
/-! SUPPORT. The per-instruction family `Encoded`: the fields of the word each command is encoded by (R80, R81, R83). -/

namespace Sys2Proof.Laws.Encoded

/-- The command is well-formed, and its word has its opcode in OPC, its operand in IMM8 and 0 in both reserved fields. -/
def Statement (i : Instr) : Prop :=
  i.wellFormed = true ∧ opcField (encode i) = opcodeOf i ∧ immField (encode i) = immediateOf i ∧
    rsvdHi (encode i) = 0#32 ∧ rsvdLo (encode i) = 0#16

/-- The four fields of R80 of a word, given as a number. -/
theorem fields_of_word (w : Word) (opc imm : Byte) (h : w.toNat = opc.toNat * 16777216 + imm.toNat * 65536) :
    opcField w = opc ∧ immField w = imm ∧ rsvdHi w = 0#32 ∧ rsvdLo w = 0#16 := by
  have ho := opc.isLt
  have hi := imm.isLt
  refine ⟨?_, ?_, ?_, ?_⟩ <;> apply BitVec.eq_of_toNat_eq <;>
    simp only [opcField, immField, rsvdHi, rsvdLo, BitVec.extractLsb'_toNat, Nat.shiftRight_eq_div_pow, h, BitVec.toNat_ofNat] <;>
    omega

/-- The word of a command as a number. -/
theorem encode_toNat (i : Instr) :
    (encode i).toNat = (opcodeOf i).toNat * 16777216 + (immediateOf i).toNat * 65536 := by
  have ho := (opcodeOf i).isLt
  have hi := (immediateOf i).isLt
  rw [encode, BitVec.toNat_ofNat, Nat.mod_eq_of_lt (by omega)]; omega

/-- The statement holds as soon as the command is well-formed. -/
theorem statement_of_wellFormed (i : Instr) (h : i.wellFormed = true) : Statement i :=
  ⟨h, fields_of_word _ _ _ (encode_toNat i)⟩

theorem nop : Statement .nop := statement_of_wellFormed _ rfl
theorem bvClear : Statement .bvClear := statement_of_wellFormed _ rfl
theorem bvGet : Statement .bvGet := statement_of_wellFormed _ rfl
theorem bvSet (val : Bool) : Statement (.bvSet val) := statement_of_wellFormed _ rfl
theorem bvAppend (val : Bool) : Statement (.bvAppend val) := statement_of_wellFormed _ rfl
theorem bvReserve : Statement .bvReserve := statement_of_wellFormed _ rfl
theorem bvPack : Statement .bvPack := statement_of_wellFormed _ rfl
theorem bvUnpack : Statement .bvUnpack := statement_of_wellFormed _ rfl
theorem freqClear : Statement .freqClear := statement_of_wellFormed _ rfl
theorem build : Statement .build := statement_of_wellFormed _ rfl
theorem treeClear : Statement .treeClear := statement_of_wellFormed _ rfl
theorem pqClear : Statement .pqClear := statement_of_wellFormed _ rfl
theorem pqPushLeaf (sym : Byte) : Statement (.pqPushLeaf sym) := statement_of_wellFormed _ rfl
theorem pqMerge : Statement .pqMerge := statement_of_wellFormed _ rfl
theorem pqPop : Statement .pqPop := statement_of_wellFormed _ rfl
theorem encodeSym (sym : Byte) : Statement (.encodeSym sym) := statement_of_wellFormed _ rfl
theorem decodeSym : Statement .decodeSym := statement_of_wellFormed _ rfl
theorem height (sym : Byte) : Statement (.height sym) := statement_of_wellFormed _ rfl
theorem exportShape : Statement .exportShape := statement_of_wellFormed _ rfl
theorem exportFull : Statement .exportFull := statement_of_wellFormed _ rfl
theorem importShape : Statement .importShape := statement_of_wellFormed _ rfl
theorem importFull : Statement .importFull := statement_of_wellFormed _ rfl
theorem payloadEncode : Statement .payloadEncode := statement_of_wellFormed _ rfl
theorem payloadDecode : Statement .payloadDecode := statement_of_wellFormed _ rfl

end Sys2Proof.Laws.Encoded
end

