-- ==== Sys2Proof/Tests/Slice0.lean ====
section
/-! SUPPORT. The tests: ill-formed terms refused, command words of R83 and R89 decoded, single steps with the results of
spec/95_test_vectors.md (each test names its vector), and for every obligation with hypotheses a witness that meets them. -/

set_option Elab.async false

namespace Sys2Proof.Tests

open Sys2Proof Sys2Proof.Machine

/-! ## States and trees the tests use -/

/-- The state a command leaves. -/
def after (i : Instr) (s : State) : Option State :=
  match exec i s with
  | .next t => some t
  | .fault _ => none
  | .refused _ => none

/-- The state an access leaves. -/
def accessed (a : Answer) : Option State :=
  match a with
  | .next t => some t
  | .fault _ => none
  | .refused _ => none

/-- IN holds `bs` from offset 0, and IN_LEN counts them. -/
def withIn (bs : List Byte) (s : State) : State :=
  { s with mem := s.mem.setList Config.inBase bs, inLen := BitVec.ofNat 64 bs.length }

/-- The first n bytes of OUT. -/
def outBytes (n : Nat) (s : State) : List Byte := (List.range n).map s.outByte

def freqs (l : List (Nat × Word)) (s : State) : State :=
  { s with freq := l.foldl (fun f p => f.setIfInBounds p.1 p.2) s.freq }

/-- T6 of spec/95_test_vectors.md. -/
def t6 : Tree :=
  .node 100 (.leaf 0x66 45)
    (.node 55 (.node 25 (.leaf 0x63 12) (.leaf 0x64 13)) (.node 30 (.node 14 (.leaf 0x61 5) (.leaf 0x62 9)) (.leaf 0x65 16)))

/-- SH6 of spec/95_test_vectors.md. -/
def sh6 : List Byte :=
  [0x01, 0x00, 0x01, 0x66, 0x00, 0x00, 0x01, 0x00, 0x01, 0x00, 0x01, 0x63, 0x00, 0x00, 0x01, 0x64, 0x00, 0x00] ++
  [0x01, 0x00, 0x01, 0x00, 0x01, 0x61, 0x00, 0x00, 0x01, 0x62, 0x00, 0x00, 0x01, 0x65, 0x00, 0x00]

def withT6 : State := { State.reset with tree := some t6 }

/-- Node(0, Leaf('a',0), Leaf('b',0)) of V-S12. -/
def ab : Tree := .node 0 (.leaf 0x61 0) (.leaf 0x62 0)

/-- bv = [0,1,0]. -/
def bits010 (arg : Word) : State := { State.reset with bv := [false, true, false], arg := arg }

/-- A command in flight, and the read of BUSY = 0 it makes the host owe. -/
def inFlight (w : Word) (d : Nat) : State :=
  { State.reset with flight := some { word := w, delay := d }, awaiting := true }

/-! ## Ill-formed terms are refused -/

theorem test_wellformed_caps : Caps.reference.Ok := by decide

theorem test_illformed_caps : ∀ c ∈
    [Caps.mk 4095 4096 4096 511 256, Caps.mk (2 ^ 32 + 1) 4096 4096 511 256, Caps.mk 4096 4095 4096 511 256,
      Caps.mk 4096 65537 4096 511 256, Caps.mk 4096 4096 4095 511 256, Caps.mk 4096 4096 65537 511 256,
      Caps.mk 4096 4096 4096 510 256, Caps.mk 4096 4096 4096 (2 ^ 64) 256, Caps.mk 4096 4096 4096 511 255,
      Caps.mk 4096 4096 4096 511 (2 ^ 64)], ¬c.Ok := by decide

theorem test_illformed_register_width : BusOp.wellFormed Caps.reference (.read 0x018 4) = false := by decide

theorem test_illformed_register_alignment : BusOp.wellFormed Caps.reference (.write 0x01C 8 0) = false := by decide

theorem test_illformed_window_width : BusOp.wellFormed Caps.reference (.read 0x10000 3) = false := by decide

theorem test_illformed_window_alignment : BusOp.wellFormed Caps.reference (.write 0x20001 2 0) = false := by decide

theorem test_illformed_window_crossing :
    BusOp.wellFormed { Caps.reference with inBytes := 4100 } (.read 0x11000 8) = false := by decide

/-- The register map's reserved offsets take 64-bit accesses only, the range above the windows naturally aligned ones (R255, log 9). -/
theorem test_illformed_reserved :
    ∀ op ∈ [BusOp.read 0x01000 1, .read 0x01000 0, .read 0x01004 8, .write 0x0FFFF 2 0, .read 0x30000 0, .read 0x30000 3,
      .write 0x30001 2 0, .read 0x3FFFF 2], BusOp.wellFormed Caps.reference op = false := by decide

theorem test_illformed_lines :
    Line.wellFormed (.wrbIn 65536 0) = false ∧ Line.wellFormed (.rdbOut 65536) = false ∧
      Line.wellFormed (.inload 65535 [0x61, 0x62]) = false := by decide

/-- The step refuses, by name, what the check refuses (R62, R63, R255). -/
theorem test_refused_accesses :
    busRead 0x018 4 State.reset = .refused (.registerAccess 0x018 4) ∧
      busWrite 0x20001 2 0 State.reset = .refused (.windowAccess 0x20001 2) ∧
      busRead 0x01000 3 State.reset = .refused (.registerAccess 0x01000 3) ∧
      busRead 0x30001 8 State.reset = .refused (.rangeAccess 0x30001 8) := ⟨rfl, rfl, rfl, rfl⟩

/-! ## Decoding: R83's opcode map, a word for each row, and R89's examples -/

theorem test_decode_control : decode 0x00000000 = .ok .nop := by decide

theorem test_decode_bit_vector :
    decode 0x10000000 = .ok .bvClear ∧ decode 0x11000000 = .ok .bvGet ∧ decode 0x12000000 = .ok (.bvSet false) ∧
      decode 0x12010000 = .ok (.bvSet true) ∧ decode 0x13000000 = .ok (.bvAppend false) ∧
      decode 0x13010000 = .ok (.bvAppend true) ∧ decode 0x14000000 = .ok .bvReserve ∧
      decode 0x15000000 = .ok .bvPack ∧ decode 0x16000000 = .ok .bvUnpack := by decide

theorem test_decode_queue :
    decode 0x20000000 = .ok .freqClear ∧ decode 0x21000000 = .ok .build ∧ decode 0x22000000 = .ok .treeClear ∧
      decode 0x23000000 = .ok .pqClear ∧ decode 0x24610000 = .ok (.pqPushLeaf 0x61) ∧
      decode 0x25000000 = .ok .pqMerge ∧ decode 0x26000000 = .ok .pqPop := by decide

theorem test_decode_codec :
    decode 0x30610000 = .ok (.encodeSym 0x61) ∧ decode 0x31000000 = .ok .decodeSym ∧
      decode 0x32FF0000 = .ok (.height 0xFF) := by decide

theorem test_decode_formats :
    decode 0x40000000 = .ok .exportShape ∧ decode 0x41000000 = .ok .exportFull ∧ decode 0x42000000 = .ok .importShape ∧
      decode 0x43000000 = .ok .importFull ∧ decode 0x50000000 = .ok .payloadEncode ∧
      decode 0x51000000 = .ok .payloadDecode := by decide

/-- V-N6, V-N2, V-N3, V-N7, V-N4, V-N5. -/
theorem test_decode_illegal :
    (∀ opc ∈ [0x01, 0x0F, 0x17, 0x1F, 0x27, 0x2F, 0x33, 0x3F, 0x44, 0x4F, 0x52, 0xFF],
        decode (BitVec.ofNat 64 (opc * 16777216)) = .error .unassignedOpcode) ∧
      decode 0x13020000 = .error .immediateOfFormB ∧ decode 0x21010000 = .error .immediateOfFormN ∧
      decode 0x00010000 = .error .immediateOfFormN ∧ decode 0x30610001 = .error .reservedBits ∧
      decode 0x0000000100000000 = .error .reservedBits := by decide

theorem test_decodeTableWord :
    decodeTableWord 64 0x24610000 = some (.pqPushLeaf 0x61) ∧ decodeTableWord 64 0x100000000 = none := by decide

/-! ## One step of each command -/

/-- V-N1. -/
theorem test_nop :
    (after .nop { State.reset with err := true, errcode := 4 }).map State.statusWord = some 0 := by decide +kernel

/-- V-BV15 with three bits. -/
theorem test_bvClear :
    (after .bvClear { bits010 0 with pos := 7 }).map (fun t => (t.bv, t.pos)) = some ([], 7) := by decide +kernel

/-- V-BV5. -/
theorem test_bvGet : (after .bvGet (bits010 1)).map (·.result) = some 1 := by decide +kernel

/-- V-BV7. -/
theorem test_bvGet_huge : (after .bvGet (bits010 0xFFFFFFFFFFFFFFFF)).map State.statusWord = some 0x102 := by
  decide +kernel

/-- V-BV2 at position 2. -/
theorem test_bvSet : (after (.bvSet true) (bits010 2)).map (·.bv) = some [false, true, true] := by decide +kernel

/-- V-BV4: set, not toggled. -/
theorem test_bvSet_same : (after (.bvSet true) (bits010 1)).map (·.bv) = some [false, true, false] := by decide +kernel

/-- V-BV9. -/
theorem test_bvAppend : (after (.bvAppend true) (bits010 0)).map (·.bv) = some [false, true, false, true] := by
  decide +kernel

/-- V-BV1. -/
theorem test_bvReserve :
    (after .bvReserve { State.reset with arg := 3 }).map (·.bv) = some [false, false, false] := by decide +kernel

/-- V-BV12: the sum does not wrap. -/
theorem test_bvReserve_huge :
    (after .bvReserve (bits010 0xFFFFFFFFFFFFFFFF)).map State.statusWord = some 0x502 := by decide +kernel

/-- The 15 bits of V-C2. -/
def aabc : List Bool :=
  [true, true, false, false, true, true, false, false, true, true, false, true, true, false, false]

/-- V-P1. -/
theorem test_bvPack :
    (after .bvPack { State.reset with bv := aabc }).map (fun t => (outBytes 2 t, t.outLen, t.result)) =
      some ([0x33, 0x1B], 2, 2) := by decide +kernel

/-- V-P2. -/
theorem test_bvUnpack :
    (after .bvUnpack (withIn [0x33, 0x1B] { State.reset with arg := 2 })).map (fun t => (t.bv, t.inRp)) =
      some (aabc ++ [false], 2) := by decide +kernel

/-- V-P15: IN_RP > IN_LEN, even with n = 0. -/
theorem test_bvUnpack_underrun :
    (after .bvUnpack { State.reset with inLen := 3, inRp := 5 }).map State.statusWord = some 0x802 := by decide +kernel

/-- V-B10. -/
theorem test_freqClear :
    (after .freqClear (freqs [(0x61, 5)] State.reset)).map (·.freqOf 0x61) = some 0 := by decide +kernel

/-- V-B1. -/
theorem test_build :
    (after .build (freqs [(0x61, 5), (0x62, 9), (0x63, 12), (0x64, 13), (0x65, 16), (0x66, 45)] State.reset)).map
      (fun t => (t.tree, t.pq, t.nodesUsed)) = some (some t6, [], 11) := by decide +kernel

/-- V-B5: among equal weights the earliest pushed is the left child. -/
theorem test_build_ties :
    (after .build (freqs [(0x61, 1), (0x62, 1), (0x63, 2)] State.reset)).map (·.tree) =
      some (some (.node 4 (.leaf 0x63 2) (.node 2 (.leaf 0x61 1) (.leaf 0x62 1)))) := by decide +kernel

/-- V-Q14. -/
theorem test_treeClear : (after .treeClear withT6).map (fun t => (t.tree, t.nodesUsed)) = some (none, 0) := by
  decide +kernel

/-- V-Q13 with one entry. -/
theorem test_pqClear :
    (after .pqClear { withT6 with pq := [.leaf 0x61 1] }).map (fun t => (t.pqLen, t.nodesUsed)) = some (0, 11) := by
  decide +kernel

/-- V-Q1. -/
theorem test_pqPushLeaf :
    (after (.pqPushLeaf 0x61) { State.reset with arg := 5 }).map (·.pq) = some [.leaf 0x61 5] := by decide +kernel

/-- V-Q2. -/
theorem test_pqMerge :
    (after .pqMerge { State.reset with pq := [.leaf 0x61 5, .leaf 0x62 9, .leaf 0x63 12] }).map (·.pq) =
      some [.leaf 0x63 12, .node 14 (.leaf 0x61 5) (.leaf 0x62 9)] := by decide +kernel

/-- V-Q7. -/
theorem test_pqMerge_overflow :
    (after .pqMerge { State.reset with pq := [.leaf 0 0xFFFFFFFFFFFFFFFF, .leaf 1 1] }).map
      (fun t => (t.statusWord, t.pqLen)) = some (0x702, 2) := by decide +kernel

/-- V-Q12. -/
theorem test_pqPop :
    (after .pqPop { State.reset with pq := [.leaf 0x62 3, .leaf 0x61 3] }).map (fun t => (t.tree, t.pq)) =
      some (some (.leaf 0x62 3), [.leaf 0x61 3]) := by decide +kernel

/-- V-Q6. -/
theorem test_pqPop_empty : (after .pqPop withT6).map (fun t => (t.statusWord, t.tree)) = some (0x202, some t6) := by
  decide +kernel

/-- V-C1, first command: the code of 'a' is 1100. -/
theorem test_encodeSym : (after (.encodeSym 0x61) withT6).map (·.bv) = some [true, true, false, false] := by decide +kernel

/-- V-C1, second command. -/
theorem test_encodeSym_absent : (after (.encodeSym 0x67) withT6).map State.statusWord = some 0x302 := by decide +kernel

/-- V-C4, second DECODE. -/
theorem test_decodeSym :
    (after .decodeSym { withT6 with bv := [true, true, false, false, true, true, false, false], pos := 4 }).map
      (fun t => (t.result, t.pos)) = some (0x61, 8) := by decide +kernel

/-- V-C14: the bits run out inside a code. -/
theorem test_decodeSym_cut :
    (after .decodeSym { withT6 with bv := [true, true, false] }).map (fun t => (t.statusWord, t.pos)) =
      some (0x402, 0) := by decide +kernel

/-- V-C6, first command. -/
theorem test_height : (after (.height 0x66) withT6).map (fun t => (t.statusWord, t.result)) = some (0x4, 1) := by
  decide +kernel

/-- V-C6, third command. -/
theorem test_height_absent :
    (after (.height 0x7A) { withT6 with found := true, result := 4 }).map (fun t => (t.statusWord, t.result)) =
      some (0, 0) := by decide +kernel

/-- V-S1. -/
theorem test_exportShape :
    (after .exportShape withT6).map (fun t => (outBytes 34 t, t.outLen, t.result)) = some (sh6, 34, 34) := by
  decide +kernel

/-- V-S11, full form, its first 29 bytes. -/
theorem test_exportFull :
    (after .exportFull { State.reset with tree := some (.node 2 (.leaf 0x00 1) (.leaf 0xFF 1)) }).map
      (fun t => (outBytes 30 t, t.outLen)) =
      some ([0x01, 0x00, 0x00, 0x00, 0x00, 0x02, 0x00, 0x00, 0x00, 0x00, 0x00, 0x00, 0x00, 0x01, 0x00, 0x00] ++
        [0x00, 0x00, 0x01, 0x00, 0x00, 0x00, 0x00, 0x00, 0x00, 0x00, 0x00, 0x00, 0x01, 0xFF], 43) := by decide +kernel

/-- V-S12: the placeholder 0x55 is discarded. -/
theorem test_importShape :
    (after .importShape (withIn [0x01, 0x55, 0x01, 0x61, 0x00, 0x00, 0x01, 0x62, 0x00, 0x00] State.reset)).map
      (fun t => (t.tree, t.inRp, t.result)) = some (some ab, 10, 10) := by decide +kernel

/-- V-S6: one child only. -/
theorem test_importShape_one_child :
    (after .importShape (withIn [0x01, 0x00, 0x01, 0x61, 0x00, 0x00, 0x00] withT6)).map
      (fun t => (t.statusWord, t.tree, t.inRp)) = some (0x402, some t6, 0) := by decide +kernel

/-- V-S5. -/
theorem test_importFull :
    (after .importFull (withIn ([0x01, 0x78, 0x00, 0x00, 0x00, 0x03, 0x00, 0x00, 0x00, 0x00, 0x00, 0x00, 0x00] ++
        [0x00, 0x00]) State.reset)).map (fun t => (t.tree, t.inRp, t.result)) = some (some (.leaf 0x78 3), 15, 15) := by
  decide +kernel

/-- V-P3. -/
theorem test_payloadEncode :
    (after .payloadEncode (withIn [0x61, 0x61, 0x62, 0x63] { withT6 with arg := 4 })).map
      (fun t => (outBytes 44 t, t.outLen, t.inRp, t.result, t.bv)) =
      some (sh6 ++ [0x04, 0x00, 0x00, 0x00, 0x00, 0x00, 0x00, 0x00, 0x33, 0x1B], 44, 4, 44, []) := by decide +kernel

/-- V-P12. -/
theorem test_payloadEncode_absent :
    (after .payloadEncode (withIn [0x61, 0x67, 0x62] { withT6 with arg := 3 })).map
      (fun t => (t.statusWord, t.outLen, t.inRp)) = some (0x302, 0, 0) := by decide +kernel

/-- The bytes of V-P21. -/
def abba : List Byte :=
  [0x01, 0x00, 0x01, 0x61, 0x00, 0x00, 0x01, 0x62, 0x00, 0x00, 0x04, 0x00, 0x00, 0x00, 0x00, 0x00, 0x00, 0x00, 0x06]

/-- V-P21. -/
theorem test_payloadDecode :
    (after .payloadDecode (withIn abba State.reset)).map (fun t => (outBytes 4 t, t.tree, t.inRp, t.result)) =
      some ([0x61, 0x62, 0x62, 0x61], some ab, 19, 4) := by decide +kernel

/-- V-P11: a payload with no packed byte, cut by one byte. -/
theorem test_payloadDecode_cut :
    (after .payloadDecode (withIn [0x01, 0x78, 0x00, 0x00, 0x03, 0x00, 0x00, 0x00, 0x00, 0x00, 0x00] State.reset)).map
      State.statusWord = some 0x402 := by decide +kernel

/-! ## Accesses, reset and hazards -/

/-- V-M1, V-M8, and R50's reset value of every other register, with the reference capacities of R6. -/
theorem test_read_registers :
    ∀ p ∈ [(0x000, (0x48544331 : Word)), (0x008, 0), (0x010, 0), (0x018, 0), (0x020, 0), (0x028, 0), (0x030, 0), (0x038, 0),
        (0x040, 0), (0x048, 0), (0x050, 0), (0x058, 0), (0x060, 0), (0x068, 1048576), (0x070, 65536), (0x078, 65536),
        (0x080, 1024), (0x088, 512), (0x800, 0), (0xFF8, 0)],
      (accessed (busRead p.1 8 State.reset)).map (·.reads) = some [p.2] := by decide +kernel

/-- V-M2, V-M3: little-endian. -/
theorem test_read_window :
    (accessed (busRead 0x10000 8 (withIn [1, 2, 3, 4, 5, 6, 7, 8] State.reset))).map (·.reads) =
        some [0x0807060504030201] ∧
      (accessed (busRead 0x10002 2 (withIn [1, 2, 3, 4, 5, 6, 7, 8] State.reset))).map (·.reads) = some [0x0403] := by
  decide +kernel

/-- V-M4. -/
theorem test_write_clamps :
    (accessed (busWrite 0x038 8 0x100000000 State.reset)).map (·.inLen) = some 65536 := by decide +kernel

/-- V-R1, V-R2. -/
theorem test_write_status :
    (accessed (busWrite 0x010 8 0x8 { State.reset with haz := true })).map (·.haz) = some false ∧
      (accessed (busWrite 0x010 8 0x7 { State.reset with haz := true })).map (·.haz) = some true := by decide +kernel

/-- V-R3. -/
theorem test_soft_reset :
    (accessed (busWrite 0x060 8 1 (freqs [(0x61, 5)] { withT6 with bv := aabc, err := true, errcode := 4 }))).map
      (fun t => (t.tree, t.bvLen, t.freqOf 0x61, t.statusWord)) = some (none, 0, 0, 0) := by decide +kernel

/-- V-R5, both orders: (a) the engine first, its latency spent; (b) the ARG write first. -/
theorem test_race :
    (accessed (step (freqs [(0x61, 5)] { inFlight 0x21000000 0 with host := [wrReg .arg 7, .wait] }))).map
        (fun t => (t.tree, t.haz, t.arg)) = some (some (.leaf 0x61 5), false, 0) ∧
      (accessed (step (freqs [(0x61, 5)] { inFlight 0x21000000 1 with host := [wrReg .arg 7, .wait] }))).map
        (fun t => (t.tree, t.haz, t.arg, t.busy)) = some (none, true, 0, true) := by decide +kernel

/-- R256: a run whose last command has ended is not over before the host has read STATUS with BUSY = 0; a read of another register is no
such read, one of STATUS and a `wait` are. -/
theorem test_run_over :
    (accessed (step (inFlight 0 0))).map (fun t => (t.busy, t.host, t.runOver)) = some (false, [], false) ∧
      (accessed (step { State.reset with awaiting := true, host := [rdReg .arg] })).map State.runOver = some false ∧
      (accessed (step { State.reset with awaiting := true, host := [rdReg .status] })).map State.runOver = some true ∧
      (accessed (step { State.reset with awaiting := true, host := [.wait] })).map State.runOver = some true ∧
      (accessed (busWrite 0x008 8 0 State.reset)).map State.runOver = some false := by decide +kernel

/-- What the host asks of a word: it runs as the first command after reset. -/
theorem test_withFetchWord :
    (accessed (step (State.reset.withFetchWord 64 0x13010000))).map (·.bv) = some [true] := by decide +kernel

/-! ## Witnesses: concrete states and operands that meet the hypotheses of each obligation, clause by clause -/

/-- The invariant from its decidable parts. -/
theorem inv_of_parts (s : State) (caps : s.caps.Ok) (bv : s.bvLen ≤ s.caps.bvBits)
    (ptr : s.inLen.toNat ≤ s.caps.inBytes ∧ s.inRp.toNat ≤ s.caps.inBytes ∧ s.outLen.toNat ≤ s.caps.outBytes)
    (queue : s.pqLen ≤ s.caps.entries ∧ s.nodesUsed ≤ s.caps.nodes)
    (status : s.err = false ∧ s.errcode = 0) (owes : s.busy = s.awaiting) (wf : Memory.wf s.mem)
    (mem : ∀ c ∈ s.mem, Config.inBase ≤ c.1 ∧ c.1 < Config.inBase + s.caps.inBytes) : s.Inv where
  caps := caps
  bvLen := bv
  inLen := ptr.1
  inRp := ptr.2.1
  outLen := ptr.2.2
  pqLen := queue.1
  nodesUsed := queue.2
  errcode := by rw [status.2]; decide
  err := by rw [status.1, status.2]; decide
  inFlight := fun _ => status.1
  awaiting := fun h => by rw [← owes, h]
  memWf := wf
  memBacked := fun c hc => .inl (mem c hc)

theorem inv_of_bytes (bs : List Byte) (tree : Option Tree) (bv : List Bool) (pq : List Tree) (f : Option Flight) (pos : Word)
    (h : bs.length ≤ 64 ∧ bv.length ≤ 64 ∧ pq.length ≤ 64 ∧ nodesOf tree + totalNodes pq ≤ 1024 ∧
      Memory.wf (Memory.setList [] Config.inBase bs) ∧ ∀ c ∈ Memory.setList [] Config.inBase bs,
        Config.inBase ≤ c.1 ∧ c.1 < Config.inBase + 65536) :
    (withIn bs
      { State.reset with tree := tree, bv := bv, pq := pq, flight := f, pos := pos, awaiting := f.isSome }).Inv := by
  obtain ⟨h1, h2, h3, h4, h5, h6⟩ := h
  refine inv_of_parts _ test_wellformed_caps (Nat.le_trans h2 (show 64 ≤ 1048576 by decide))
    ⟨?_, show 0 ≤ 65536 by decide, show 0 ≤ 65536 by decide⟩ ⟨Nat.le_trans h3 (show 64 ≤ 512 by decide), h4⟩ ⟨rfl, rfl⟩ rfl h5 h6
  show (BitVec.ofNat 64 bs.length).toNat ≤ 65536
  rw [BitVec.toNat_ofNat]
  exact Nat.le_trans (Nat.mod_le _ _) (by omega)

/-- A tree of 2n + 1 nodes. -/
def chain : Nat → Tree
  | 0 => .leaf 0 0
  | n + 1 => .node 0 (.leaf 0 0) (chain n)

/-- The configuration of R6's minimums, with the tree register holding n nodes less than one above NODE_CAP. -/
def small : State := { State.reset with caps := Caps.mk 4096 4096 4096 511 256 }

theorem small_ok : small.caps.Ok := by decide

theorem witness_IllegalWordsAreTheReservedOnes : ∃ r, decode 0xFF000000 = .error r := ⟨_, rfl⟩

theorem witness_StepRunsTheDecodedCommand :
    (∃ (s : State) (f : Flight) (i : Instr), s.flight = some f ∧ s.host = [] ∧ decode f.word = .ok i) ∧
      (∃ (s : State) (f : Flight) (r : Reject), s.flight = some f ∧ s.host = [] ∧ decode f.word = .error r) ∧
      (∃ (s : State) (f : Flight) (i : Instr) (rest : List BusOp),
        s.flight = some f ∧ s.host = .wait :: rest ∧ decode f.word = .ok i) ∧
      ∃ (s : State) (f : Flight) (i : Instr), s.flight = some f ∧ s.host ≠ [] ∧ f.delay = 0 ∧ decode f.word = .ok i :=
  ⟨⟨inFlight 0x21000000 5, _, .build, rfl, rfl, by decide⟩,
    ⟨inFlight 0x13020000 5, _, .immediateOfFormB, rfl, rfl, by decide⟩,
    ⟨{ inFlight 0x21000000 5 with host := [.wait] }, _, .build, [], rfl, rfl, by decide⟩,
    ⟨{ inFlight 0x21000000 0 with host := [rdReg .pos] }, _, .build, rfl, by decide, rfl, by decide⟩⟩

theorem witness_IllegalWordRollsBack :
    ∃ (s : State) (w : Word) (r : Reject), s.caps.Ok ∧ s.busy = true ∧ decode w = .error r :=
  ⟨inFlight 0x13020000 0, 0x13020000, .immediateOfFormB, test_wellformed_caps, rfl, by decide⟩

theorem witness_StepIsOtherwiseTheHostsAccess :
    (∃ s : State, s.flight = none ∧ s.host = []) ∧
      (∃ (s : State) (a : Addr) (n : Nat) (rest : List BusOp), s.flight = none ∧ s.host = .read a n :: rest) ∧
      (∃ (s : State) (a : Addr) (n : Nat) (v : Word) (rest : List BusOp),
        s.flight = none ∧ s.host = .write a n v :: rest) ∧
      (∃ (s : State) (w : Word) (d : Nat) (a : Addr) (n : Nat) (rest : List BusOp),
        s.flight = some { word := w, delay := d + 1 } ∧ s.host = .read a n :: rest) ∧
      (∃ (s : State) (w : Word) (d : Nat) (a : Addr) (n : Nat) (v : Word) (rest : List BusOp),
        s.flight = some { word := w, delay := d + 1 } ∧ s.host = .write a n v :: rest) ∧
      (∃ (s : State) (rest : List BusOp), s.flight = none ∧ s.host = .wait :: rest) ∧
      (∃ (s : State) (rest : List BusOp), s.flight = none ∧ s.host = .check :: rest) ∧
      ∃ (s : State) (w : Word) (d : Nat) (rest : List BusOp),
        s.flight = some { word := w, delay := d + 1 } ∧ s.host = .check :: rest :=
  ⟨⟨State.reset, rfl, rfl⟩, ⟨{ State.reset with host := [rdReg .id] }, _, _, _, rfl, rfl⟩,
    ⟨{ State.reset with host := [wrReg .arg 1] }, _, _, _, _, rfl, rfl⟩,
    ⟨{ inFlight 0 1 with host := [rdReg .id] }, 0, 0, _, _, _, rfl, rfl⟩,
    ⟨{ inFlight 0 1 with host := [wrReg .arg 1] }, 0, 0, _, _, _, _, rfl, rfl⟩,
    ⟨{ State.reset with host := [.wait] }, _, rfl, rfl⟩, ⟨{ State.reset with host := [.check] }, _, rfl, rfl⟩,
    ⟨{ inFlight 0 1 with host := [.check] }, 0, 0, _, rfl, rfl⟩⟩

/-- HAZ set by a write while BUSY = 1; cleared by a STATUS write while BUSY = 0; cleared by a soft reset while BUSY = 1. -/
theorem witness_HazIsSticky :
    (∃ s t : State, step s = .next t ∧ s.haz = false ∧ t.haz = true) ∧
      (∃ s t : State, step s = .next t ∧ s.haz = true ∧ t.haz = false ∧ s.busy = false) ∧
      ∃ s t : State, step s = .next t ∧ s.haz = true ∧ t.haz = false ∧ s.busy = true :=
  ⟨⟨{ inFlight 0 1 with host := [wrReg .arg 7] }, _, rfl, rfl, rfl⟩,
    ⟨{ State.reset with haz := true, host := [wrReg .status 8] }, _, rfl, rfl, rfl, rfl⟩,
    ⟨{ inFlight 0 1 with haz := true, host := [wrReg .ctrl 1] }, _, rfl, rfl, rfl, rfl⟩⟩

theorem witness_CommandInFlightEnds : ∃ (s : State) (f : Flight), s.flight = some f ∧ f.delay = 3 :=
  ⟨inFlight 0 3, _, rfl, rfl⟩

theorem witness_ResetLeavesTheResetValues :
    Reg.arg ≠ .id ∧ Reg.arg ≠ .capBv ∧ Reg.arg ≠ .capIn ∧ Reg.arg ≠ .capOut ∧ Reg.arg ≠ .capNode ∧ Reg.arg ≠ .capPq := by
  decide

/-- A PAYLOAD_DECODE in flight in a state that meets the invariant. -/
theorem witness_EveryStepKeepsTheInvariant :
    ∃ s t : State, s.Inv ∧ step s = .next t ∧ t.tree ≠ s.tree ∧ t.mem ≠ s.mem :=
  ⟨withIn abba (inFlight 0x51000000 0), _,
    inv_of_bytes abba none [] [] _ 0 (by decide +kernel), rfl, by decide +kernel, by decide +kernel⟩

theorem witness_RollBackKeepsEverything : ∃ (i : Instr) (s t : State), s.caps.Ok ∧ exec i s = .next t ∧ t.err = true :=
  ⟨.pqPop, State.reset, _, test_wellformed_caps, rfl, rfl⟩

/-- Every error code but 6, by a command its row lists. -/
theorem witness_ErrorCodesByCommand :
    (after .bvGet State.reset).map (·.errcode) = some 1 ∧ (after .pqPop State.reset).map (·.errcode) = some 2 ∧
      (after (.encodeSym 0x61) State.reset).map (·.errcode) = some 3 ∧
      (after .decodeSym State.reset).map (·.errcode) = some 4 ∧
      (after .exportShape { withT6 with outLen := 65535 }).map (·.errcode) = some 5 ∧
      (after .pqMerge { State.reset with pq := [.leaf 0 0xFFFFFFFFFFFFFFFF, .leaf 1 1] }).map (·.errcode) = some 7 ∧
      (after .bvUnpack { State.reset with arg := 1 }).map (·.errcode) = some 8 := by decide +kernel

theorem witness_RegistersWrittenOnlyByTheirCommands :
    (∃ (i : Instr) (s t : State), exec i s = .next t ∧ t.found ≠ s.found) ∧
      (∃ (i : Instr) (s t : State), exec i s = .next t ∧ t.pos ≠ s.pos) ∧
      (∃ (i : Instr) (s t : State), exec i s = .next t ∧ t.result ≠ s.result) ∧
      (∃ (i : Instr) (s t : State), exec i s = .next t ∧ t.inRp ≠ s.inRp) ∧
      ∃ (i : Instr) (s t : State), exec i s = .next t ∧ t.outLen ≠ s.outLen :=
  ⟨⟨.height 0x66, withT6, _, rfl, by decide⟩, ⟨.decodeSym, { withT6 with bv := [false] }, _, rfl, by decide⟩,
    ⟨.bvGet, bits010 1, _, rfl, by decide⟩, ⟨.bvUnpack, withIn [1] { State.reset with arg := 1 }, _, rfl, by decide +kernel⟩,
    ⟨.exportShape, withT6, _, rfl, by decide +kernel⟩⟩

theorem witness_StorageWrittenOnlyByItsCommands :
    (∃ (i : Instr) (s t : State), exec i s = .next t ∧ t.freqOf 0x61 ≠ s.freqOf 0x61) ∧
      (∃ (i : Instr) (s t : State), exec i s = .next t ∧ t.tree ≠ s.tree ∧ t.pq ≠ s.pq) ∧
      (∃ (i : Instr) (s t : State), exec i s = .next t ∧ t.bvLen ≠ s.bvLen) ∧
      ∃ (i : Instr) (s t : State), exec i s = .next t ∧ i ≠ .bvClear ∧ (∀ v, i ≠ .bvSet v) ∧ t.bv = [true] :=
  ⟨⟨.freqClear, freqs [(0x61, 5)] State.reset, _, rfl, by decide +kernel⟩,
    ⟨.pqPop, { State.reset with pq := [.leaf 0x61 1] }, _, rfl, by decide⟩,
    ⟨.bvClear, bits010 0, _, rfl, by decide⟩,
    ⟨.bvAppend true, State.reset, _, rfl, by decide, by decide, rfl⟩⟩

/-- The first and the last OUT offset at or above OUT_LEN; a command that writes no window byte, and one that writes OUT[0] and OUT[1],
with the addresses just outside them. -/
theorem witness_WindowBytesWrittenOnlyAtOutLen :
    (∃ (s : State) (j : Nat), s.caps.Ok ∧ s.outLen.toNat = j ∧ j + 1 = s.caps.outBytes) ∧
      (∃ (s : State) (j : Nat), s.caps.Ok ∧ s.outLen.toNat = j ∧ j = 0 ∧ j < s.caps.outBytes) ∧
      (∃ s t : State, s.caps.Ok ∧ exec .nop s = .next t ∧ t.err = false) ∧
      ∃ s t : State, s.caps.Ok ∧ exec .bvPack s = .next t ∧ t.err = false ∧ t.result.toNat = 2 ∧
        ∀ a ∈ [0x1FFFF, 0x20002],
          ¬(Config.outBase + s.outLen.toNat ≤ a ∧ a < Config.outBase + s.outLen.toNat + t.result.toNat) :=
  ⟨⟨{ State.reset with outLen := 65535 }, 65535, test_wellformed_caps, by decide, by decide⟩,
    ⟨State.reset, 0, test_wellformed_caps, by decide, rfl, by decide⟩, ⟨State.reset, _, test_wellformed_caps, rfl, rfl⟩,
    ⟨{ State.reset with bv := aabc }, _, test_wellformed_caps, rfl, rfl, by decide +kernel, by decide +kernel⟩⟩

/-- pos = BV_LEN - 1 and pos = BV_LEN, for BV_GET and BV_SET. -/
theorem witness_BvGetReadsTheBit :
    (∃ s : State, s.arg.toNat + 1 = s.bv.length ∧ s.arg.toNat < s.bv.length) ∧
      ∃ s : State, s.arg.toNat = s.bv.length ∧ s.bv.length ≤ s.arg.toNat :=
  ⟨⟨bits010 2, by decide, by decide⟩, ⟨bits010 3, by decide, by decide⟩⟩

theorem witness_BvSetWritesTheBit :
    (∃ (s : State) (j : Nat), s.arg.toNat < s.bv.length ∧ j ≠ s.arg.toNat) ∧
      ∃ s : State, s.bv.length ≤ s.arg.toNat :=
  ⟨⟨bits010 0, 2, by decide, by decide⟩, ⟨bits010 3, by decide⟩⟩

/-- BV_LEN = BV_CAP - 1 and BV_LEN = BV_CAP. -/
theorem witness_BvAppendAddsTheBit :
    (∃ s : State, s.caps.Ok ∧ s.bv.length + 1 = s.caps.bvBits ∧ s.bv.length + 1 ≤ s.caps.bvBits) ∧
      ∃ s : State, s.caps.Ok ∧ s.bv.length = s.caps.bvBits ∧ s.caps.bvBits < s.bv.length + 1 :=
  ⟨⟨{ small with bv := List.replicate 4095 false }, small_ok, by decide +kernel, by decide +kernel⟩,
    ⟨{ small with bv := List.replicate 4096 false }, small_ok, by decide +kernel, by decide +kernel⟩⟩

/-- The sum at BV_CAP, one above it, and far beyond 64 bits. -/
theorem witness_BvReserveAddsZeroBits :
    (∃ (s : State) (j : Nat), s.bv.length + s.arg.toNat = s.caps.bvBits ∧ s.bv.length + s.arg.toNat ≤ s.caps.bvBits ∧
        s.bv.length ≤ j ∧ j < s.bv.length + s.arg.toNat) ∧
      (∃ s : State, s.caps.bvBits + 1 = s.bv.length + s.arg.toNat ∧ s.caps.bvBits < s.bv.length + s.arg.toNat) ∧
      ∃ s : State, 2 ^ 64 ≤ s.bv.length + s.arg.toNat ∧ s.caps.bvBits < s.bv.length + s.arg.toNat :=
  ⟨⟨bits010 1048573, 3, by decide, by decide, by decide, by decide⟩, ⟨bits010 1048574, by decide, by decide⟩,
    ⟨bits010 0xFFFFFFFFFFFFFFFF, by decide, by decide⟩⟩

theorem reset_inv : State.reset.Inv :=
  inv_of_parts _ test_wellformed_caps (by decide) (by decide) (by decide) ⟨rfl, rfl⟩ rfl (by decide) (by decide)

theorem witness_BvGetAfterWrite :
    (∃ s t : State, s.caps.Ok ∧ exec (.bvSet true) s = .next t ∧ t.err = true) ∧
    (∃ s t : State, s.Inv ∧ exec (.bvAppend true) s = .next t ∧ t.err = false) ∧
      ∃ (s t : State) (p : Word), exec (.bvSet true) s = .next t ∧ t.err = false ∧ p ≠ s.arg ∧ p.toNat < s.bvLen :=
  ⟨⟨bits010 3, _, test_wellformed_caps, rfl, rfl⟩, ⟨State.reset, _, reset_inv, rfl, rfl⟩, ⟨bits010 0, _, 2, rfl, rfl, by decide, by decide⟩⟩

/-! ### Queue and codec -/

/-- A sum of exactly 2^64 - 1. -/
theorem witness_PopminTakesTheEarliestLightest : ∃ a b : Tree, a.weight.toNat + b.weight.toNat + 1 = 2 ^ 64 :=
  ⟨.leaf 0 0xFFFFFFFFFFFFFFFF, .leaf 1 0, by decide⟩

/-- The queue one below PQ_CAP and the node store one below NODE_CAP; the queue full; the node store full. -/
theorem witness_PushLeafAppends :
    (∃ s : State, s.caps.Ok ∧ s.pq.length + 1 = s.caps.entries ∧ s.pq.length + 1 ≤ s.caps.entries ∧
        s.nodesUsed + 1 ≤ s.caps.nodes) ∧
      (∃ s : State, s.nodesUsed + 1 = s.caps.nodes ∧ s.pq.length + 1 ≤ s.caps.entries ∧ s.nodesUsed + 1 ≤ s.caps.nodes) ∧
      (∃ s : State, s.pq.length = s.caps.entries ∧ s.caps.entries < s.pq.length + 1) ∧
      ∃ s : State, s.pq.length < s.caps.entries ∧ s.nodesUsed = s.caps.nodes ∧ s.caps.nodes < s.nodesUsed + 1 :=
  ⟨⟨{ small with pq := List.replicate 255 (.leaf 0 0) }, small_ok, by decide +kernel, by decide +kernel, by decide +kernel⟩,
    ⟨{ small with tree := some (chain 254), pq := [.leaf 0 0] }, by decide +kernel, by decide +kernel, by decide +kernel⟩,
    ⟨{ small with pq := List.replicate 256 (.leaf 0 0) }, by decide +kernel, by decide +kernel⟩,
    ⟨{ small with tree := some (chain 255) }, by decide +kernel, by decide +kernel, by decide +kernel⟩⟩

/-- One entry; a sum of exactly 2^64; a sum of 2^64 - 1 with the node store full; the same with one node free. -/
theorem witness_MergeCombinesTheTwoLightest :
    (∃ s : State, s.pq.length = 1 ∧ s.pq.length < 2) ∧
      (∃ (s : State) (a b : Tree) (q rest : List Tree), popmin s.pq = some (a, q) ∧ popmin q = some (b, rest) ∧
        2 ^ 64 = a.weight.toNat + b.weight.toNat) ∧
      (∃ (s : State) (a b : Tree) (q rest : List Tree), popmin s.pq = some (a, q) ∧ popmin q = some (b, rest) ∧
        a.weight.toNat + b.weight.toNat + 1 = 2 ^ 64 ∧ s.nodesUsed = s.caps.nodes ∧ s.caps.nodes < s.nodesUsed + 1) ∧
      ∃ (s : State) (a b : Tree) (q rest : List Tree), popmin s.pq = some (a, q) ∧ popmin q = some (b, rest) ∧
        a.weight.toNat + b.weight.toNat + 1 = 2 ^ 64 ∧ s.nodesUsed + 1 = s.caps.nodes ∧ s.nodesUsed + 1 ≤ s.caps.nodes :=
  ⟨⟨{ State.reset with pq := [.leaf 0 0] }, by decide, by decide⟩,
    ⟨{ State.reset with pq := [.leaf 0 0xFFFFFFFFFFFFFFFF, .leaf 1 1] }, _, _, _, _, rfl, rfl, by decide⟩,
    ⟨{ small with tree := some (chain 254), pq := [.leaf 0 0xFFFFFFFFFFFFFFFF, .leaf 1 0] }, _, _, _, _, rfl, rfl,
      by decide, by decide +kernel, by decide +kernel⟩,
    ⟨{ small with tree := some (chain 253), pq := [.leaf 0 0xFFFFFFFFFFFFFFFF, .leaf 1 0, .leaf 2 0xFFFFFFFFFFFFFFFF] }, _, _,
      _, _, rfl, rfl, by decide, by decide +kernel, by decide +kernel⟩⟩

theorem witness_PopMovesTheLightestToTree :
    (∃ s : State, s.pq = []) ∧ ∃ (s : State) (t : Tree) (rest : List Tree), popmin s.pq = some (t, rest) ∧ rest ≠ [] :=
  ⟨⟨State.reset, rfl⟩, ⟨{ State.reset with pq := [.leaf 0x61 2, .leaf 0x62 1] }, _, _, rfl, by decide⟩⟩

/-- The total at 2^64 - 1 and at 2^64 (V-B9, V-B8). -/
theorem witness_BuildReplacesTheTree :
    (∃ s : State, s.freqTotal + 1 = 2 ^ 64 ∧ s.freqTotal < 2 ^ 64) ∧ (∃ s : State, 2 ^ 64 = s.freqTotal) :=
  ⟨⟨freqs [(0, 0xFFFFFFFFFFFFFFFF)] State.reset, by decide +kernel, by decide +kernel⟩,
    ⟨freqs [(0, 0xFFFFFFFFFFFFFFFF), (1, 1)] State.reset, by decide +kernel⟩⟩

/-- A test on what a command leaves, as a fact about `exec`. -/
theorem exec_of_after {α : Type} (i : Instr) (s : State) (f : State → α) (v : α) (h : (after i s).map f = some v) :
    ∃ t, exec i s = .next t ∧ f t = v := by
  unfold after at h
  split at h
  · exact ⟨_, ‹_›, Option.some.inj h⟩
  · simp at h
  · simp at h

theorem witness_BuildWeightsAndLeaves :
    (∃ s : State, (includedSymbols s).map (fun sym => (sym, s.freqOf sym)) =
      [(0x61, 5), (0x62, 9), (0x63, 12), (0x64, 13), (0x65, 16), (0x66, 45)]) ∧
    ∃ (s t : State) (tree : Tree), exec .build s = .next t ∧ t.err = false ∧ t.tree = some tree ∧ tree.nodes = 5 := by
  refine ⟨⟨freqs [(0x61, 5), (0x62, 9), (0x63, 12), (0x64, 13), (0x65, 16), (0x66, 45)] State.reset, by decide +kernel⟩, ?_⟩
  obtain ⟨t, ht, hv⟩ := exec_of_after .build (freqs [(0x61, 1), (0x62, 1), (0x63, 2)] State.reset)
    (fun t => (t.err, t.tree)) (false, some (.node 4 (.leaf 0x63 2) (.node 2 (.leaf 0x61 1) (.leaf 0x62 1))))
    (by decide +kernel)
  exact ⟨_, t, _, ht, congrArg Prod.fst hv, congrArg Prod.snd hv, rfl⟩

/-- The step sequence ends with no included symbol, with one, and with three. -/
theorem witness_BuildEqualsItsSteps :
    (∃ t, runCommands (buildSteps State.reset) State.reset = some t) ∧
      (∃ t, runCommands (buildSteps (freqs [(0x78, 3)] State.reset)) (freqs [(0x78, 3)] State.reset) = some t) ∧
      ∃ t, runCommands (buildSteps (freqs [(0x61, 1), (0x62, 1), (0x63, 2)] State.reset))
        (freqs [(0x61, 1), (0x62, 1), (0x63, 2)] State.reset) = some t :=
  ⟨Option.isSome_iff_exists.mp (by decide +kernel), Option.isSome_iff_exists.mp (by decide +kernel),
    Option.isSome_iff_exists.mp (by decide +kernel)⟩

/-- No code; a code of 4 bits with 3 bits free (V-C11); a code of 3 bits with 3 bits free (V-C12). -/
theorem witness_EncodeAppendsTheCode :
    (∃ (s : State) (sym : Byte), codeOf s.tree sym = none) ∧
      (∃ (s : State) (sym : Byte) (c : List Bool),
        codeOf s.tree sym = some c ∧ s.bv.length + c.length = s.caps.bvBits + 1) ∧
      ∃ (s : State) (sym : Byte) (c : List Bool),
        codeOf s.tree sym = some c ∧ s.bv.length + c.length = s.caps.bvBits :=
  ⟨⟨withT6, 0x67, by decide⟩,
    ⟨{ small with tree := some t6, bv := List.replicate 4093 false }, 0x61, [true, true, false, false], by decide,
      by decide +kernel⟩,
    ⟨{ small with tree := some t6, bv := List.replicate 4093 false }, 0x63, [true, false, false], by decide,
      by decide +kernel⟩⟩

/-- No root; POS at BV_LEN with an internal root; the last bit of bv. -/
theorem witness_DecodeWalksTheTree :
    (∃ s : State, s.tree = none) ∧
      (∃ (s : State) (t : Tree), s.tree = some t ∧ s.pos.toNat = s.bv.length ∧
        walk (fun p => decide (p < s.bv.length)) (fun p => s.bv.getD p false) t s.pos.toNat = none) ∧
      ∃ (s : State) (t : Tree), s.tree = some t ∧ s.pos.toNat + 1 = s.bv.length ∧
        walk (fun p => decide (p < s.bv.length)) (fun p => s.bv.getD p false) t s.pos.toNat = some (0x66, 1) :=
  ⟨⟨State.reset, rfl⟩, ⟨{ withT6 with bv := [false], pos := 1 }, _, rfl, by decide, by decide⟩,
    ⟨{ withT6 with bv := [false] }, _, rfl, by decide, by decide⟩⟩

/-- A code that ends exactly at BV_LEN; the empty code of a single-leaf tree with POS beyond BV_LEN. -/
theorem witness_DecodeReadsBackACode :
    (∃ (s : State) (sym : Byte) (code : List Bool), s.Inv ∧ codeOf s.tree sym = some code ∧
        s.pos.toNat + code.length = s.bv.length ∧ ∀ k, k < code.length → s.bv[s.pos.toNat + k]? = code[k]?) ∧
      ∃ (s : State) (sym : Byte) (code : List Bool), s.Inv ∧ codeOf s.tree sym = some code ∧ code = [] ∧
        s.bv.length < s.pos.toNat :=
  ⟨⟨withIn [] { State.reset with tree := some t6, bv := [true, true, false, false], pos := 0 }, 0x61,
      [true, true, false, false], inv_of_bytes [] (some t6) _ [] none 0 (by decide +kernel), by decide, by decide, by decide⟩,
    ⟨withIn [] { State.reset with tree := some (.leaf 0x78 3), bv := [], pos := 5 }, 0x78, [],
      inv_of_bytes [] (some (.leaf 0x78 3)) _ [] none 5 (by decide +kernel), by decide, rfl, by decide⟩⟩

/-- V-C2: "aabc". -/
theorem witness_EncodeThenDecodeReturnsTheSymbols :
    ∃ s : State, s.Inv ∧ s.bv = [] ∧
      ∃ t, runCommands ([0x61, 0x61, 0x62, 0x63].map fun x => (s.arg, .encodeSym x)) s = some t :=
  ⟨withIn [] { State.reset with tree := some t6, bv := [], pos := 0 },
    inv_of_bytes [] (some t6) [] [] none 0 (by decide +kernel), rfl, Option.isSome_iff_exists.mp (by decide +kernel)⟩

theorem witness_HeightReportsPresence :
    (∃ (s : State) (sym : Byte), codeOf s.tree sym = none) ∧
      (∃ (s : State) (sym : Byte), codeOf s.tree sym = some []) ∧
      ∃ (s : State) (sym : Byte), codeOf s.tree sym = some [true, true, true] :=
  ⟨⟨State.reset, 0x61, rfl⟩, ⟨{ State.reset with tree := some (.leaf 0x78 3) }, 0x78, by decide⟩,
    ⟨withT6, 0x65, by decide⟩⟩

/-! ### Formats -/

/-- The bytes of each command end exactly at OUT_CAP, and one byte beyond it. -/
theorem witness_OutputCommandsAppendTheirBytes :
    (∃ s : State, s.caps.Ok ∧ s.outLen.toNat + (pack s.bv).length = s.caps.outBytes) ∧
      (∃ s : State, s.caps.Ok ∧ s.caps.outBytes + 1 = s.outLen.toNat + (pack s.bv).length) ∧
      (∃ s : State, s.caps.Ok ∧ s.outLen.toNat + (serShape s.tree).length = s.caps.outBytes) ∧
      (∃ s : State, s.caps.Ok ∧ s.caps.outBytes + 1 = s.outLen.toNat + (serShape s.tree).length) ∧
      (∃ s : State, s.caps.Ok ∧ s.outLen.toNat + (serFull s.tree).length = s.caps.outBytes) ∧
      ∃ s : State, s.caps.Ok ∧ s.caps.outBytes + 1 = s.outLen.toNat + (serFull s.tree).length :=
  ⟨⟨{ State.reset with bv := aabc, outLen := 65534 }, test_wellformed_caps, by decide +kernel⟩,
    ⟨{ State.reset with bv := aabc, outLen := 65535 }, test_wellformed_caps, by decide +kernel⟩,
    ⟨{ withT6 with outLen := 65502 }, test_wellformed_caps, by decide +kernel⟩,
    ⟨{ withT6 with outLen := 65503 }, test_wellformed_caps, by decide +kernel⟩,
    ⟨{ withT6 with outLen := 65381 }, test_wellformed_caps, by decide +kernel⟩,
    ⟨{ withT6 with outLen := 65382 }, test_wellformed_caps, by decide +kernel⟩⟩

theorem witness_FlagBytes :
    ∃ (byte : Nat → Byte) (limit : Nat), (0 < limit ∧ byte 0 = 0x00) ∧ (1 < limit ∧ byte 1 = 0x01) ∧
      2 < limit ∧ byte 2 ≠ 0x00 ∧ byte 2 ≠ 0x01 :=
  ⟨fun c => BitVec.ofNat 8 c, 3, ⟨by decide, rfl⟩, ⟨by decide, rfl⟩, by decide, by decide, by decide⟩

theorem inHolds_of (s : State) (c : Nat) (bs : List Byte)
    (h : c + bs.length ≤ s.inLen.toNat ∧ (List.range bs.length).map (fun k => s.inByte (c + k)) = bs) : s.inHolds c bs := by
  refine ⟨h.1, fun k hk => ?_⟩
  have e := congrArg (·[k]?) h.2
  simpa [hk] using e

def abBytes : List Byte := [0x01, 0x55, 0x01, 0x61, 0x00, 0x00, 0x01, 0x62, 0x00, 0x00]

theorem ab_grammar : TreeBytes .shape ab [0x55, 0x01, 0x61, 0x00, 0x00, 0x01, 0x62, 0x00, 0x00] :=
  .node 0x55 0 _ _ [0x55] [0x61, 0x00, 0x00] [0x62, 0x00, 0x00] ⟨rfl, rfl⟩ (.leaf 0x61 0 [0x61] ⟨rfl, rfl⟩)
    (.leaf 0x62 0 [0x62] ⟨rfl, rfl⟩)

/-- IN holds the empty tree (V-S3), and V-S12's tree in IN up to the last byte, with the placeholder 0x55. -/
theorem witness_ImportAcceptsExactlyTheGrammar :
    (∃ s : State, s.Inv ∧ s.inHolds s.inRp.toNat [0x00]) ∧
      (∃ (s : State) (t : Tree) (bs : List Byte), s.Inv ∧ TreeBytes .shape t bs ∧ s.inHolds s.inRp.toNat (0x01 :: bs) ∧
        t.nodes ≤ s.freeNodes) ∧
      ∃ (s : State) (t : Tree) (bs : List Byte), s.Inv ∧ TreeBytes .full t bs ∧ s.inHolds s.inRp.toNat (0x01 :: bs) ∧
        t.nodes ≤ s.freeNodes :=
  ⟨⟨withIn [0x00] { State.reset with tree := none, bv := [], pq := [], flight := none, pos := 0 },
      inv_of_bytes _ _ _ _ _ _ (by decide +kernel), inHolds_of _ _ _ (by decide +kernel)⟩,
    ⟨withIn abBytes { State.reset with tree := none, bv := [], pq := [], flight := none, pos := 0 }, ab, _,
      inv_of_bytes _ _ _ _ _ _ (by decide +kernel), ab_grammar, inHolds_of _ _ _ (by decide +kernel), by decide +kernel⟩,
    ⟨withIn (0x01 :: fullBody (.leaf 0x78 3))
        { State.reset with tree := none, bv := [], pq := [], flight := none, pos := 0 },
      .leaf 0x78 3, fullBody (.leaf 0x78 3), inv_of_bytes _ _ _ _ _ _ (by decide +kernel),
      .leaf 0x78 3 ([0x78, 0x00, 0x00, 0x00] ++ le64 3) ⟨_, _, _, rfl⟩, inHolds_of _ _ _ (by decide +kernel),
      by decide +kernel⟩⟩

/-- IN holds `bs`, and two nodes are free. -/
def twoFree (bs : List Byte) : State := withIn bs { State.reset with pq := [chain 510, .leaf 0 0] }

/-- A node of one byte in the shape-only form. -/
theorem shapeHead (x : Byte) : NodeHead .shape x 0 [x] := ⟨rfl, rfl⟩

/-- No input, and a top flag 02. With two nodes free, and the placeholder 55 in the root: an inner node with the flag 02; one with a
right child only; a root with a left child only; the root's left child cut after its symbol; a full-form leaf cut in its pad bytes AA.
A third node begun where two are free, and V-S12's tree of 3 nodes there. -/
theorem witness_ImportRefusesMalformedBytes :
    (∃ s : State, s.inLen.toNat ≤ s.inRp.toNat) ∧
      (∃ s : State, s.inRp.toNat < s.inLen.toNat ∧ s.inByte s.inRp.toNat ≠ 0x00 ∧ s.inByte s.inRp.toNat ≠ 0x01) ∧
      (∃ (s : State) (n : Nat) (bs : List Byte), n = s.freeNodes ∧ s.inHolds s.inRp.toNat (0x01 :: bs) ∧
        FlawedNode .shape .badFlag n bs ∧ bs = [0x55, 0x01, 0x61, 0x02]) ∧
      (∃ (s : State) (n : Nat) (bs : List Byte), n = s.freeNodes ∧ s.inHolds s.inRp.toNat (0x01 :: bs) ∧
        FlawedNode .shape .badFlag n bs ∧ bs = [0x55, 0x01, 0x61, 0x00, 0x01]) ∧
      (∃ (s : State) (n : Nat) (bs : List Byte), n = s.freeNodes ∧ s.inHolds s.inRp.toNat (0x01 :: bs) ∧
        FlawedNode .shape .badFlag n bs ∧ bs = [0x55, 0x01, 0x61, 0x00, 0x00, 0x00]) ∧
      (∃ (s : State) (n : Nat) (bs : List Byte), n = s.freeNodes ∧ s.inHolds s.inRp.toNat (0x01 :: bs) ∧
        FlawedNode .shape .truncated n bs ∧ bs = [0x55, 0x01, 0x61] ∧ s.inRp.toNat + 1 + bs.length = s.inLen.toNat) ∧
      (∃ (s : State) (n : Nat) (bs : List Byte), n ≤ s.freeNodes ∧ s.inHolds s.inRp.toNat (0x01 :: bs) ∧
        FlawedNode .full .truncated n bs ∧ bs = [0x78, 0xAA, 0xAA] ∧ s.inRp.toNat + 1 + bs.length = s.inLen.toNat) ∧
      (∃ (s : State) (bs : List Byte), s.inHolds s.inRp.toNat (0x01 :: bs) ∧
        FlawedNode .shape .noRoom (s.freeNodes + 1) bs ∧ bs = [0x55, 0x01, 0x61, 0x00, 0x00, 0x01]) ∧
      ∃ (s : State) (t : Tree) (bs : List Byte), TreeBytes .shape t bs ∧ s.inHolds s.inRp.toNat (0x01 :: bs) ∧
        s.freeNodes + 1 = t.nodes := by
  refine ⟨⟨State.reset, by decide⟩, ⟨twoFree [0x02], by decide +kernel, by decide +kernel, by decide +kernel⟩,
    ⟨twoFree [0x01, 0x55, 0x01, 0x61, 0x02], 2, _, by decide +kernel, inHolds_of _ _ _ (by decide +kernel),
      .left 0x55 0 1 [0x55] _ (shapeHead _)
        (.leftFlag 0x61 0 [0x61] [0x02] (shapeHead _) (.inr ⟨rfl, 0x02, by decide, rfl⟩)), rfl⟩,
    ⟨twoFree [0x01, 0x55, 0x01, 0x61, 0x00, 0x01], 2, _, by decide +kernel, inHolds_of _ _ _ (by decide +kernel),
      .left 0x55 0 1 [0x55] _ (shapeHead _)
        (.rightFlagOfLeaf 0x61 0 [0x61] [0x01] (shapeHead _) (.inr ⟨rfl, 0x01, by decide, rfl⟩)), rfl⟩,
    ⟨twoFree [0x01, 0x55, 0x01, 0x61, 0x00, 0x00, 0x00], 2, _, by decide +kernel, inHolds_of _ _ _ (by decide +kernel),
      .rightFlag 0x55 0 (.leaf 0x61 0) [0x55] [0x61, 0x00, 0x00] [0x00] (shapeHead _)
        (.leaf 0x61 0 [0x61] (shapeHead _)) (.inr ⟨rfl, 0x00, by decide, rfl⟩), rfl⟩,
    ⟨twoFree [0x01, 0x55, 0x01, 0x61], 2, _, by decide +kernel, inHolds_of _ _ _ (by decide +kernel),
      .left 0x55 0 1 [0x55] _ (shapeHead _) (.leftFlag 0x61 0 [0x61] [] (shapeHead _) (.inl ⟨rfl, rfl⟩)), rfl,
      by decide +kernel⟩,
    ⟨twoFree [0x01, 0x78, 0xAA, 0xAA], 1, _, by decide +kernel, inHolds_of _ _ _ (by decide +kernel),
      .head 0x78 0 ([0x78, 0xAA, 0xAA, 0x00] ++ le64 0) [0x78, 0xAA, 0xAA] rfl ⟨_, _, _, rfl⟩ (by decide) (by decide), rfl,
      by decide +kernel⟩,
    ⟨twoFree [0x01, 0x55, 0x01, 0x61, 0x00, 0x00, 0x01], _, inHolds_of _ _ _ (by decide +kernel), ?_, rfl⟩,
    ⟨twoFree abBytes, ab, _, ab_grammar, inHolds_of _ _ _ (by decide +kernel), by decide +kernel⟩⟩
  rw [show (twoFree [0x01, 0x55, 0x01, 0x61, 0x00, 0x00, 0x01]).freeNodes + 1 = 1 + 1 + 1 by decide +kernel]
  exact .right 0x55 0 (.leaf 0x61 0) 1 [0x55] [0x61, 0x00, 0x00] [] (shapeHead _) (.leaf 0x61 0 [0x61] (shapeHead _))
    (.noRoom rfl)

/-- T6 in both forms, with exactly its 11 nodes free. -/
theorem witness_ImportReadsBackAnExport :
    (∃ (s : State) (t : Option Tree), s.Inv ∧ nodesOf t ≤ s.freeNodes ∧ s.inHolds s.inRp.toNat (serFull t)) ∧
      ∃ (s : State) (t : Option Tree), s.Inv ∧ nodesOf t = s.freeNodes ∧ s.inHolds s.inRp.toNat (serShape t) :=
  ⟨⟨withIn (serFull (some ab)) { State.reset with tree := none, bv := [], pq := [], flight := none, pos := 0 }, some ab,
      inv_of_bytes _ _ _ _ _ _ (by decide +kernel), by decide +kernel, inHolds_of _ _ _ (by decide +kernel)⟩,
    ⟨withIn sh6 { State.reset with tree := none, bv := [], pq := [chain 506], flight := none, pos := 0 }, some t6,
      inv_of_bytes _ _ _ _ _ _ (by decide +kernel), by decide +kernel, inHolds_of _ _ _ (by decide +kernel)⟩⟩

/-- Bytes that hold `le64`; the first and last bit of a sequence and the first and last padding bit. -/
theorem witness_IntegerAndPackedBitLayouts :
    (∃ (v : Word) (byte : Nat → Byte), ∀ k, k < 8 → (le64 v)[k]? = some (byte (3 + k))) ∧
      (0 < aabc.length ∧ 14 < aabc.length) ∧ (aabc.length ≤ 15 ∧ 15 < 8 * (pack aabc).length) :=
  ⟨⟨0x0807060504030201, fun a => BitVec.ofNat 8 (a - 2), by decide +kernel⟩, by decide, by decide +kernel⟩

/-- n bytes up to IN_LEN and one more; bits up to BV_CAP and one byte more. -/
theorem witness_BvUnpackAppendsTheBits :
    (∃ s : State, s.inLen.toNat + 1 = s.inRp.toNat + s.arg.toNat) ∧
      (∃ s : State, s.inRp.toNat + s.arg.toNat = s.inLen.toNat ∧ s.caps.bvBits + 1 = s.bv.length + 8 * s.arg.toNat) ∧
      ∃ s : State, s.inRp.toNat + s.arg.toNat = s.inLen.toNat ∧ s.bv.length + 8 * s.arg.toNat = s.caps.bvBits :=
  ⟨⟨{ State.reset with inLen := 3, inRp := 2, arg := 2 }, by decide⟩,
    ⟨withIn [0xFF] { small with arg := 1, bv := List.replicate 4089 false }, by decide +kernel, by decide +kernel⟩,
    ⟨withIn [0xFF] { small with arg := 1, bv := List.replicate 4088 false }, by decide +kernel, by decide +kernel⟩⟩

/-- V-P13; V-P12; V-P3 one byte past OUT_CAP and exactly at OUT_CAP. -/
theorem witness_PayloadEncodeAppendsThePayload :
    (∃ s : State, s.inLen.toNat + 1 = s.inRp.toNat + s.arg.toNat) ∧
      (∃ s : State, s.inRp.toNat + s.arg.toNat = s.inLen.toNat ∧
        ∃ x ∈ s.inBytes s.inRp.toNat s.arg.toNat, codeOf s.tree x = none) ∧
      (∃ (s : State) (codes : List (List Bool)) (b : List Byte), s.caps.Ok ∧
        s.inRp.toNat + s.arg.toNat = s.inLen.toNat ∧
        (s.inBytes s.inRp.toNat s.arg.toNat).map (codeOf s.tree) = codes.map some ∧
        b = serShape s.tree ++ le64 s.arg ++ pack codes.flatten ∧ s.caps.outBytes + 1 = s.outLen.toNat + b.length) ∧
      ∃ (s : State) (codes : List (List Bool)) (b : List Byte), s.caps.Ok ∧
        s.inRp.toNat + s.arg.toNat = s.inLen.toNat ∧
        (s.inBytes s.inRp.toNat s.arg.toNat).map (codeOf s.tree) = codes.map some ∧
        b = serShape s.tree ++ le64 s.arg ++ pack codes.flatten ∧ s.outLen.toNat + b.length = s.caps.outBytes :=
  ⟨⟨{ State.reset with inLen := 3, arg := 4 }, by decide⟩,
    ⟨withIn [0x61, 0x67, 0x62] { withT6 with arg := 3 }, by decide +kernel, 0x67, by decide +kernel, by decide⟩,
    ⟨withIn [0x61, 0x66] { withT6 with arg := 2, outLen := 65494 }, [[true, true, false, false], [false]], _,
      test_wellformed_caps, by decide +kernel, by decide +kernel, rfl, by decide +kernel⟩,
    ⟨withIn [0x61, 0x66] { withT6 with arg := 2, outLen := 65493 }, [[true, true, false, false], [false]], _,
      test_wellformed_caps, by decide +kernel, by decide +kernel, rfl, by decide +kernel⟩⟩

/-- An idle state whose IN window holds bs. -/
def holding (bs : List Byte) : State :=
  withIn bs { State.reset with tree := none, bv := [], pq := [], flight := none, pos := 0 }

theorem holding_inv (bs : List Byte)
    (h : bs.length ≤ 64 ∧ Memory.wf (Memory.setList [] Config.inBase bs) ∧ ∀ c ∈ Memory.setList [] Config.inBase bs,
      Config.inBase ≤ c.1 ∧ c.1 < Config.inBase + 65536) : (holding bs).Inv :=
  inv_of_bytes bs none [] [] none 0 ⟨h.1, by decide, by decide, by decide, h.2⟩

/-- Clause by clause: a tree cut short; V-P11 (count truncated); V-P9 (count 1, no root); V-P8 with OUT full (count 0, no root); V-P20 (OUT
full) and one byte less; V-P21 with its packed byte cut; V-P21. -/
theorem witness_PayloadDecodeChecksInOrder :
    (∃ (s : State) (e : ErrCode), parseTree s.inByte .shape s.inRp.toNat s.inLen.toNat s.freeNodes = .error e) ∧
      (∃ (s : State) (t : Option Tree) (c : Nat),
        parseTree s.inByte .shape s.inRp.toNat s.inLen.toNat s.freeNodes = .ok (t, c) ∧ s.inLen.toNat + 1 = c + 8) ∧
      (∃ (s : State) (c : Nat),
        parseTree s.inByte .shape s.inRp.toNat s.inLen.toNat s.freeNodes = .ok (none, c) ∧ c + 8 = s.inLen.toNat ∧
          0 < (readLE64 s.inByte c).toNat) ∧
      (∃ (s : State) (t : Option Tree) (c : Nat),
        parseTree s.inByte .shape s.inRp.toNat s.inLen.toNat s.freeNodes = .ok (t, c) ∧ c + 8 ≤ s.inLen.toNat ∧
          t ≠ none ∧ s.caps.outBytes + 1 = s.outLen.toNat + (readLE64 s.inByte c).toNat) ∧
      (∃ (s : State) (t : Option Tree) (c : Nat),
        parseTree s.inByte .shape s.inRp.toNat s.inLen.toNat s.freeNodes = .ok (t, c) ∧ c + 8 ≤ s.inLen.toNat ∧
          t ≠ none ∧ s.outLen.toNat + (readLE64 s.inByte c).toNat ≤ s.caps.outBytes ∧
          decodeMany (fun j => decide (c + 8 + j / 8 < s.inLen.toNat)) (s.inBit (c + 8)) t (readLE64 s.inByte c).toNat =
            none) ∧
      (∃ (s : State) (t : Option Tree) (c : Nat),
        parseTree s.inByte .shape s.inRp.toNat s.inLen.toNat s.freeNodes = .ok (t, c) ∧ c + 8 ≤ s.inLen.toNat ∧
          t ≠ none ∧ s.outLen.toNat + (readLE64 s.inByte c).toNat ≤ s.caps.outBytes ∧
          decodeMany (fun j => decide (c + 8 + j / 8 < s.inLen.toNat)) (s.inBit (c + 8)) t (readLE64 s.inByte c).toNat =
            some ([0x61, 0x62, 0x62, 0x61], 4)) ∧
      ∃ (s : State) (c : Nat),
        parseTree s.inByte .shape s.inRp.toNat s.inLen.toNat s.freeNodes = .ok (none, c) ∧ c + 8 = s.inLen.toNat ∧
          (readLE64 s.inByte c).toNat = 0 ∧ s.outLen.toNat = s.caps.outBytes :=
  ⟨⟨holding [0x01], .corruptedArchive, rfl⟩,
    ⟨holding [0x01, 0x78, 0x00, 0x00, 0x03, 0x00, 0x00, 0x00, 0x00, 0x00, 0x00], some (.leaf 0x78 0), 4, rfl,
      by decide +kernel⟩,
    ⟨holding [0x00, 0x01, 0x00, 0x00, 0x00, 0x00, 0x00, 0x00, 0x00], 1, rfl, by decide +kernel, by decide +kernel⟩,
    ⟨{ holding ([0x01, 0x78, 0x00, 0x00] ++ le64 0x10000) with outLen := 1 }, some (.leaf 0x78 0), 4, rfl, by decide +kernel,
      by decide, by decide +kernel⟩,
    ⟨holding abba.dropLast, some ab, 10, rfl, by decide +kernel, by decide, by decide +kernel, by decide +kernel⟩,
    ⟨holding abba, some ab, 10, rfl, by decide +kernel, by decide, by decide +kernel, by decide +kernel⟩,
    ⟨{ holding (List.replicate 9 0x00) with outLen := 65536 }, 1, rfl, by decide +kernel, by decide +kernel,
      by decide +kernel⟩⟩

/-- "abba" on the tree ab (V-P21), OUT with exactly 4 bytes left being V-P21's other bound. -/
theorem witness_PayloadDecodeReadsBackAPayload :
    ∃ (s : State) (t : Option Tree) (symbols : List Byte) (codes : List (List Bool)) (b : List Byte), s.Inv ∧
      symbols.map (codeOf t) = codes.map some ∧
      b = serShape t ++ le64 (BitVec.ofNat 64 symbols.length) ++ pack codes.flatten ∧
      s.inHolds s.inRp.toNat b ∧ nodesOf t ≤ s.freeNodes ∧ s.outLen.toNat + symbols.length ≤ s.caps.outBytes :=
  ⟨holding abba, some ab, [0x61, 0x62, 0x62, 0x61], [[false], [true], [true], [false]], abba,
    holding_inv _ (by decide +kernel), by decide, by decide +kernel, inHolds_of _ _ _ (by decide +kernel), by decide +kernel,
    by decide +kernel⟩

/-- The cut byte is a packed byte (V-P21 cut), and it is a byte of the count (V-P11). -/
theorem witness_CutPayloadIsCorrupted :
    (∃ (s : State) (t : Option Tree) (symbols : List Byte) (codes : List (List Bool)) (b : List Byte), s.Inv ∧
      symbols.map (codeOf t) = codes.map some ∧
      b = serShape t ++ le64 (BitVec.ofNat 64 symbols.length) ++ pack codes.flatten ∧ codes.flatten ≠ [] ∧
      s.inRp.toNat + b.length = s.inLen.toNat + 1 ∧
      (∀ k (hk : k < b.length), s.inRp.toNat + k < s.inLen.toNat → s.inByte (s.inRp.toNat + k) = b[k]) ∧
      nodesOf t ≤ s.freeNodes ∧ s.outLen.toNat + symbols.length ≤ s.caps.outBytes) ∧
      ∃ (s : State) (t : Option Tree) (symbols : List Byte) (codes : List (List Bool)) (b : List Byte), s.Inv ∧
        symbols.map (codeOf t) = codes.map some ∧
        b = serShape t ++ le64 (BitVec.ofNat 64 symbols.length) ++ pack codes.flatten ∧ codes.flatten = [] ∧
        s.inRp.toNat + b.length = s.inLen.toNat + 1 ∧
        (∀ k (hk : k < b.length), s.inRp.toNat + k < s.inLen.toNat → s.inByte (s.inRp.toNat + k) = b[k]) ∧
        nodesOf t ≤ s.freeNodes ∧ s.outLen.toNat + symbols.length ≤ s.caps.outBytes :=
  ⟨⟨holding abba.dropLast, some ab, [0x61, 0x62, 0x62, 0x61], [[false], [true], [true], [false]], abba,
      holding_inv _ (by decide +kernel), by decide, by decide +kernel, by decide, by decide +kernel, by decide +kernel,
      by decide +kernel, by decide +kernel⟩,
    ⟨holding [0x01, 0x78, 0x00, 0x00, 0x03, 0x00, 0x00, 0x00, 0x00, 0x00, 0x00], some (.leaf 0x78 0), [0x78, 0x78, 0x78],
      [[], [], []], [0x01, 0x78, 0x00, 0x00, 0x03, 0x00, 0x00, 0x00, 0x00, 0x00, 0x00, 0x00],
      holding_inv _ (by decide +kernel), by decide, by decide +kernel, rfl, by decide +kernel, by decide +kernel,
      by decide +kernel, by decide +kernel⟩⟩

theorem witness_SingleSymbolPolicy :
    ∃ (s : State) (sym : Byte) (w : Word), s.tree = some (.leaf sym w) ∧ s.bvLen = s.caps.bvBits :=
  ⟨{ small with tree := some (.leaf 0x78 3), bv := List.replicate 4096 false }, 0x78, 3, rfl, by decide +kernel⟩

/-! ### Accesses -/

/-- The last register, and the first and the last frequency register; every value is the one the statement names. -/
theorem witness_IdleRegisterReads :
    ∃ s : State, s.busy = false ∧
      (∃ (off : Nat) (v : Word), off = 0x088 ∧ v = BitVec.ofNat 64 s.caps.entries) ∧
      (∃ (x off : Nat) (v : Word), x < 256 ∧ off = 0x800 + 8 * x ∧ s.freq[x]? = some v ∧ x = 0) ∧
      ∃ (x off : Nat) (v : Word), x < 256 ∧ off = 0x800 + 8 * x ∧ s.freq[x]? = some v ∧ x = 255 :=
  ⟨State.reset, rfl, ⟨_, _, rfl, rfl⟩, ⟨0, _, 0, by decide, rfl, by decide +kernel, rfl⟩,
    ⟨255, _, 0, by decide, rfl, by decide +kernel, rfl⟩⟩

theorem witness_ReadsAreIdempotent :
    (∃ (s t : State) (a n : Nat), s.busy = false ∧ busRead a n s = .next t) ∧
      ∃ (s t : State) (a n : Nat), s.busy = true ∧ busRead a n s = .next t :=
  ⟨⟨State.reset, _, 0x20000, 8, rfl, rfl⟩, ⟨inFlight 0 1, _, 0x20, 8, rfl, rfl⟩⟩

theorem witness_StatusFieldsAndWrite :
    (∃ (s : State) (v : Word), s.busy = false ∧ s.haz = true ∧ v.getLsbD 3 = true) ∧
      ∃ (s : State) (v : Word), s.busy = false ∧ s.haz = true ∧ v.getLsbD 3 = false :=
  ⟨⟨{ State.reset with haz := true }, 8, rfl, rfl, by decide⟩, ⟨{ State.reset with haz := true }, 7, rfl, rfl, by decide⟩⟩

theorem witness_IdleRegisterWrites :
    ∃ (s : State) (v : Word), s.caps.Ok ∧ s.busy = false ∧ s.caps.inBytes + 1 = v.toNat :=
  ⟨State.reset, 65537, test_wellformed_caps, rfl, by decide⟩

theorem witness_CmdWriteIssuesTheCommand : ∃ s : State, s.busy = false ∧ s.err = true :=
  ⟨{ State.reset with err := true, errcode := 4 }, rfl, rfl⟩

theorem witness_SoftResetGivesTheResetState :
    (∃ (v : Word) (s t : State), v.getLsbD 0 = true ∧ s.busy = true ∧ busWrite 0x060 8 v s = .next t) ∧
      ∃ v : Word, v.getLsbD 0 = false :=
  ⟨⟨1, inFlight 0 1, _, by decide, rfl, rfl⟩, ⟨2, by decide⟩⟩

/-- A write to the register before CTRL, to the one after it, to a window byte and to a reserved range. -/
theorem witness_BusyWritesAreDiscarded :
    ∃ s : State, s.busy = true ∧ (1 : Word).getLsbD 0 = true ∧ ∀ p ∈ [(0x058, 8), (0x068, 8), (0x1FFFF, 1), (0x3FFFF, 1)],
      ((p.1 : Addr).toNat ≠ 0x060 ∧ accessOk s.caps (p.1 : Addr).toNat p.2) :=
  ⟨inFlight 0 1, rfl, by decide, by decide⟩

/-- The first and the last bytes of the IN and OUT windows, in each width. -/
theorem witness_BusyReads :
    (∃ s : State, s.caps.Ok ∧ s.busy = true) ∧ windowBytes Caps.reference 0x10000 8 ∧
      windowBytes Caps.reference 0x1FFFF 1 ∧ windowBytes Caps.reference 0x20000 2 ∧
      windowBytes Caps.reference 0x2FFFC 4 := by
  refine ⟨⟨inFlight 0 1, test_wellformed_caps, rfl⟩, ?_⟩
  unfold windowBytes
  decide

theorem witness_WindowWriteThenRead :
    ∃ s : State, s.caps.Ok ∧ s.busy = false ∧ windowBytes s.caps 0x20FFF 1 ∧ windowBytes s.caps 0x10FF8 8 ∧
      ¬windowBytes s.caps 0x21000 1 := by
  refine ⟨small, small_ok, rfl, ?_⟩
  unfold windowBytes
  decide

/-- The first and the last address of each reserved range and of each window's part beyond its capacity, with capacities of 4096. -/
theorem witness_ReservedAddressesReadZero :
    ∃ s : State, s.caps.Ok ∧ s.busy = false ∧
      ∀ p ∈ [((0x090 : Addr), 8), (0x7F8, 8), (0x01000, 8), (0x0FFF8, 8), (0x11000, 8), (0x1FFFF, 1), (0x21000, 8),
        (0x2FFFF, 1), (0x30000, 4), (0x3FFFF, 1)],
        accessOk s.caps p.1.toNat p.2 ∧
          ((0x090 ≤ p.1.toNat ∧ p.1.toNat < 0x800) ∨ (0x01000 ≤ p.1.toNat ∧ p.1.toNat < 0x10000) ∨
            (0x10000 + s.caps.inBytes ≤ p.1.toNat ∧ p.1.toNat < 0x20000) ∨
            (0x20000 + s.caps.outBytes ≤ p.1.toNat ∧ p.1.toNat < 0x30000) ∨ 0x30000 ≤ p.1.toNat) :=
  ⟨small, small_ok, rfl, by decide⟩

end Sys2Proof.Tests
end

/-! The statements on spec/10_state.md: the invariant and the step, what a command may change, HAZ, and the register map while
BUSY = 0. -/

namespace Sys2Proof.Machine

/-! ## Where the state fits its configuration -/

/-- The part of the invariant that does not speak of STATUS or of the host: R6's capacities, R41, R43, R46 and R48's bounds, and
the form of the window RAM. A commit, a roll back and a soft reset make the rest of the invariant true again. -/
structure State.Fits (s : State) : Prop where
  caps : s.caps.Ok
  bvLen : s.bvLen ≤ s.caps.bvBits
  inLen : s.inLen.toNat ≤ s.caps.inBytes
  inRp : s.inRp.toNat ≤ s.caps.inBytes
  outLen : s.outLen.toNat ≤ s.caps.outBytes
  pqLen : s.pqLen ≤ s.caps.entries
  nodesUsed : s.nodesUsed ≤ s.caps.nodes
  memWf : Memory.wf s.mem
  memBacked : ∀ c ∈ s.mem, backed s.caps c.1

theorem State.Inv.fits {s : State} (h : s.Inv) : s.Fits :=
  ⟨h.caps, h.bvLen, h.inLen, h.inRp, h.outLen, h.pqLen, h.nodesUsed, h.memWf, h.memBacked⟩

/-- A state that fits meets the invariant when its STATUS fields agree and a command in flight is still owed its read. -/
theorem State.Fits.inv {s : State} (h : s.Fits) (errcode : s.errcode.toNat ≤ 8) (err : s.err = true ↔ s.errcode ≠ 0)
    (inFlight : s.busy = true → s.err = false ∧ s.awaiting = true) : s.Inv where
  caps := h.caps
  bvLen := h.bvLen
  inLen := h.inLen
  inRp := h.inRp
  outLen := h.outLen
  pqLen := h.pqLen
  nodesUsed := h.nodesUsed
  errcode := errcode
  err := err
  inFlight hb := (inFlight hb).1
  awaiting hb := (inFlight hb).2
  memWf := h.memWf
  memBacked := h.memBacked

@[simp] theorem State.busy_commit (s : State) : s.commit.busy = false := rfl

@[simp] theorem State.busy_rollback (s : State) (e : ErrCode) : (s.rollback e).busy = false := rfl

@[simp] theorem State.busy_softReset (s : State) : s.softReset.busy = false := rfl

/-- A commit of staged writes that fit meets the invariant (R101). -/
theorem State.Fits.commit {u : State} (h : u.Fits) : u.commit.Inv :=
  State.Fits.inv { h with } (by simp) (by simp) (by simp)

/-- A roll back meets the invariant: it only forgets OUT bytes, and reports a code of R220 (R102). -/
theorem State.Fits.rollback {s : State} (h : s.Fits) (e : ErrCode) : (s.rollback e).Inv := by
  obtain ⟨hne, -, hle⟩ := e.bits_range
  refine State.Fits.inv { h with
    memWf := Memory.wf_keepBelow _ h.memWf
    memBacked := fun c hc => h.memBacked c (List.mem_of_mem_filter hc) } hle ?_ (by simp)
  simpa using hne

/-- The reset values fit every configuration of R6 (R51, R251). -/
theorem State.softReset_inv {s : State} (h : s.caps.Ok) : s.softReset.Inv :=
  State.Fits.inv
    { caps := h
      bvLen := Nat.zero_le _
      inLen := Nat.zero_le _
      inRp := Nat.zero_le _
      outLen := Nat.zero_le _
      pqLen := Nat.zero_le _
      nodesUsed := Nat.zero_le _
      memWf := List.Pairwise.nil
      memBacked := fun c hc => absurd hc List.not_mem_nil } (by simp) (by simp) (by simp)

/-! ## The staged writes of a command fit -/

/-- A pointer register set to an offset within its window's capacity stays within it. -/
theorem toNat_ofNat_le {n cap : Nat} (h : n ≤ cap) : (BitVec.ofNat 64 n).toNat ≤ cap :=
  (Nat.mod_le _ _).trans h

/-- Bytes stored below the end of the OUT window keep the window RAM in form, and OUT_LEN within OUT_CAP (R43, R70). -/
theorem State.Fits.emitted {s : State} (h : s.Fits) {b : List Byte} (hb : s.outLen.toNat + b.length ≤ s.caps.outBytes) :
    (s.emitted b).Fits := by
  refine { h with
    outLen := toNat_ofNat_le hb
    memWf := Memory.wf_setList _ _ h.memWf
    memBacked := backed_setList h.memBacked fun j h1 h2 => .inr ⟨by omega, ?_⟩ }
  show j < Config.outBase + s.caps.outBytes
  omega

/-- BUILD's tree has at most 511 nodes, which every NODE_CAP of R6 holds (R131). -/
theorem build_nodes (s : State) : nodesOf (mergeAll s.freqLeaves.length s.freqLeaves).head? ≤ 511 := by
  obtain ⟨-, hm⟩ | ⟨t, hm, -⟩ := build_result s
  · simp [hm, nodesOf]
  · have hnodes := mergeAll_nodes s.freqLeaves.length s.freqLeaves
    have hk := includedSymbols_length s
    rw [hm, freqLeaves_nodes, freqLeaves_length] at hnodes
    simp only [totalNodes_cons, totalNodes_nil, List.length_cons, List.length_nil] at hnodes
    simp only [hm, List.head?_cons, nodesOf]
    omega

/-- A parsed tree fits beside PQ, and the cursor after it is within IN (R185, R187). -/
theorem State.Fits.parsed {s : State} (h : s.Fits) {kind : TreeKind} {t : Option Tree} {c : Nat}
    (hp : parseTree s.inByte kind s.inRp.toNat s.inLen.toNat s.freeNodes = .ok (t, c)) :
    nodesOf t + totalNodes s.pq ≤ s.caps.nodes ∧ c ≤ s.caps.inBytes := by
  obtain ⟨-, hc, hn⟩ := parseTree_ok hp
  have hnodes := h.nodesUsed
  have hin := h.inLen
  simp only [State.nodesUsed, State.freeNodes] at hnodes hn
  omega

/-- The bits PAYLOAD_DECODE reads end within IN (R205). -/
theorem decodeMany_end {limit c n p : Nat} {bit : Nat → Bool} {t : Option Tree} {symbols : List Byte} (hc : c ≤ limit)
    (h : decodeMany (fun j => decide (c + j / 8 < limit)) bit t n = some (symbols, p)) : c + (p + 7) / 8 ≤ limit := by
  obtain ⟨-, hbits⟩ := decodeMany_some h
  rcases Nat.eq_zero_or_pos p with rfl | hp
  · exact hc
  · have := of_decide_eq_true (hbits (p - 1) (by omega))
    omega

/-- Every command's staged writes fit: its rule checks the capacities before it commits (R41, R43, R46, R48). -/
theorem staged_fits {i : Instr} {s u : State} (h : s.Fits) (hu : Staged i s u) : u.Fits := by
  have hin := h.inLen
  have hnodes := h.nodesUsed
  have hqlen := h.pqLen
  simp only [State.nodesUsed] at hnodes
  cases i with
  | nop =>
    obtain rfl := hu
    exact h
  | bvClear =>
    obtain rfl := hu
    exact { h with bvLen := Nat.zero_le _ }
  | bvGet =>
    obtain ⟨-, rfl⟩ := hu
    exact { h with }
  | bvSet _ =>
    obtain ⟨-, rfl⟩ := hu
    exact { h with bvLen := by simpa [State.bvLen] using h.bvLen }
  | bvAppend _ | bvReserve =>
    obtain ⟨hcap, rfl⟩ := hu
    exact { h with bvLen := by simpa [State.bvLen] using hcap }
  | bvPack | exportShape | exportFull =>
    obtain ⟨hcap, rfl⟩ := hu
    exact h.emitted hcap
  | bvUnpack =>
    obtain ⟨hrp, hcap, rfl⟩ := hu
    exact { h with
      bvLen := by simpa [State.bvLen] using hcap
      inRp := toNat_ofNat_le (hrp.trans hin) }
  | freqClear =>
    obtain rfl := hu
    exact { h with }
  | build =>
    obtain ⟨-, rfl⟩ := hu
    have hcap := h.caps.2.2.2.1.1
    exact { h with
      pqLen := Nat.zero_le _
      nodesUsed := (build_nodes s).trans hcap }
  | treeClear =>
    obtain rfl := hu
    exact { h with nodesUsed := by simp only [State.nodesUsed, nodesOf]; omega }
  | pqClear =>
    obtain rfl := hu
    exact { h with
      pqLen := Nat.zero_le _
      nodesUsed := by simp only [State.nodesUsed, totalNodes_nil]; omega }
  | pqPushLeaf _ =>
    obtain ⟨hentries, hfree, rfl⟩ := hu
    exact { h with
      pqLen := by simpa [State.pqLen, push] using hentries
      nodesUsed := by simpa [State.nodesUsed, push, Tree.nodes, Nat.add_assoc] using hfree }
  | pqMerge =>
    obtain ⟨a, b, rest, hpop, -, hfree, rfl⟩ := hu
    have hperm := popTwo_perm hpop
    have hsum := totalNodes_perm hperm
    have hlen := hperm.length_eq
    simp only [State.nodesUsed, State.pqLen, totalNodes_cons, List.length_cons] at hfree hqlen hsum hlen
    exact { h with
      pqLen := by simp [State.pqLen, push]; omega
      nodesUsed := by simp [State.nodesUsed, push, combine, Tree.nodes]; omega }
  | pqPop =>
    obtain ⟨t, rest, hpop, rfl⟩ := hu
    have hsum := totalNodes_perm (popmin_perm hpop)
    have hlen := popmin_length hpop
    simp only [State.pqLen, totalNodes_cons] at hqlen hsum
    exact { h with
      pqLen := by simp only [State.pqLen]; omega
      nodesUsed := by simp only [State.nodesUsed, nodesOf]; omega }
  | encodeSym _ =>
    obtain ⟨c, -, hcap, rfl⟩ := hu
    exact { h with bvLen := by simpa [State.bvLen] using hcap }
  | decodeSym =>
    obtain ⟨_, _, _, -, -, rfl⟩ := hu
    exact { h with }
  | height _ =>
    obtain ⟨-, rfl⟩ | ⟨_, -, rfl⟩ := hu
    all_goals exact { h with }
  | importShape | importFull =>
    obtain ⟨t, c, hp, rfl⟩ := hu
    obtain ⟨hfree, hc⟩ := h.parsed hp
    exact { h with inRp := toNat_ofNat_le hc, nodesUsed := hfree }
  | payloadEncode =>
    obtain ⟨bits, hrp, -, hcap, rfl⟩ := hu
    exact { h.emitted hcap with inRp := toNat_ofNat_le (hrp.trans hin) }
  | payloadDecode =>
    obtain ⟨t, c, symbols, p, hp, hc, -, hcap, hd, rfl⟩ := hu
    obtain ⟨hfree, -⟩ := h.parsed hp
    rw [← (decodeMany_some hd).1] at hcap
    exact { h.emitted hcap with
      inRp := toNat_ofNat_le ((decodeMany_end hc hd).trans hin)
      nodesUsed := hfree }

/-- The engine keeps the invariant, and the capacities (R52). -/
theorem exec_inv {i : Instr} {s t : State} (h : s.Inv) (he : exec i s = .next t) : t.Inv ∧ t.caps = s.caps := by
  obtain ⟨u, hu, rfl⟩ | ⟨e, -, rfl⟩ := exec_next he
  · exact ⟨(staged_fits h.fits hu).commit, (staged_frame hu).1⟩
  · exact ⟨h.fits.rollback e, rfl⟩

/-! ## The host's accesses keep the invariant -/

/-- The host's program is no part of the invariant, nor is the latency of the command in flight. -/
theorem State.Inv.withHost {s : State} (h : s.Inv) (ops : List BusOp) : ({ s with host := ops } : State).Inv := { h with }

theorem State.Inv.tick {s : State} (h : s.Inv) {f : Flight} (hf : s.flight = some f) :
    ({ s with flight := some f.tick } : State).Inv :=
  have hb : s.busy = true := by rw [State.busy, hf]; rfl
  { h with inFlight := fun _ => h.inFlight hb, awaiting := fun _ => h.awaiting hb }

/-- A host read leaves the block as it is, and while a command is in flight it is no read of BUSY = 0 (R66, R256). -/
theorem State.Inv.hostRead {s : State} (h : s.Inv) (n : Nat) (tgt : Target) : (s.hostRead n tgt).Inv :=
  { h with awaiting := hostRead_keepsAwaiting h.awaiting }

theorem State.Inv.setHaz {s : State} (h : s.Inv) : s.setHaz.Inv := { h with }

theorem State.Inv.writeCtrl {s : State} (h : s.Inv) (v : Word) : (s.writeCtrl v).Inv := by
  unfold State.writeCtrl
  split
  · exact State.softReset_inv h.caps
  · exact h

/-- What a host write to each register may change keeps the invariant: the pointers are clamped (R43), and an accepted command starts
with ERR and ERRCODE 0 and owes its read (R35, R256). -/
theorem State.Inv.writeReg {s : State} (h : s.Inv) (v : Word) (r : Reg) : (s.writeReg v r).Inv := by
  cases r with
  | cmd =>
    exact { h with
      errcode := Nat.zero_le _
      err := iff_of_false Bool.false_ne_true (not_not_intro rfl)
      inFlight := fun _ => rfl
      awaiting := fun _ => rfl }
  | inLen => exact { h with inLen := (clamp_toNat v _).trans_le (Nat.min_le_right _ _) }
  | inRp => exact { h with inRp := (clamp_toNat v _).trans_le (Nat.min_le_right _ _) }
  | outLen => exact { h with outLen := (clamp_toNat v _).trans_le (Nat.min_le_right _ _) }
  | status | arg | pos | freq _ => exact { h with }
  | ctrl => exact h.writeCtrl v
  | id | result | bvLen | pqLen | nodesUsed | capBv | capIn | capOut | capNode | capPq => exact h

@[simp] theorem writeBytes_length (v : Word) (n : Nat) : (writeBytes v n).length = n := by simp [writeBytes]

/-- A host write while BUSY = 0 keeps the invariant: what reaches RAM reaches backed bytes (R63, R70). -/
theorem State.Inv.writeTarget {s : State} (h : s.Inv) {a n : Nat} (v : Word) {tgt : Target}
    (ht : busTarget s.caps a n = .ok tgt) : (s.writeTarget n v tgt).Inv := by
  cases tgt with
  | reg r => exact h.writeReg v r
  | nothing => exact h
  | ram addr =>
    obtain ⟨rfl, -, hb⟩ := busTarget_ram ht
    refine { h with
      memWf := Memory.wf_setList _ _ h.memWf
      memBacked := backed_setList h.memBacked fun j h1 h2 => ?_ }
    rw [writeBytes_length] at h2
    obtain ⟨k, rfl⟩ := Nat.exists_eq_add_of_le h1
    exact hb k (by omega)

@[simp] theorem State.writeCtrl_caps (s : State) (v : Word) : (s.writeCtrl v).caps = s.caps := by
  unfold State.writeCtrl
  split <;> rfl

@[simp] theorem State.writeReg_caps (s : State) (v : Word) (r : Reg) : (s.writeReg v r).caps = s.caps := by
  cases r with
  | ctrl => exact s.writeCtrl_caps v
  | _ => rfl

@[simp] theorem State.writeTarget_caps (s : State) (n : Nat) (v : Word) (tgt : Target) :
    (s.writeTarget n v tgt).caps = s.caps := by
  cases tgt with
  | reg r => exact s.writeReg_caps v r
  | _ => rfl

theorem busRead_inv {a n : Nat} {s t : State} (h : s.Inv) (hr : busRead a n s = .next t) : t.Inv ∧ t.caps = s.caps := by
  obtain ⟨tgt, -, rfl⟩ := busRead_next hr
  exact ⟨h.hostRead n tgt, rfl⟩

theorem busWrite_inv {a n : Nat} {v : Word} {s t : State} (h : s.Inv) (hw : busWrite a n v s = .next t) :
    t.Inv ∧ t.caps = s.caps := by
  obtain ⟨tgt, ht, ⟨-, -, rfl⟩ | ⟨-, -, rfl⟩ | ⟨-, rfl⟩⟩ := busWrite_next hw
  · exact ⟨h.writeCtrl v, by simp⟩
  · exact ⟨h.setHaz, rfl⟩
  · exact ⟨h.writeTarget v ht, by simp⟩

/-- `check` reads STATUS and may end the program (R88). -/
theorem State.checkStatus_eq (s : State) :
    s.checkStatus = { s.pollStatus with host := if s.err then [] else s.host } := by
  unfold State.checkStatus
  split <;> rfl

/-- The host's move keeps the invariant, and the capacities. -/
theorem hostStep_inv {s t : State} (h : s.Inv) (hs : hostStep s = .next t) : t.Inv ∧ t.caps = s.caps := by
  obtain ⟨-, rfl⟩ | ⟨a, n, rest, -, hr⟩ | ⟨a, n, v, rest, -, hw⟩ | ⟨rest, -, rfl⟩ | ⟨rest, -, rfl⟩ := hostStep_next hs
  · exact ⟨h, rfl⟩
  · exact busRead_inv (s := { s with host := rest }) (h.withHost rest) hr
  · exact busWrite_inv (s := { s with host := rest }) (h.withHost rest) hw
  · exact ⟨(h.hostRead 8 (.reg .status)).withHost rest, rfl⟩
  · rw [State.checkStatus_eq]
    exact ⟨((h.withHost rest).hostRead 8 (.reg .status)).withHost _, rfl⟩

/-- Settles O11: the engine's step and the host's move each keep the invariant and the capacities. -/
theorem everyStepKeepsTheInvariant : Obligations.EveryStepKeepsTheInvariant := by
  intro s t h hs
  obtain ⟨f, i, -, -, -, he⟩ | ⟨f, r, -, -, -, rfl⟩ | ⟨-, hh⟩ | ⟨f, hf, -, hh⟩ := step_next hs
  · exact exec_inv h he
  · exact ⟨h.fits.rollback _, rfl⟩
  · exact hostStep_inv h hh
  · exact hostStep_inv (s := { s with flight := some f.tick }) (h.tick hf) hh

/-! ## What a command may change -/

/-- Settles O12: a commit leaves ERR and ERRCODE 0, a roll back leaves a code of R220, and both end with BUSY = 0. -/
theorem everyCommandEnds : Obligations.EveryCommandEnds := by
  intro i s
  obtain ⟨u, -, he⟩ | ⟨e, -, he⟩ := exec_cases i s
  · exact ⟨_, he, rfl, .inl ⟨rfl, rfl⟩⟩
  · exact ⟨_, he, rfl, .inr ⟨rfl, e.bits_range.2⟩⟩

/-- The registers and FOUND, each with the commands whose rules stage a write to it (R32, R36, R42, R43). -/
theorem staged_registers {i : Instr} {s u : State} (hu : Staged i s u) :
    (u.found ≠ s.found → ∃ x, i = .height x) ∧
    (u.pos ≠ s.pos → i = .decodeSym) ∧
    (u.result ≠ s.result → i = .bvGet ∨ i = .decodeSym ∨ (∃ x, i = .height x) ∨ i = .bvPack ∨ i = .exportShape ∨
      i = .exportFull ∨ i = .importShape ∨ i = .importFull ∨ i = .payloadEncode ∨ i = .payloadDecode) ∧
    (u.inRp ≠ s.inRp → i = .bvUnpack ∨ i = .importShape ∨ i = .importFull ∨ i = .payloadEncode ∨ i = .payloadDecode) ∧
    (u.outLen ≠ s.outLen → i = .bvPack ∨ i = .exportShape ∨ i = .exportFull ∨ i = .payloadEncode ∨ i = .payloadDecode) := by
  cases i with
  | nop | bvClear | freqClear | treeClear | pqClear =>
    obtain rfl := hu
    simp
  | bvGet | bvSet _ | bvAppend _ | bvReserve | bvPack | build | exportShape | exportFull =>
    obtain ⟨-, rfl⟩ := hu
    simp [State.emitted]
  | bvUnpack | pqPushLeaf _ =>
    obtain ⟨-, -, rfl⟩ := hu
    simp
  | pqMerge =>
    obtain ⟨_, _, _, -, -, -, rfl⟩ := hu
    simp
  | pqPop | importShape | importFull =>
    obtain ⟨_, _, -, rfl⟩ := hu
    simp
  | encodeSym _ =>
    obtain ⟨_, -, -, rfl⟩ := hu
    simp
  | decodeSym =>
    obtain ⟨_, _, _, -, -, rfl⟩ := hu
    simp
  | height _ =>
    obtain ⟨-, rfl⟩ | ⟨_, -, rfl⟩ := hu
    all_goals simp
  | payloadEncode =>
    obtain ⟨_, -, -, -, rfl⟩ := hu
    simp [State.emitted]
  | payloadDecode =>
    obtain ⟨_, _, _, _, -, -, -, -, -, rfl⟩ := hu
    simp [State.emitted]

/-- The fields no command changes, whether it commits or rolls back. -/
theorem exec_frame {i : Instr} {s t : State} (h : exec i s = .next t) :
    t.arg = s.arg ∧ t.inLen = s.inLen ∧ t.haz = s.haz ∧ t.caps = s.caps ∧ t.host = s.host ∧ t.reads = s.reads ∧
      t.awaiting = s.awaiting := by
  obtain ⟨u, hu, rfl⟩ | ⟨e, -, rfl⟩ := exec_next h
  · obtain ⟨caps, arg, inLen, haz, -, -, -, host, reads, awaiting⟩ := staged_frame hu
    exact ⟨arg, inLen, haz, caps, host, reads, awaiting⟩
  · simp

/-- Settles O15: a commit makes the staged writes of its command only, and a roll back touches no register. -/
theorem registersWrittenOnlyByTheirCommands : Obligations.RegistersWrittenOnlyByTheirCommands := by
  intro i s t h
  refine ⟨exec_frame h, ?_⟩
  obtain ⟨u, hu, rfl⟩ | ⟨e, -, rfl⟩ := exec_next h
  · exact staged_registers (u := u) hu
  · simp

/-! ## HAZ -/

/-- A host write of v to address `a`, with BUSY as given, sets HAZ or clears it: the rules by which a write leaves HAZ at `haz`
(R34, R36, R251). -/
def HazWrite (busy : Bool) (a : Nat) (v : Word) (haz : Bool) : Prop :=
  (haz = true ∧ busy = true ∧ a ≠ 0x060) ∨
    (haz = false ∧ ((a = 0x010 ∧ busy = false ∧ v.getLsbD 3 = true) ∨ (a = 0x060 ∧ v.getLsbD 0 = true)))

/-- A write to STATUS clears HAZ if bit 3 of the value is 1, and changes nothing else (R34). -/
theorem State.writeStatus_eq (s : State) (v : Word) :
    s.writeStatus v = if v.getLsbD 3 then { s with haz := false } else s := by
  unfold State.writeStatus
  cases v.getLsbD 3 <;> simp

/-- While BUSY = 0 a register write clears HAZ or leaves it alone; only STATUS and CTRL clear it (R34, R251). -/
theorem State.writeReg_haz (s : State) (v : Word) (r : Reg) :
    (s.writeReg v r).haz = s.haz ∨
      ((s.writeReg v r).haz = false ∧ ((r = .status ∧ v.getLsbD 3 = true) ∨ (r = .ctrl ∧ v.getLsbD 0 = true))) := by
  cases r with
  | status =>
    rw [State.writeReg, State.writeStatus_eq]
    split
    · exact .inr ⟨rfl, .inl ⟨rfl, ‹_›⟩⟩
    · exact .inl rfl
  | ctrl =>
    rw [State.writeReg, State.writeCtrl]
    split
    · exact .inr ⟨rfl, .inr ⟨rfl, ‹_›⟩⟩
    · exact .inl rfl
  | _ => exact .inl rfl

/-- A host write leaves HAZ alone, or changes it by one of those rules. -/
theorem busWrite_haz {a n : Nat} {v : Word} {s t : State} (h : busWrite a n v s = .next t) :
    t.haz = s.haz ∨ HazWrite s.busy a v t.haz := by
  obtain ⟨tgt, ht, ⟨-, rfl, rfl⟩ | ⟨hb, hne, rfl⟩ | ⟨hb, rfl⟩⟩ := busWrite_next h
  · obtain heq | ⟨h0, ⟨hr, -⟩ | ⟨-, hv⟩⟩ := s.writeReg_haz v .ctrl
    · exact .inl heq
    · simp at hr
    · exact .inr (.inr ⟨h0, .inr ⟨(busTarget_reg.mp ht).1, hv⟩⟩)
  · refine .inr (.inl ⟨rfl, hb, ?_⟩)
    rintro rfl
    exact hne (busTarget_at_offset (r := .ctrl) ht).2
  · cases tgt with
    | ram _ | nothing => exact .inl rfl
    | reg r =>
      obtain heq | ⟨h0, ⟨rfl, hv⟩ | ⟨rfl, hv⟩⟩ := s.writeReg_haz v r
      · exact .inl heq
      · exact .inr (.inr ⟨h0, .inl ⟨(busTarget_reg.mp ht).1, hb, hv⟩⟩)
      · exact .inr (.inr ⟨h0, .inr ⟨(busTarget_reg.mp ht).1, hv⟩⟩)

/-- The host's move changes HAZ by a write only. -/
theorem hostStep_haz {s t : State} (h : hostStep s = .next t) :
    t.haz = s.haz ∨ ∃ a n v rest, s.host = .write a n v :: rest ∧ HazWrite s.busy a.toNat v t.haz := by
  obtain ⟨-, rfl⟩ | ⟨a, n, rest, -, hr⟩ | ⟨a, n, v, rest, hh, hw⟩ | ⟨rest, -, rfl⟩ | ⟨rest, -, rfl⟩ := hostStep_next h
  · exact .inl rfl
  · obtain ⟨tgt, -, rfl⟩ := busRead_next hr
    exact .inl rfl
  · exact (busWrite_haz hw).imp_right fun hz => ⟨a, n, v, rest, hh, hz⟩
  · exact .inl rfl
  · rw [State.checkStatus_eq]
    exact .inl rfl

/-- A step changes HAZ by a host write only: no command touches it (R36). -/
theorem step_haz {s t : State} (h : step s = .next t) :
    t.haz = s.haz ∨ ∃ a n v rest, s.host = .write a n v :: rest ∧ HazWrite s.busy a.toNat v t.haz := by
  obtain ⟨f, i, -, -, -, he⟩ | ⟨f, r, -, -, -, rfl⟩ | ⟨-, hh⟩ | ⟨f, hf, -, hh⟩ := step_next h
  · obtain ⟨-, -, haz, -⟩ := exec_frame he
    exact .inl haz
  · exact .inl rfl
  · exact hostStep_haz hh
  · have hb : s.busy = ({ s with flight := some f.tick } : State).busy := by rw [State.busy, hf]; rfl
    rw [hb]
    exact hostStep_haz hh

/-- Settles O7: the two changes of HAZ are those of `HazWrite`, one for each value. -/
theorem hazIsSticky : Obligations.HazIsSticky := by
  intro s t h
  refine ⟨fun h0 h1 => ?_, fun h1 h0 => ?_⟩
  · obtain heq | ⟨a, n, v, rest, hh, ⟨-, hb, ha⟩ | ⟨hf, -⟩⟩ := step_haz h
    · simp [heq, h0] at h1
    · exact ⟨hb, a, n, v, rest, hh, ha⟩
    · simp [hf] at h1
  · obtain heq | ⟨a, n, v, rest, hh, ⟨hf, -⟩ | ⟨-, hw⟩⟩ := step_haz h
    · simp [heq, h1] at h0
    · simp [hf] at h0
    · exact ⟨a, n, v, rest, hh, hw⟩

/-! ## Register accesses while BUSY = 0 -/

/-- While BUSY = 0 a 64-bit write at a register's offset reaches that register. -/
theorem busWrite_idle {s : State} (h : s.busy = false) (r : Reg) (v : Word) :
    busWrite r.offset 8 v s = .next (s.writeReg v r) := by
  rw [busWrite_reg, h]
  rfl

/-- No two registers share an offset (R50). -/
theorem regOffset_injective : Function.Injective Reg.offset := fun r r' h =>
  Option.some.inj (by rw [← r.ofOffset_offset, h, r'.ofOffset_offset])

/-- While BUSY = 0 a 64-bit read at a register's offset returns its value, and a read of STATUS is the read of BUSY = 0 the host
may owe (R50, R256). -/
theorem busRead_idle {s : State} (h : s.busy = false) (r : Reg) :
    busRead r.offset 8 s =
      .next { s with
        reads := s.readReg r :: s.reads, awaiting := if r.offset = 0x010 then false else s.awaiting } := by
  rw [busRead_reg]
  by_cases hr : r = .status
  · subst hr
    rw [hostRead_status_idle h]
    rfl
  · have hoff : r.offset ≠ 0x010 := fun he => hr (regOffset_injective (a₂ := .status) he)
    rw [hostRead_idle h (by simpa using hr), if_neg hoff]
    simp [State.readTarget, h]

/-- The bits of STATUS in arithmetic, from its value as a number. -/
theorem statusWord_bit (s : State) (k : Nat) : s.statusWord.getLsbD k = decide (s.statusWord.toNat / 2 ^ k % 2 = 1) := by
  rw [BitVec.getLsbD, Nat.testBit_eq_decide_div_mod_eq]

theorem flagBit_lt (b : Bool) : flagBit b < 2 := by cases b <;> decide

theorem decide_flagBit (b : Bool) : decide (flagBit b = 1) = b := by cases b <;> rfl

/-- The fields of STATUS by bit number (R34). -/
theorem statusWord_fields (s : State) :
    s.statusWord.getLsbD 0 = s.busy ∧ s.statusWord.getLsbD 1 = s.err ∧ s.statusWord.getLsbD 2 = s.found ∧
      s.statusWord.getLsbD 3 = s.haz ∧ s.statusWord.extractLsb' 8 4 = s.errcode ∧
      s.statusWord.extractLsb' 4 4 = 0 ∧ s.statusWord.extractLsb' 12 52 = 0 := by
  have hval := statusWord_toNat s
  have hbusy := flagBit_lt s.busy
  have herr := flagBit_lt s.err
  have hfound := flagBit_lt s.found
  have hhaz := flagBit_lt s.haz
  have hcode := s.errcode.isLt
  have hbit (k : Nat) (b : Bool) (h : s.statusWord.toNat / 2 ^ k % 2 = flagBit b) : s.statusWord.getLsbD k = b := by
    rw [statusWord_bit, h, decide_flagBit]
  have hfield (k n : Nat) (x : BitVec n) (h : s.statusWord.toNat / 2 ^ k % 2 ^ n = x.toNat) :
      s.statusWord.extractLsb' k n = x := by
    apply BitVec.eq_of_toNat_eq
    rw [BitVec.extractLsb'_toNat, Nat.shiftRight_eq_div_pow, h]
  refine ⟨hbit _ _ ?_, hbit _ _ ?_, hbit _ _ ?_, hbit _ _ ?_, hfield _ _ _ ?_, hfield _ _ _ (.trans ?_ BitVec.toNat_zero.symm),
    hfield _ _ _ (.trans ?_ BitVec.toNat_zero.symm)⟩
  all_goals omega

/-- Settles O52, from the STATUS word as a number and `writeStatus_eq`. -/
theorem statusFieldsAndWrite : Obligations.StatusFieldsAndWrite := by
  refine ⟨statusWord_fields, fun s v h => ?_, rfl, rfl, rfl, rfl⟩
  rw [← State.writeStatus_eq]
  exact busWrite_idle h .status v

/-- A write to FREQ[x] stores the value there and leaves the other counts alone (R44). -/
theorem freq_write (s : State) (v : Word) (x : Byte) :
    (s.freq.setIfInBounds x.toNat v)[x.toNat]? = some v ∧
      ∀ j, j ≠ x.toNat → (s.freq.setIfInBounds x.toNat v)[j]? = s.freq[j]? :=
  ⟨Vector.getElem?_setIfInBounds_self_of_lt x.isLt, fun _ hj => Vector.getElem?_setIfInBounds_ne hj.symm⟩

/-- Settles O53: the write at each register's offset is `writeReg` of that register. -/
theorem idleRegisterWrites : Obligations.IdleRegisterWrites := by
  intro s v _ h
  refine ⟨busWrite_idle h .arg v, busWrite_idle h .pos v, ⟨_, clamp_toNat v _, busWrite_idle h .inLen v⟩,
    ⟨_, clamp_toNat v _, busWrite_idle h .inRp v⟩, ⟨_, clamp_toNat v _, busWrite_idle h .outLen v⟩,
    fun x => ⟨_, busWrite_idle h (.freq x) v, freq_write s v x⟩, ?_⟩
  intro off hoff
  obtain ⟨r, hr, rfl⟩ : ∃ r ∈ [Reg.id, .result, .bvLen, .pqLen, .nodesUsed, .capBv, .capIn, .capOut, .capNode, .capPq],
      r.offset = off := List.mem_map.mp hoff
  rw [busWrite_idle h]
  fin_cases hr <;> rfl

/-- Settles O50: each offset of the map is a register's, and the value is what `readReg` gives for it. -/
theorem idleRegisterReads : Obligations.IdleRegisterReads := by
  intro s off v h hmap
  suffices hreg : ∃ r : Reg, off = r.offset ∧ v = s.readReg r by
    obtain ⟨r, rfl, rfl⟩ := hreg
    exact busRead_idle h r
  rcases hmap with h | h | h | h | h | h | h | h | h | h | h | h | h | h | h | h | h | h | ⟨x, hx, rfl, hv⟩
  · exact ⟨.id, h⟩
  · exact ⟨.cmd, h⟩
  · exact ⟨.status, h⟩
  · exact ⟨.arg, h⟩
  · exact ⟨.result, h⟩
  · exact ⟨.bvLen, h⟩
  · exact ⟨.pos, h⟩
  · exact ⟨.inLen, h⟩
  · exact ⟨.inRp, h⟩
  · exact ⟨.outLen, h⟩
  · exact ⟨.pqLen, h⟩
  · exact ⟨.nodesUsed, h⟩
  · exact ⟨.ctrl, h⟩
  · exact ⟨.capBv, h⟩
  · exact ⟨.capIn, h⟩
  · exact ⟨.capOut, h⟩
  · exact ⟨.capNode, h⟩
  · exact ⟨.capPq, h⟩
  · have hsym : (BitVec.ofNat 8 x).toNat = x := Nat.mod_eq_of_lt hx
    refine ⟨.freq (BitVec.ofNat 8 x), by rw [Reg.offset, hsym], ?_⟩
    rw [State.readReg, State.freqOf, hsym, hv, Option.getD_some]

/-- Settles O54: the write at CMD's offset is an issue. -/
theorem cmdWriteIssuesTheCommand : Obligations.CmdWriteIssuesTheCommand :=
  fun _ w h => busWrite_idle h .cmd w

/-! ## Reset, and the host's move -/

/-- Settles O10: the reset state has the fields the invariant speaks of as a soft reset leaves them. -/
theorem resetMeetsTheInvariant : Obligations.ResetMeetsTheInvariant :=
  { State.softReset_inv (s := State.reset) (by decide) with }

/-- A step with no command in flight is the host's move. -/
theorem step_idle {s : State} (h : s.flight = none) : step s = hostStep s := by
  rw [step, systemStep, h]

/-- With a command in flight and an access that may land before the engine moves, a step is the host's move, one access less
to land (log 6). -/
theorem step_inFlight {s : State} {w : Word} {d : Nat} {op : BusOp} {rest : List BusOp}
    (hf : s.flight = some { word := w, delay := d + 1 }) (hh : s.host = op :: rest) (hop : op ≠ .wait) :
    step s = hostStep { s with flight := some { word := w, delay := d } } := by
  have ht : engineTurn { word := w, delay := d + 1 } s.host = false := by
    rw [← Bool.not_eq_true, engineTurn_iff]
    simp [hh, hop]
  rw [step, systemStep, hf]
  simp only [ht, Bool.false_eq_true, if_false]
  rfl

theorem not_busy_of_flight {s : State} (h : s.flight = none) : s.busy = false := by
  rw [State.busy, h]
  rfl

/-- `check` with no command in flight also is the read of BUSY = 0 the host may owe (R88, R256). -/
theorem State.checkStatus_idle {s : State} (h : s.busy = false) :
    s.checkStatus =
      { s with host := if s.err then [] else s.host, reads := s.statusWord :: s.reads, awaiting := false } := by
  rw [State.checkStatus_eq, State.pollStatus, hostRead_status_idle h]

/-- `check` with a command in flight reads STATUS with BUSY = 1, which uses up a draw (R88, log 5). -/
theorem State.checkStatus_busy {s : State} (h : s.busy = true) :
    s.checkStatus =
      { s with host := if s.err then [] else s.host, reads := s.statusWord :: s.reads, draws := s.draws + 1 } := by
  rw [State.checkStatus_eq, State.pollStatus, hostRead_busy h]
  simp [State.readTarget, State.readReg, definedWhileBusy]

/-- Settles O6: either the step is the host's move in the same state, or in the one with the command's latency lowered. -/
theorem stepIsOtherwiseTheHostsAccess : Obligations.StepIsOtherwiseTheHostsAccess := by
  refine ⟨?_, ?_, ?_, ?_, ?_, ?_, ?_, ?_⟩
  · intro s hf hh
    rw [step_idle hf, hostStep, hh]
  · intro s a n rest hf hh
    rw [step_idle hf, hostStep, hh]
  · intro s a n v rest hf hh
    rw [step_idle hf, hostStep, hh]
  · intro s w d a n rest hf hh
    rw [step_inFlight hf hh (by simp), hostStep]
    simp only [hh]
  · intro s w d a n v rest hf hh
    rw [step_inFlight hf hh (by simp), hostStep]
    simp only [hh]
  · intro s rest hf hh
    rw [step_idle hf, hostStep, hh]
    simp only [State.pollStatus, hostRead_status_idle (not_busy_of_flight hf)]
  · intro s rest hf hh
    rw [step_idle hf, hostStep, hh]
    simp only [State.checkStatus_idle (s := { s with host := rest }) (not_busy_of_flight hf)]
    rfl
  · intro s w d rest hf hh
    have hstatus : ({ s with host := rest, flight := some { word := w, delay := d } } : State).statusWord = s.statusWord := by
      simp [State.statusWord, State.busy, hf]
    rw [step_inFlight hf hh (by simp), hostStep]
    simp only [hh]
    rw [State.checkStatus_busy rfl, hstatus]

end Sys2Proof.Machine

/-! The statements on spec/20_memory.md: the byte layouts, the window bytes a command may write, and what the host's accesses
reach, return, refuse and ignore. -/

namespace Sys2Proof.Machine

/-! ## Byte layouts -/

/-- Byte k of a word in arithmetic: its bits 8k+7 .. 8k (R72). -/
theorem extractLsb'_byte (v : Word) (k : Nat) : v.extractLsb' (8 * k) 8 = BitVec.ofNat 8 (v.toNat / 2 ^ (8 * k)) := by
  rw [BitVec.extractLsb', Nat.shiftRight_eq_div_pow]

theorem le64_getElem? (v : Word) {k : Nat} (hk : k < 8) : (le64 v)[k]? = some (BitVec.ofNat 8 (v.toNat / 2 ^ (8 * k))) := by
  rw [← extractLsb'_byte]
  simp [le64, hk]

/-- Settles O43: `le64` and `readLE64` byte by byte, and packed bits by `bitof_pack`. -/
theorem integerAndPackedBitLayouts : Obligations.IntegerAndPackedBitLayouts := by
  refine ⟨fun v => ⟨le64_length v, fun k hk => le64_getElem? v hk, fun byte a h => ?_⟩,
    fun b => ⟨pack_length b, fun i hi => ?_, fun i hi hlen => ?_⟩⟩
  · exact readLE64_le64 v byte a fun k hk => (List.getElem_eq_iff _).mpr (h k hk) |>.symm
  · rw [bitof_pack b i (by rw [pack_length]; omega), List.getD_eq_getElem _ _ hi]
  · rw [bitof_pack b i hlen, List.getD_eq_default _ _ hi]

/-! ## The window bytes a command writes -/

/-- The commands that write OUT bytes (R69). -/
def outputCommands : List Instr := [.bvPack, .exportShape, .exportFull, .payloadEncode, .payloadDecode]

/-- The staged writes of an output command hold the bytes it produced, which fit below OUT_CAP; those of the other commands
leave the window RAM alone (R67, R69). -/
theorem staged_output {i : Instr} {s u : State} (hu : Staged i s u) :
    (i ∉ outputCommands ∧ u.mem = s.mem) ∨
      i ∈ outputCommands ∧ ∃ b, s.outLen.toNat + b.length ≤ s.caps.outBytes ∧ u.mem = (s.emitted b).mem ∧
        u.outLen = (s.emitted b).outLen ∧ u.result = (s.emitted b).result := by
  cases i with
  | nop | bvClear | freqClear | treeClear | pqClear =>
    obtain rfl := hu
    exact .inl ⟨by simp [outputCommands], rfl⟩
  | bvGet | bvSet _ | bvAppend _ | bvReserve | build =>
    obtain ⟨-, rfl⟩ := hu
    exact .inl ⟨by simp [outputCommands], rfl⟩
  | bvUnpack | pqPushLeaf _ =>
    obtain ⟨-, -, rfl⟩ := hu
    exact .inl ⟨by simp [outputCommands], rfl⟩
  | pqMerge =>
    obtain ⟨_, _, _, -, -, -, rfl⟩ := hu
    exact .inl ⟨by simp [outputCommands], rfl⟩
  | pqPop | importShape | importFull =>
    obtain ⟨_, _, -, rfl⟩ := hu
    exact .inl ⟨by simp [outputCommands], rfl⟩
  | encodeSym _ =>
    obtain ⟨_, -, -, rfl⟩ := hu
    exact .inl ⟨by simp [outputCommands], rfl⟩
  | decodeSym =>
    obtain ⟨_, _, _, -, -, rfl⟩ := hu
    exact .inl ⟨by simp [outputCommands], rfl⟩
  | height _ =>
    obtain ⟨-, rfl⟩ | ⟨_, -, rfl⟩ := hu
    all_goals exact .inl ⟨by simp [outputCommands], rfl⟩
  | bvPack | exportShape | exportFull =>
    obtain ⟨hcap, rfl⟩ := hu
    exact .inr ⟨by simp [outputCommands], _, hcap, rfl, rfl, rfl⟩
  | payloadEncode =>
    obtain ⟨_, -, -, hcap, rfl⟩ := hu
    exact .inr ⟨by simp [outputCommands], _, hcap, rfl, rfl, rfl⟩
  | payloadDecode =>
    obtain ⟨_, _, _, _, -, -, -, hcap, hd, rfl⟩ := hu
    rw [← (decodeMany_some hd).1] at hcap
    exact .inr ⟨by simp [outputCommands], _, hcap, rfl, rfl, rfl⟩

/-- Settles O17: a roll back draws the bytes from OUT[OUT_LEN] up, and a commit stores what `staged_output` says. -/
theorem windowBytesWrittenOnlyAtOutLen : Obligations.WindowBytesWrittenOnlyAtOutLen := by
  refine ⟨fun s e j _ hlen hj => ?_, fun i s t hc he herr => ?_⟩
  · rw [State.outByte, State.rollback_caps, if_pos hj, s.ramByte_rollback_above e (by omega)]
  obtain ⟨u, hu, rfl⟩ := exec_committed he herr
  obtain ⟨hcaps, -, -, -, hram, hdraws, -⟩ := staged_frame hu
  obtain ⟨hi, hmem⟩ | ⟨hi, b, hcap, hmem, hlen, hres⟩ := staged_output hu
  · refine ⟨fun _ _ _ _ _ => State.ramByte_congr (t := u.commit) hmem hdraws hram, fun hout => ?_⟩
    simp [outputCommands, hout] at hi
  · have hbound : s.caps.outBytes ≤ 65536 := hc.2.2.1.2
    have hlenNat : u.commit.outLen.toNat = s.outLen.toNat + b.length := by
      rw [State.commit_outLen, hlen]
      exact Nat.mod_eq_of_lt (by omega)
    have hresNat : u.commit.result.toNat = b.length := by
      rw [State.commit_result, hres]
      exact Nat.mod_eq_of_lt (by omega)
    rw [hlenNat, hresNat]
    refine ⟨fun h1 h2 h3 h4 h5 => ?_, fun _ => ⟨rfl, hcap, ?_⟩⟩
    · simp [outputCommands, h1, h2, h3, h4, h5] at hi
    · exact (emitted_bytes (t := u.commit) hcap hmem hdraws hram hcaps).2

/-! ## Reads -/

theorem State.showsIdle_hostRead (s : State) (n : Nat) (t t' : Target) : (s.hostRead n t).showsIdle t' = s.showsIdle t' := rfl

/-- While BUSY = 0 a read does not change what a read returns (R66). -/
theorem State.readTarget_hostRead {s : State} (h : s.busy = false) (n : Nat) (t t' : Target) :
    (s.hostRead n t).readTarget n t' = s.readTarget n t' := by
  have hb : (s.hostRead n t).busy = false := h
  cases t' with
  | reg r => simp only [State.readTarget, h, hb]; rfl
  | ram a => simp only [State.readTarget, h, hb]; rfl
  | nothing => rfl

/-- While BUSY = 0 reading the same target again only records the same value again (R66). -/
theorem State.hostRead_hostRead {s : State} (h : s.busy = false) (n : Nat) (t : Target) :
    (s.hostRead n t).hostRead n t = { s.hostRead n t with reads := s.readTarget n t :: (s.hostRead n t).reads } := by
  have hb : (s.hostRead n t).busy = false := h
  rw [State.hostRead, State.readTarget_hostRead h, hb, State.showsIdle_hostRead, State.hostRead_awaiting]
  simp

/-- Settles O51: a read is `hostRead`, which changes the host's side only. -/
theorem readsAreIdempotent : Obligations.ReadsAreIdempotent := by
  refine ⟨fun s t a n hr => ?_, fun s t a n h hr => ?_⟩
  · obtain ⟨tgt, -, rfl⟩ := busRead_next hr
    exact ⟨_, _, _, rfl⟩
  · obtain ⟨tgt, ht, rfl⟩ := busRead_next hr
    refine ⟨s.readTarget n tgt, s.awaiting && !(s.showsIdle tgt), by simp [State.hostRead, h], ?_⟩
    rw [busRead, State.hostRead_caps, ht]
    exact congrArg Host.Outcome.next (State.hostRead_hostRead h n tgt)

/-! ## Window accesses -/

/-- A window access of a shape of R63 that ends below the window's capacity reaches RAM. -/
theorem windowTarget_ram {cap addr off n : Nat} (hs : windowShape addr n) (h : off + n ≤ cap) :
    windowTarget cap addr off n = .ok (.ram addr) := by
  rw [windowTarget, if_pos hs, if_neg (by omega), if_pos h]

/-- An access to backed bytes of a window reaches the RAM at its address (R63, R70). -/
theorem busTarget_windowBytes {c : Caps} {a n : Nat} (hc : c.Ok) (h : windowBytes c a n) : busTarget c a n = .ok (.ram a) := by
  obtain ⟨hs, hwin⟩ := h
  obtain ⟨-, ⟨-, hinCap⟩, ⟨-, houtCap⟩, -⟩ := hc
  have hin : Config.inBase = 65536 := rfl
  have hout : Config.outBase = 131072 := rfl
  have hend : Config.outEnd = 196608 := rfl
  obtain ⟨hlo, hhi⟩ | ⟨hlo, hhi⟩ := hwin
  · rw [busTarget, if_neg (by omega), if_pos (by omega), windowTarget_ram hs (by omega)]
  · rw [busTarget, if_neg (by omega), if_neg (by omega), if_pos (by omega), windowTarget_ram hs (by omega)]

/-- While BUSY = 0 a write to backed bytes of a window is taken (R67). -/
theorem busWrite_windowBytes {s : State} {a n : Nat} (hc : s.caps.Ok) (h : s.busy = false) (hwin : windowBytes s.caps a n)
    (v : Word) : busWrite a n v s = .next (s.writeTarget n v (.ram a)) := by
  rw [busWrite, busTarget_windowBytes hc hwin, h]
  rfl

/-- While BUSY = 0 a read of backed bytes of a window returns their little-endian value (R73). -/
theorem busRead_windowBytes {s : State} {a n : Nat} (hc : s.caps.Ok) (h : s.busy = false) (hwin : windowBytes s.caps a n) :
    busRead a n s = .next { s with reads := BitVec.ofNat 64 (readLE s.ramByte a n) :: s.reads } := by
  rw [busRead, busTarget_windowBytes hc hwin]
  simp [hostRead_idle h, State.readTarget, h]

/-- The window bytes after a RAM write of n bytes: the low n bytes of the value from the address up, the others as they were. -/
theorem State.ramByte_writeTarget (s : State) (a n : Nat) (v : Word) (j : Nat) :
    (s.writeTarget n v (.ram a)).ramByte j =
      if a ≤ j ∧ j < a + n then v.extractLsb' (8 * (j - a)) 8 else s.ramByte j := by
  rw [State.ramByte_setList (s := s) (t := s.writeTarget n v (.ram a)) rfl rfl rfl]
  have hlen := writeBytes_length v n
  by_cases hj : a ≤ j ∧ j < a + n
  · rw [if_pos hj, dif_pos (by omega)]
    simp [writeBytes]
  · rw [if_neg hj, dif_neg (by omega)]

/-- The bytes of a RAM write by their distance from its address. -/
theorem State.ramByte_writeTarget_add (s : State) (a : Nat) {n k : Nat} (v : Word) (hk : k < n) :
    (s.writeTarget n v (.ram a)).ramByte (a + k) = v.extractLsb' (8 * k) 8 := by
  rw [s.ramByte_writeTarget, if_pos (by omega), Nat.add_sub_cancel_left]

/-- Settles O58: the bytes of the write are those of the value, and `readLE_bytes` puts them together again. -/
theorem windowWriteThenRead : Obligations.WindowWriteThenRead := by
  intro s a n v hc h hwin
  refine ⟨s.writeTarget n v (.ram a), _, busWrite_windowBytes hc h hwin v, rfl, fun k hk => ?_, fun j hj => ?_, _, ?_,
    busRead_windowBytes (s := s.writeTarget n v (.ram a)) hc h hwin⟩
  · rw [s.ramByte_writeTarget_add a v hk, extractLsb'_byte]
  · rw [s.ramByte_writeTarget, if_neg hj]
  · rw [readLE_bytes v _ a n fun k hk => s.ramByte_writeTarget_add a v hk]
    exact Nat.mod_eq_of_lt ((Nat.mod_le _ _).trans_lt v.isLt)

/-! ## Refused accesses -/

/-- An answer that is a next state where p holds and a refusal where it does not is each of them exactly there. -/
theorem next_iff_and_refused_iff {p : Prop} {answer : Answer}
    (h : (p ∧ ∃ t, answer = .next t) ∨ (¬p ∧ ∃ r, answer = .refused r)) :
    ((∃ t, answer = .next t) ↔ p) ∧ ((∃ r, answer = .refused r) ↔ ¬p) := by
  obtain ⟨hp, t, rfl⟩ | ⟨hp, r, rfl⟩ := h
  · simp [hp]
  · simp [hp]

/-- A read answers a next state if the host may make the access, and is refused if not (R62, R63, R255). -/
theorem busRead_answer (a n : Nat) (s : State) :
    (accessOk s.caps a n ∧ ∃ t, busRead a n s = .next t) ∨
      (¬accessOk s.caps a n ∧ ∃ r, busRead a n s = .refused r) := by
  rw [← busTarget_ok_iff]
  cases h : busTarget s.caps a n with
  | ok tgt => exact .inl ⟨⟨tgt, rfl⟩, _, by rw [busRead, h]⟩
  | error r => exact .inr ⟨by simp, r, by rw [busRead, h]⟩

/-- A write, while BUSY = 0 or 1, answers a next state if the host may make the access, and is refused if not (R62, R63, R255). -/
theorem busWrite_answer (a n : Nat) (v : Word) (s : State) :
    (accessOk s.caps a n ∧ ∃ t, busWrite a n v s = .next t) ∨
      (¬accessOk s.caps a n ∧ ∃ r, busWrite a n v s = .refused r) := by
  rw [← busTarget_ok_iff]
  cases h : busTarget s.caps a n with
  | ok tgt => exact .inl ⟨⟨tgt, rfl⟩, _, by rw [busWrite, h]⟩
  | error r => exact .inr ⟨by simp, r, by rw [busWrite, h]⟩

/-- Settles O59, from what a read and a write answer. -/
theorem refusedAccessesAreTheMalformedOnes : Obligations.RefusedAccessesAreTheMalformedOnes := by
  intro s a n v
  obtain ⟨hnext, hrefused⟩ := next_iff_and_refused_iff (busRead_answer a.toNat n s)
  exact ⟨hnext, hrefused, next_iff_and_refused_iff (busWrite_answer a.toNat n v s)⟩

/-! ## Reserved addresses -/

/-- The registers stand in two ranges of the register map (R50). -/
theorem regOffset_range (r : Reg) : r.offset < 0x090 ∨ (0x800 ≤ r.offset ∧ r.offset < 0x1000) := by
  cases r with
  | freq sym =>
    have := sym.isLt
    simp only [Reg.offset]
    omega
  | _ => decide

/-- An access that is not refused, at no register's offset and at no backed byte, reaches nothing (R64). -/
theorem busTarget_nothing {c : Caps} {a n : Nat} (hok : accessOk c a n) (hreg : ∀ r : Reg, a ≠ r.offset)
    (hram : ¬backed c a) : busTarget c a n = .ok .nothing := by
  obtain ⟨tgt, ht⟩ := (busTarget_ok_iff c a n).mpr hok
  cases tgt with
  | reg r => exact absurd (busTarget_reg.mp ht).1 (hreg r)
  | ram addr =>
    obtain ⟨-, hn, hb⟩ := busTarget_ram ht
    exact absurd (hb 0 (by omega)) hram
  | nothing => exact ht

/-- Settles O60: no reserved address is a register's offset or a backed byte. -/
theorem reservedAddressesReadZero : Obligations.ReservedAddressesReadZero := by
  intro s a n v hc hok hres
  obtain ⟨-, ⟨-, hinCap⟩, ⟨-, houtCap⟩, -⟩ := hc
  have ht : busTarget s.caps a.toNat n = .ok .nothing := by
    refine busTarget_nothing hok (fun r hr => ?_) ?_
    · have := regOffset_range r
      omega
    · simp only [backed, Config.inBase, Config.outBase]
      omega
  refine ⟨⟨s.hostRead n .nothing, by rw [busRead, ht], rfl⟩, fun h => ?_⟩
  rw [busWrite, ht, h]
  rfl

end Sys2Proof.Machine

/-! The statements on spec/30_encoding.md: a word's fields as numbers, the opcode map in both directions, the legal words of R84
and the reserved ones of R85. -/

namespace Sys2Proof

open Sys2Proof.Laws.Encoded (encode_toNat fields_of_word)

/-! ## The fields of R80 as numbers -/

theorem opcField_toNat (w : Word) : (opcField w).toNat = w.toNat / 2 ^ 24 % 256 := by
  simp [opcField, Nat.shiftRight_eq_div_pow]

theorem immField_toNat (w : Word) : (immField w).toNat = w.toNat / 2 ^ 16 % 256 := by
  simp [immField, Nat.shiftRight_eq_div_pow]

theorem rsvdHi_eq_zero_iff (w : Word) : rsvdHi w = 0 ↔ w.toNat < 2 ^ 32 := by
  have hw := w.isLt
  simp only [rsvdHi, ← BitVec.toNat_inj, BitVec.extractLsb'_toNat, Nat.shiftRight_eq_div_pow, BitVec.ofNat_eq_ofNat,
    BitVec.toNat_zero]
  omega

theorem rsvdLo_eq_zero_iff (w : Word) : rsvdLo w = 0 ↔ w.toNat % 2 ^ 16 = 0 := by
  simp [rsvdLo, ← BitVec.toNat_inj]

/-- A word is an encoding exactly when it has the command's two fields and 0 in both reserved ones. -/
theorem eq_encode_iff (w : Word) (i : Instr) :
    w = encode i ↔ rsvdHi w = 0 ∧ rsvdLo w = 0 ∧ opcField w = opcodeOf i ∧ immField w = immediateOf i := by
  constructor
  · rintro rfl
    obtain ⟨hopc, himm, hhi, hlo⟩ := fields_of_word _ _ _ (encode_toNat i)
    exact ⟨hhi, hlo, hopc, himm⟩
  · rintro ⟨hhi, hlo, hopc, himm⟩
    rw [rsvdHi_eq_zero_iff] at hhi
    rw [rsvdLo_eq_zero_iff] at hlo
    apply BitVec.eq_of_toNat_eq
    rw [encode_toNat, ← hopc, ← himm, opcField_toNat, immField_toNat]
    omega

/-! ## The operand forms of R81 and the opcode map of R83 -/

/-- The part of IMM8 that is operand (R81, R82); the rest must be 0. -/
def Form.operand : Form → Byte → Byte
  | .n, _ => 0
  | .s, imm => imm
  | .b, imm => if imm.getLsbD 0 then 1 else 0

/-- IMM8[7:1] as a number. -/
theorem bitRest_eq_zero_iff (imm : Byte) : imm.extractLsb' 1 7 = 0 ↔ imm.toNat < 2 := by
  have himm := imm.isLt
  simp only [← BitVec.toNat_inj, BitVec.extractLsb'_toNat, Nat.shiftRight_eq_div_pow, BitVec.ofNat_eq_ofNat,
    BitVec.toNat_zero]
  omega

theorem operand_n_eq_iff (imm : Byte) : Form.n.operand imm = imm ↔ imm = 0 := eq_comm

theorem operand_s_eq_iff (imm : Byte) : Form.s.operand imm = imm ↔ True := iff_true_intro rfl

/-- IMM8[7:1] = 0 says that IMM8 is its bit 0. -/
theorem operand_b_eq_iff (imm : Byte) : Form.b.operand imm = imm ↔ imm.toNat < 2 := by
  rw [Form.operand, ← BitVec.toNat_inj, BitVec.getLsbD, Nat.testBit_zero]
  split <;> simp_all <;> omega

/-- What the map answers at an opcode: a command of that opcode, with the operand IMM8 holds. -/
theorem opcodeMap_some {opc imm : Byte} {f : Form} {i : Instr} (h : opcodeMap opc imm = some (f, i)) :
    opc = opcodeOf i ∧ f.operand imm = immediateOf i := by
  rw [← BitVec.toNat_inj]
  unfold opcodeMap at h
  split at h <;> cases h
  all_goals exact ⟨‹_›, rfl⟩

/-- Every command is in the map, at its opcode and operand. -/
theorem opcodeMap_opcodeOf (i : Instr) :
    ∃ f, opcodeMap (opcodeOf i) (immediateOf i) = some (f, i) ∧ f.operand (immediateOf i) = immediateOf i := by
  cases i
  case bvSet val | bvAppend val => cases val <;> exact ⟨_, rfl, rfl⟩
  all_goals exact ⟨_, rfl, rfl⟩

/-- A decoder's check answers a command only when it finds nothing wrong. -/
theorem ite_error_ok_iff {p : Prop} [Decidable p] {r : Reject} {i j : Instr} :
    (if p then Except.error r else .ok j) = .ok i ↔ j = i ∧ ¬p := by
  split <;> simp [*]

/-- R84: the legal words are those with 0 in both reserved fields, an opcode of the map and an IMM8 that is all operand. -/
theorem decode_ok_iff (w : Word) (i : Instr) :
    decode w = .ok i ↔ rsvdHi w = 0 ∧ rsvdLo w = 0 ∧
      ∃ f, opcodeMap (opcField w) (immField w) = some (f, i) ∧ f.operand (immField w) = immField w := by
  unfold decode
  split
  case isTrue h =>
    constructor
    · nofun
    · rintro ⟨hhi, hlo, -⟩
      exact (h.elim (· hhi) (· hlo)).elim
  case isFalse h =>
    obtain ⟨hhi, hlo⟩ := not_or.mp h
    rw [not_not] at hhi hlo
    cases hmap : opcodeMap (opcField w) (immField w) with
    | none => simp
    | some p =>
      obtain ⟨f, j⟩ := p
      cases f with
      | n => simp only [ite_error_ok_iff]; simp [hhi, hlo, operand_n_eq_iff]
      | s => simp [hhi, hlo, operand_s_eq_iff]
      | b => simp only [ite_error_ok_iff, bitRest_eq_zero_iff, ne_eq]; simp [hhi, hlo, operand_b_eq_iff]

/-! ## The reserved words of R85 -/

/-- R84: the illegal words are those with a nonzero reserved field, an opcode outside the map or an IMM8 that is not all operand. -/
theorem decode_error_iff (w : Word) :
    (∃ r, decode w = .error r) ↔ rsvdHi w ≠ 0 ∨ rsvdLo w ≠ 0 ∨ opcodeMap (opcField w) (immField w) = none ∨
      ∃ f i, opcodeMap (opcField w) (immField w) = some (f, i) ∧ f.operand (immField w) ≠ immField w := by
  have hok : (∃ r, decode w = .error r) ↔ ¬∃ i, decode w = .ok i := by
    cases decode w <;> simp
  simp only [hok, decode_ok_iff, exists_and_left, not_and_or]
  cases opcodeMap (opcField w) (immField w) with
  | none => simp
  | some p =>
    obtain ⟨f, i⟩ := p
    simp

/-- The opcodes outside the map, as R85 lists them. -/
def ReservedOpcode (opc : Nat) : Prop :=
  (0x01 ≤ opc ∧ opc ≤ 0x0F) ∨ (0x17 ≤ opc ∧ opc ≤ 0x1F) ∨ (0x27 ≤ opc ∧ opc ≤ 0x2F) ∨
    (0x33 ≤ opc ∧ opc ≤ 0x3F) ∨ (0x44 ≤ opc ∧ opc ≤ 0x4F) ∨ 0x52 ≤ opc

/-- IMM8 breaks the form R83 gives the opcode: IMM8 ≠ 0 at an opcode of neither form B nor S, IMM8 ≥ 2 at one of form B. -/
def BreaksForm (opc imm : Nat) : Prop :=
  (opc ≠ 0x12 ∧ opc ≠ 0x13 ∧ opc ≠ 0x24 ∧ opc ≠ 0x30 ∧ opc ≠ 0x32 ∧ imm ≠ 0) ∨ ((opc = 0x12 ∨ opc = 0x13) ∧ 2 ≤ imm)

theorem opcodeMap_none_iff (opc imm : Byte) : opcodeMap opc imm = none ↔ ReservedOpcode opc.toNat := by
  have hopc := opc.isLt
  unfold opcodeMap ReservedOpcode
  split
  case h_25 =>
    simp only [imp_false, true_iff] at *
    omega
  all_goals
    simp only [reduceCtorEq, false_iff]
    omega

/-- In the map, IMM8 is all operand unless it breaks the opcode's form. -/
theorem operand_ne_iff {opc imm : Byte} {f : Form} {i : Instr} (h : opcodeMap opc imm = some (f, i)) :
    f.operand imm ≠ imm ↔ BreaksForm opc.toNat imm.toNat := by
  have hn : imm = 0 ↔ imm.toNat = 0 := BitVec.toNat_inj.symm
  unfold opcodeMap at h
  split at h <;> cases h
  all_goals
    simp only [BreaksForm, ne_eq, operand_n_eq_iff, operand_s_eq_iff, operand_b_eq_iff, not_true_eq_false, false_iff, hn]
    omega

/-- The two checks of R84 on the opcode and IMM8, in R85's arithmetic. -/
theorem opcodeMap_fails_iff (opc imm : Byte) :
    (opcodeMap opc imm = none ∨ ∃ f i, opcodeMap opc imm = some (f, i) ∧ f.operand imm ≠ imm) ↔
      ReservedOpcode opc.toNat ∨ BreaksForm opc.toNat imm.toNat := by
  rw [← opcodeMap_none_iff opc imm]
  cases hmap : opcodeMap opc imm with
  | none => simp
  | some p =>
    obtain ⟨f, i⟩ := p
    rw [← operand_ne_iff hmap]
    simp

end Sys2Proof

namespace Sys2Proof.Machine

/-- Settles O2: by the fields of the word, and the opcode map in both directions. -/
theorem decodeIffEncode : Obligations.DecodeIffEncode := by
  intro w i
  rw [decode_ok_iff, eq_encode_iff]
  refine and_congr_right fun _ => and_congr_right fun _ => ⟨?_, ?_⟩
  · rintro ⟨f, hmap, hform⟩
    obtain ⟨hopc, himm⟩ := opcodeMap_some hmap
    exact ⟨hopc, hform ▸ himm⟩
  · rintro ⟨hopc, himm⟩
    rw [hopc, himm]
    exact opcodeMap_opcodeOf i

/-- Settles O3: each disjunct of `decode_error_iff` in arithmetic, and the engine's step on an illegal word. -/
theorem illegalWordsAreTheReservedOnes : Obligations.IllegalWordsAreTheReservedOnes := by
  intro w
  refine ⟨?_, fun r hr s => engineStep_error s hr⟩
  rw [decode_error_iff, opcodeMap_fails_iff, ne_eq, ne_eq, rsvdHi_eq_zero_iff, rsvdLo_eq_zero_iff, not_lt,
    exists_eq_left', ← opcField_toNat, ← immField_toNat]
  simp only [ReservedOpcode, BreaksForm, or_assoc]

/-- A legal word of R89 decodes to the command it encodes. -/
theorem encode_and_decode {w : Word} {i : Instr} (h : encode i = w) : encode i = w ∧ decode w = .ok i :=
  ⟨h, (decodeIffEncode w i).mpr h.symm⟩

/-- Settles O1: the legal words by `decodeIffEncode`, the illegal ones by evaluation. -/
theorem encodingExamplesDecode : Obligations.EncodingExamplesDecode :=
  ⟨encode_and_decode rfl, encode_and_decode rfl, encode_and_decode rfl, encode_and_decode rfl, encode_and_decode rfl,
    encode_and_decode rfl, encode_and_decode rfl, rfl, rfl, rfl, rfl, rfl⟩

end Sys2Proof.Machine

/-! The statements on spec/40_command_model.md: what a roll back keeps, the engine's step on a legal and on an illegal word, and that
a command in flight ends. -/

namespace Sys2Proof.Machine

/-! ## Roll back -/

/-- A roll back leaves the OUT bytes below OUT_LEN as they were (R102). -/
theorem State.outByte_rollback_below (s : State) (e : ErrCode) {i : Nat} (hi : i < s.outLen.toNat) :
    (s.rollback e).outByte i = s.outByte i := by
  rw [State.outByte, State.outByte, State.rollback_caps, s.ramByte_rollback_below e (by omega)]

/-- A roll back is what R102 says of it. -/
theorem rolledBack_rollback {s : State} (hc : s.caps.Ok) (e : ErrCode) : RolledBack s (s.rollback e) := by
  obtain ⟨-, ⟨-, hin⟩, -⟩ := hc
  exact {
    registers := ⟨rfl, rfl, rfl, rfl, rfl, rfl⟩
    flags := ⟨rfl, rfl⟩
    storage := ⟨rfl, rfl, rfl, rfl⟩
    host := ⟨rfl, rfl, rfl, rfl⟩
    inWindow := s.inByte_rollback e hin
    outWindow := fun _ hi => s.outByte_rollback_below e hi
    status := ⟨rfl, rfl⟩ }

/-- Settles O13: `rolledBack_rollback`, and a command that reports an error has rolled back with it. -/
theorem rollBackKeepsEverything : Obligations.RollBackKeepsEverything := by
  refine ⟨fun s e hc => ⟨rolledBack_rollback hc e, s.rollback_errcode e⟩, fun i s t h herr => ?_⟩
  obtain ⟨e, -, ht⟩ := exec_failed h herr
  exact ⟨e, ht⟩

/-- Settles O5: the engine rolls an illegal word back with ILLEGAL_COMMAND. -/
theorem illegalWordRollsBack : Obligations.IllegalWordRollsBack := fun s _ _ hc hr =>
  ⟨s.rollback .illegalCommand, engineStep_error s hr, rolledBack_rollback hc _, s.rollback_errcode _⟩

/-! ## The engine's step -/

/-- Settles O4: when the engine moves, the step is `engineStep` on the word in flight; just after the word was accepted, no access
may land before it. -/
theorem stepRunsTheDecodedCommand : Obligations.StepRunsTheDecodedCommand := by
  refine ⟨fun s f hf hturn => ?_, fun s i => ?_⟩
  · have hstep := step_engine hf (engineTurn_iff.mpr hturn)
    exact ⟨fun i hi => hstep.trans (engineStep_ok s hi), fun r _ => hstep⟩
  · rw [State.withFetchWord_toNat]
    have hturn : engineTurn { word := encode i, delay := 0 } (s.issue (encode i) 0).host = true :=
      engineTurn_iff.mpr (.inr (.inr rfl))
    have hdecode : decode (encode i) = .ok i := (decodeIffEncode _ _).mpr rfl
    rw [step_engine (s.issue_flight _ _) hturn, engineStep_ok _ hdecode]

/-- Settles O18: the words by evaluation, and each command by its meaning, which makes no check. -/
theorem clearingCommandsCommit : Obligations.ClearingCommandsCommit :=
  ⟨⟨rfl, rfl, rfl, rfl, rfl⟩, fun _ => ⟨rfl, rfl, rfl, rfl, rfl⟩⟩

/-! ## A command in flight ends -/

theorem run_succ_of_next {M : Host.Core} {s t : M.State} (h : M.step s = .next t) (k : Nat) :
    M.run (k + 1) s = M.run k t := by
  rw [Host.Core.run, h]

theorem run_succ_of_refused {M : Host.Core} {s : M.State} {r : M.Refusal} (h : M.step s = .refused r) (k : Nat) :
    M.run (k + 1) s = .refused r := by
  rw [Host.Core.run, h]

/-- Within n steps the block is idle, or the host has made an access it may not make. -/
def EndsWithin (n : Nat) (s : State) : Prop :=
  ∃ k, k ≤ n ∧
    ((∃ t, Host.Core.run Sys2Proof.core k s = .next t ∧ State.busy t = false) ∨
      ∃ r, Host.Core.run Sys2Proof.core k s = .refused r)

theorem endsWithin_of_idle {s : State} (h : s.busy = false) (n : Nat) : EndsWithin n s :=
  ⟨0, n.zero_le, .inl ⟨s, rfl, h⟩⟩

theorem endsWithin_of_refused {s : State} {r : Refusal} (h : step s = .refused r) (n : Nat) : EndsWithin (n + 1) s :=
  ⟨1, by omega, .inr ⟨r, run_succ_of_refused (M := Sys2Proof.core) h 0⟩⟩

theorem endsWithin_of_next {s t : State} {n : Nat} (h : step s = .next t) (ht : EndsWithin n t) : EndsWithin (n + 1) s := by
  obtain ⟨k, hk, hends⟩ := ht
  have hrun : Host.Core.run Sys2Proof.core (k + 1) s = Host.Core.run Sys2Proof.core k t :=
    run_succ_of_next (M := Sys2Proof.core) h k
  exact ⟨k + 1, by omega, hrun ▸ hends⟩

/-- No step of the block faults (R107, R224). -/
theorem answer_cases (answer : Answer) : (∃ t, answer = .next t) ∨ ∃ r, answer = .refused r := by
  cases answer with
  | next t => exact .inl ⟨t, rfl⟩
  | fault f => nomatch f
  | refused r => exact .inr ⟨r, rfl⟩

/-- The engine's step ends the command, whether its word is legal or not (R107). -/
theorem engineStep_ends (w : Word) (s : State) : ∃ t, engineStep w s = .next t ∧ t.busy = false := by
  cases h : decode w with
  | ok i =>
    obtain ⟨t, ht, hidle, -⟩ := everyCommandEnds i s
    exact ⟨t, (engineStep_ok s h).trans ht, hidle⟩
  | error r => exact ⟨_, engineStep_error s h, s.busy_rollback _⟩

/-- A step in which the engine does not move: the host does, with one access less to land (log 6). -/
theorem step_host {s : State} {f : Flight} (hf : s.flight = some f) (hturn : engineTurn f s.host = false) :
    step s = hostStep { s with flight := some f.tick } := by
  rw [step, systemStep, hf]
  simp only [hturn, Bool.false_eq_true, if_false]

/-- A write to CTRL abandons the command in flight, or leaves it alone (R40, R251). -/
theorem State.writeCtrl_flight (s : State) (v : Word) : (s.writeCtrl v).busy = false ∨ (s.writeCtrl v).flight = s.flight := by
  unfold State.writeCtrl
  split
  · exact .inl rfl
  · exact .inr rfl

/-- While BUSY = 1 the host's move starts no command: it abandons the one in flight, or leaves it alone (R251, R260). -/
theorem hostStep_flight {s t : State} (hb : s.busy = true) (h : hostStep s = .next t) :
    t.busy = false ∨ t.flight = s.flight := by
  obtain ⟨-, rfl⟩ | ⟨a, n, rest, -, hr⟩ | ⟨a, n, v, rest, -, hw⟩ | ⟨rest, -, rfl⟩ | ⟨rest, -, rfl⟩ := hostStep_next h
  · exact .inr rfl
  · obtain ⟨tgt, -, rfl⟩ := busRead_next hr
    exact .inr rfl
  · obtain ⟨tgt, -, ⟨-, -, rfl⟩ | ⟨-, -, rfl⟩ | ⟨hidle, -⟩⟩ := busWrite_next hw
    · exact State.writeCtrl_flight { s with host := rest } v
    · exact .inr rfl
    · exact absurd hb (Bool.eq_false_iff.mp hidle)
  · exact .inr rfl
  · rw [State.checkStatus_eq]
    exact .inr rfl

theorem endsWithin_of_engineTurn {s : State} {f : Flight} (hf : s.flight = some f) (hturn : engineTurn f s.host = true)
    (n : Nat) : EndsWithin (n + 1) s := by
  obtain ⟨t, ht, hidle⟩ := engineStep_ends f.word s
  exact endsWithin_of_next ((step_engine hf hturn).trans ht) (endsWithin_of_idle hidle n)

/-- A command in flight ends in the engine's step, and before it at most `delay` accesses of the host land: each lowers `delay`. -/
theorem endsWithin_of_flight {s : State} {w : Word} {d : Nat} (hf : s.flight = some { word := w, delay := d }) :
    EndsWithin (d + 1) s := by
  induction d generalizing s with
  | zero => exact endsWithin_of_engineTurn hf (engineTurn_iff.mpr (.inr (.inr rfl))) 0
  | succ d ih =>
    cases hturn : engineTurn { word := w, delay := d + 1 } s.host with
    | true => exact endsWithin_of_engineTurn hf hturn _
    | false =>
      have hstep : step s = hostStep { s with flight := some { word := w, delay := d } } := step_host hf hturn
      obtain ⟨t, ht⟩ | ⟨r, hr⟩ := answer_cases (step s)
      · refine endsWithin_of_next ht ?_
        obtain hidle | hflight := hostStep_flight rfl (hstep.symm.trans ht)
        · exact endsWithin_of_idle hidle _
        · exact ih hflight
      · exact endsWithin_of_refused hr _

/-- Settles O8, by induction on the latency. -/
theorem commandInFlightEnds : Obligations.CommandInFlightEnds := fun _ _ hf => endsWithin_of_flight hf

end Sys2Proof.Machine

/-! The statements on spec/41_bitvector.md: the storage each command may change, and the bit-vector commands. -/

namespace Sys2Proof.Machine

/-! ## The storage a command may change -/

/-- The storage elements, each with the commands whose rules stage a write to it; the bit vector is only extended, but for
BV_CLEAR and BV_SET (R44, R45, R46, R110). -/
theorem staged_storage {i : Instr} {s u : State} (hu : Staged i s u) :
    (u.freq ≠ s.freq → i = .freqClear) ∧
    (u.tree ≠ s.tree → i = .build ∨ i = .treeClear ∨ i = .pqPop ∨ i = .importShape ∨ i = .importFull ∨ i = .payloadDecode) ∧
    (u.pq ≠ s.pq → i = .build ∨ i = .pqClear ∨ (∃ x, i = .pqPushLeaf x) ∨ i = .pqMerge ∨ i = .pqPop) ∧
    (u.bvLen ≠ s.bvLen → i = .bvClear ∨ (∃ v, i = .bvAppend v) ∨ i = .bvReserve ∨ i = .bvUnpack ∨ ∃ x, i = .encodeSym x) ∧
    (i ≠ .bvClear → (∀ v, i ≠ .bvSet v) → ∃ added, u.bv = s.bv ++ added) := by
  cases i with
  | nop | bvClear | freqClear | treeClear | pqClear =>
    obtain rfl := hu
    simp [State.bvLen]
  | bvGet | bvSet _ | bvAppend _ | bvReserve | bvPack | build | exportShape | exportFull =>
    obtain ⟨-, rfl⟩ := hu
    simp [State.bvLen, State.emitted]
  | bvUnpack | pqPushLeaf _ =>
    obtain ⟨-, -, rfl⟩ := hu
    simp [State.bvLen]
  | pqMerge =>
    obtain ⟨_, _, _, -, -, -, rfl⟩ := hu
    simp [State.bvLen]
  | pqPop | importShape | importFull =>
    obtain ⟨_, _, -, rfl⟩ := hu
    simp [State.bvLen]
  | encodeSym _ =>
    obtain ⟨_, -, -, rfl⟩ := hu
    simp
  | decodeSym =>
    obtain ⟨_, _, _, -, -, rfl⟩ := hu
    simp [State.bvLen]
  | height _ =>
    obtain ⟨-, rfl⟩ | ⟨_, -, rfl⟩ := hu
    all_goals simp [State.bvLen]
  | payloadEncode =>
    obtain ⟨_, -, -, -, rfl⟩ := hu
    simp [State.bvLen, State.emitted]
  | payloadDecode =>
    obtain ⟨_, _, _, _, -, -, -, -, -, rfl⟩ := hu
    simp [State.bvLen, State.emitted]

/-- Settles O16: a commit makes the staged writes of its command only, and a roll back touches no storage. -/
theorem storageWrittenOnlyByItsCommands : Obligations.StorageWrittenOnlyByItsCommands := by
  intro i s t h
  obtain ⟨u, hu, rfl⟩ | ⟨e, -, rfl⟩ := exec_next h
  · exact staged_storage (u := u) hu
  · simp [State.bvLen]

/-! ## The bit-vector commands -/

/-- A command whose one check fails rolls back with its error (R102). -/
theorem endCommand_check_fails {p : Prop} [Decidable p] {s u : State} {e : ErrCode} (h : p) :
    endCommand s (if p then .error e else .ok u) = .next (s.rollback e) := by
  rw [if_pos h, endCommand]

/-- A command whose one check passes commits its staged writes (R101). -/
theorem endCommand_check_passes {p : Prop} [Decidable p] {s u : State} {e : ErrCode} (h : ¬p) :
    endCommand s (if p then .error e else .ok u) = .next u.commit := by
  rw [if_neg h, endCommand]

theorem ofNat_flagBit (b : Bool) : BitVec.ofNat 64 (flagBit b) = if b then 1 else 0 := by cases b <;> rfl

/-- BV_GET at a position that holds the bit b (R112). -/
theorem exec_bvGet_of_bit {s : State} {b : Bool} (h : s.bv[s.arg.toNat]? = some b) :
    exec .bvGet s = .next { s with result := if b then 1 else 0, err := false, errcode := 0, flight := none } := by
  obtain ⟨hlt, -⟩ := List.getElem?_eq_some_iff.mp h
  rw [← ofNat_flagBit, ← Option.getD_some (a := b) (b := false), ← h, ← List.getD_eq_getElem?_getD]
  exact endCommand_check_passes (Nat.not_le.mpr hlt)

/-- Settles O19. -/
theorem bvGetReadsTheBit : Obligations.BvGetReadsTheBit :=
  ⟨rfl, fun _ h => exec_bvGet_of_bit (List.getElem?_eq_getElem h), fun _ h => endCommand_check_fails h⟩

/-- Settles O20: the staged bit vector is `List.set` at the position ARG. -/
theorem bvSetWritesTheBit : Obligations.BvSetWritesTheBit := by
  refine ⟨⟨rfl, rfl⟩, fun s val h => ⟨s.bv.set s.arg.toNat val, endCommand_check_passes (Nat.not_le.mpr h), ?_, ?_, ?_⟩,
    fun _ _ h => endCommand_check_fails h⟩
  · exact List.length_set
  · exact List.getElem?_set_self h
  · exact fun j hj => List.getElem?_set_ne hj.symm

/-- Settles O21: `appendBits` on one bit makes R114's check. -/
theorem bvAppendAddsTheBit : Obligations.BvAppendAddsTheBit :=
  ⟨⟨rfl, rfl⟩, fun _ _ h => endCommand_check_passes (Nat.not_lt.mpr h), fun _ _ h => endCommand_check_fails h⟩

/-- Settles O22: the staged bit vector ends in ARG bits of value 0. -/
theorem bvReserveAddsZeroBits : Obligations.BvReserveAddsZeroBits := by
  refine ⟨rfl, fun s h => ⟨s.bv ++ List.replicate s.arg.toNat false, endCommand_check_passes (Nat.not_lt.mpr h), ?_, ?_, ?_⟩,
    fun _ h => endCommand_check_fails h⟩
  · simp
  · exact fun j hj => List.getElem?_append_left hj
  · intro j hle hlt
    rw [List.getElem?_append_right hle, List.getElem?_replicate_of_lt (by omega)]

/-! ## The laws of the family -/

/-- BV_GET and BV_SET keep BV_LEN, whether they commit or roll back (R116 c). -/
theorem bvLen_of_get_or_set {i : Instr} {s t : State} (hi : i = .bvGet ∨ ∃ v, i = .bvSet v) (h : exec i s = .next t) :
    t.bvLen = s.bvLen := by
  obtain ⟨-, -, -, hlen, -⟩ := storageWrittenOnlyByItsCommands i s t h
  by_contra hne
  have hwriter := hlen hne
  obtain rfl | ⟨v, rfl⟩ := hi <;> simp at hwriter

/-- After a committed BV_APPEND the bit at position BV_LEN - 1, which a 64-bit ARG can hold, is the bit appended (R116 a). -/
theorem last_bit_after_append {s t : State} {v : Bool} (hs : s.Inv) (h : exec (.bvAppend v) s = .next t) (he : t.err = false) :
    t.bv[(BitVec.ofNat 64 (t.bvLen - 1)).toNat]? = some v := by
  obtain ⟨u, ⟨hcap, rfl⟩, rfl⟩ := exec_committed h he
  have hbound : s.caps.bvBits ≤ 2 ^ 32 := hs.caps.1.2
  have hpos : (BitVec.ofNat 64 s.bvLen).toNat = s.bvLen := Nat.mod_eq_of_lt (by omega)
  have hlast : (s.bv ++ [v]).length - 1 = s.bvLen := by simp [State.bvLen]
  rw [State.bvLen, State.commit_bv, hlast, hpos]
  exact List.getElem?_concat_length

/-- Settles O23: each read is `exec_bvGet_of_bit` on the bit vector that the write left. -/
theorem bvGetAfterWrite : Obligations.BvGetAfterWrite := by
  refine ⟨fun s t i hi h => bvLen_of_get_or_set hi h, fun s t i hc _ h he => ?_, fun s t v hs h he => ?_, fun s t v h he => ?_⟩
  · obtain ⟨e, -, rfl⟩ := exec_failed h he
    exact rolledBack_rollback hc e
  · have hbit := last_bit_after_append hs h he
    exact ⟨_, exec_bvGet_of_bit (s := { t with arg := BitVec.ofNat 64 (t.bvLen - 1) }) hbit, rfl, rfl, rfl⟩
  · have hlen := bvLen_of_get_or_set (.inr ⟨v, rfl⟩) h
    obtain ⟨u, ⟨hpos, rfl⟩, rfl⟩ := exec_committed h he
    refine ⟨hlen, ⟨_, exec_bvGet_of_bit (List.getElem?_set_self hpos), rfl, rfl⟩, fun p hp hlt => ?_⟩
    have hbit : s.bv[p.toNat]? = some s.bv[p.toNat] := List.getElem?_eq_getElem hlt
    have hkept : (s.bv.set s.arg.toNat v)[p.toNat]? = some s.bv[p.toNat] :=
      (List.getElem?_set_ne (BitVec.toNat_ne.mp hp.symm)).trans hbit
    exact ⟨_, _, exec_bvGet_of_bit (s := { State.commit { s with bv := s.bv.set s.arg.toNat v } with arg := p }) hkept,
      exec_bvGet_of_bit (s := { s with arg := p }) hbit, rfl, rfl, rfl⟩

end Sys2Proof.Machine

/-! The statements on spec/42_queue_build.md: the queue primitives, the queue commands, BUILD and the laws of its tree, and BUILD
against its step sequence. -/

namespace Sys2Proof.Machine

/-! ## The queue primitives -/

/-- The least weight of a queue is that of any entry that no other undercuts. -/
theorem leastWeight_eq {a t : Tree} {q : List Tree} (hmem : t ∈ a :: q)
    (hle : ∀ u ∈ a :: q, t.weight.toNat ≤ u.weight.toNat) : leastWeight a q = t.weight.toNat := by
  obtain ⟨hleast, u, hu, hweight⟩ := leastWeight_spec a q
  exact Nat.le_antisymm (hleast t hmem) (hweight ▸ hle u hu)

/-- `removeFirst` takes the first entry of the weight asked for. -/
theorem removeFirst_append {pre post : List Tree} {t : Tree} (hne : ∀ u ∈ pre, u.weight.toNat ≠ t.weight.toNat) :
    removeFirst t.weight.toNat (pre ++ t :: post) = some (t, pre ++ post) := by
  induction pre with
  | nil => exact if_pos rfl
  | cons a pre ih =>
    obtain ⟨ha, hpre⟩ := List.forall_mem_cons.mp hne
    rw [List.cons_append, removeFirst, if_neg ha, ih hpre]
    rfl

/-- `popmin` takes exactly the entry that is lighter than all before it and no heavier than any after it (R130). -/
theorem popmin_iff {q rest : List Tree} {t : Tree} :
    popmin q = some (t, rest) ↔
      ∃ pre post, q = pre ++ t :: post ∧ rest = pre ++ post ∧
        (∀ u ∈ pre, t.weight.toNat < u.weight.toNat) ∧ ∀ u ∈ post, t.weight.toNat ≤ u.weight.toNat := by
  refine ⟨popmin_some, ?_⟩
  rintro ⟨pre, post, rfl, rfl, hpre, hpost⟩
  have hmem : t ∈ pre ++ t :: post := by simp
  have hle : ∀ u ∈ pre ++ t :: post, t.weight.toNat ≤ u.weight.toNat := by
    intro u hu
    obtain hu | rfl | hu : u ∈ pre ∨ u = t ∨ u ∈ post := by simpa using hu
    · exact (hpre u hu).le
    · exact le_rfl
    · exact hpost u hu
  have hfirst := removeFirst_append (post := post) fun u hu => (hpre u hu).ne'
  cases hq : pre ++ t :: post with
  | nil => simp at hq
  | cons a q =>
    rw [hq] at hmem hle hfirst
    rw [popmin, leastWeight_eq hmem hle, hfirst]

theorem popmin_singleton (t : Tree) : popmin [t] = some (t, []) :=
  popmin_iff.mpr ⟨[], [], rfl, rfl, by simp, by simp⟩

/-- Settles O24: `popmin_iff`, and `combine_weight` for the exact sum. -/
theorem popminTakesTheEarliestLightest : Obligations.PopminTakesTheEarliestLightest :=
  ⟨fun _ _ => rfl, fun a b h => ⟨a.weight + b.weight, rfl, combine_weight h⟩, fun _ => popmin_eq_none,
    fun _ _ _ => popmin_iff⟩

/-! ## The queue commands -/

/-- Settles O25: the two checks of R135, either of which fails with the same error. -/
theorem pushLeafAppends : Obligations.PushLeafAppends := by
  refine fun s sym => ⟨?_, fun hentries hnodes => ?_, fun hfull => ?_⟩
  · have hopc : (opcodeOf (.pqPushLeaf sym)).toNat = 0x24 := rfl
    rw [Laws.Encoded.encode_toNat, hopc, immediateOf]
    omega
  · exact congrArg (endCommand s) ((if_neg (Nat.not_lt.mpr hentries)).trans (if_neg (Nat.not_lt.mpr hnodes)))
  · by_cases hentries : s.caps.entries < s.pq.length + 1
    · exact congrArg (endCommand s) (if_pos hentries)
    · exact congrArg (endCommand s) ((if_neg hentries).trans (if_pos (hfull.resolve_left hentries)))

theorem exec_pqMerge_empty {s : State} (h : popTwo s.pq = none) : exec .pqMerge s = .next (s.rollback .emptyQueue) := by
  rw [exec, execPqMerge, h]
  rfl

/-- PQ_MERGE once two trees are popped: R136's two checks on their sum and on the node store. -/
theorem exec_pqMerge_popped {s : State} {a b : Tree} {rest : List Tree} (h : popTwo s.pq = some (a, b, rest)) :
    exec .pqMerge s = endCommand s
      (if a.weight.toNat + b.weight.toNat > 2 ^ 64 - 1 then .error .weightOverflow
      else if s.nodesUsed + 1 > s.caps.nodes then .error .capacityExceeded
      else .ok { s with pq := push rest (combine a b) }) := by
  rw [exec, execPqMerge, h]

/-- Settles O26: the pops are `popTwo`, and the two checks after them are made in order. -/
theorem mergeCombinesTheTwoLightest : Obligations.MergeCombinesTheTwoLightest := by
  refine ⟨rfl, fun s h => exec_pqMerge_empty (popTwo_eq_none.mpr h), fun s a b q rest ha hb => ?_⟩
  rw [exec_pqMerge_popped (popTwo_some.mpr ⟨q, ha, hb⟩)]
  refine ⟨fun hsum => ?_, fun hsum hnodes => ?_, fun hsum hnodes => ⟨a.weight + b.weight, combine_weight hsum, ?_⟩⟩
  · rw [if_pos (by omega)]
    rfl
  · rw [if_neg (by omega), if_pos hnodes]
    rfl
  · rw [if_neg (by omega), if_neg (by omega)]
    rfl

/-- Settles O27. -/
theorem popMovesTheLightestToTree : Obligations.PopMovesTheLightestToTree := by
  refine ⟨rfl, fun s h => ?_, fun s t rest h => ?_⟩
  · rw [exec, execPqPop, popmin_eq_none.mpr h]
    rfl
  · rw [exec, execPqPop, h]
    rfl

/-! ## BUILD -/

/-- BUILD with a total that fits 64 bits commits the tree its loop leaves (R131). -/
theorem exec_build_commits {s : State} (h : s.freqTotal < 2 ^ 64) :
    exec .build s = .next { s with
      tree := (mergeAll s.freqLeaves.length s.freqLeaves).head?, pq := [], err := false, errcode := 0, flight := none } :=
  endCommand_check_passes (Nat.not_lt.mpr (Nat.le_sub_one_of_lt h))

/-- The tree of k included symbols has 2k - 1 nodes (R131). -/
theorem build_nodesOf (s : State) :
    nodesOf (mergeAll s.freqLeaves.length s.freqLeaves).head? = 2 * (includedSymbols s).length - 1 := by
  obtain ⟨hnone, hm⟩ | ⟨t, hm, -⟩ := build_result s
  · simp [hm, hnone, nodesOf]
  · have hnodes := mergeAll_nodes s.freqLeaves.length s.freqLeaves
    rw [hm, freqLeaves_nodes, freqLeaves_length] at hnodes
    simp only [totalNodes_cons, totalNodes_nil, List.length_cons, List.length_nil] at hnodes
    simp only [hm, List.head?_cons, nodesOf]
    omega

/-- The tree is empty exactly when no symbol is included (R131). -/
theorem build_head?_eq_none_iff (s : State) :
    (mergeAll s.freqLeaves.length s.freqLeaves).head? = none ↔ includedSymbols s = [] := by
  obtain ⟨hnone, hm⟩ | ⟨t, hm, hsome⟩ := build_result s
  · simp [hm, hnone]
  · simp [hm, hsome]

/-- Settles O28. -/
theorem buildReplacesTheTree : Obligations.BuildReplacesTheTree :=
  ⟨fun s h => ⟨_, exec_build_commits h, build_head?_eq_none_iff s, build_nodesOf s⟩,
    fun _ h => endCommand_check_fails (Nat.lt_of_lt_of_le (by decide) h)⟩

/-! ## The laws of BUILD's tree -/

theorem freqLeaves_sumWeights (s : State) : ∀ t ∈ s.freqLeaves, t.sumWeights := by
  rw [freqLeaves_eq]
  intro t ht
  obtain ⟨sym, -, rfl⟩ := List.mem_map.mp ht
  trivial

/-- What BUILD's loop makes of the leaves when their total fits 64 bits: one tree of exact sums, which weighs the total and has
their leaves (R138). -/
theorem build_tree_laws {s : State} {t : Tree} (htotal : s.freqTotal < 2 ^ 64)
    (ht : (mergeAll s.freqLeaves.length s.freqLeaves).head? = some t) :
    t.sumWeights ∧ t.weight.toNat = s.freqTotal ∧
      t.leaves.Perm ((includedSymbols s).map fun sym => (sym, s.freqOf sym)) := by
  obtain ⟨-, hm⟩ | ⟨t', hm, -⟩ := build_result s
  · simp [hm] at ht
  obtain rfl : t' = t := by simpa [hm] using ht
  obtain ⟨hweight, hsums⟩ :=
    mergeAll_weights s.freqLeaves.length s.freqLeaves ((freqLeaves_weight s).symm ▸ htotal) (freqLeaves_sumWeights s)
  have hleaves := mergeAll_leaves s.freqLeaves.length s.freqLeaves
  rw [hm] at hweight hsums hleaves
  refine ⟨hsums t' List.mem_cons_self, ?_, ?_⟩
  · simpa [freqLeaves_weight] using hweight
  · simpa [freqLeaves_leaves] using hleaves

/-- The leaves of the source's scenario, from its symbols and counts. -/
theorem freqLeaves_of_counts {s : State} {counts : List (Byte × Word)}
    (h : (includedSymbols s).map (fun sym => (sym, s.freqOf sym)) = counts) :
    s.freqLeaves = counts.map fun c => .leaf c.1 c.2 := by
  rw [freqLeaves_eq, ← h, List.map_map]
  rfl

/-- The counts of the source's scenario (R138). -/
def scenarioCounts : List (Byte × Word) := [(0x61, 5), (0x62, 9), (0x63, 12), (0x64, 13), (0x65, 16), (0x66, 45)]

/-- The tree R131's example gives for them. -/
def scenarioTree : Tree :=
  .node 100 (.leaf 0x66 45)
    (.node 55 (.node 25 (.leaf 0x63 12) (.leaf 0x64 13)) (.node 30 (.node 14 (.leaf 0x61 5) (.leaf 0x62 9)) (.leaf 0x65 16)))

theorem scenario_tree :
    (mergeAll (scenarioCounts.map fun c => Tree.leaf c.1 c.2).length (scenarioCounts.map fun c => .leaf c.1 c.2)).head? =
      some scenarioTree := by decide

theorem scenario_heights :
    heightOf (some scenarioTree) 0x66 = some 1 ∧ heightOf (some scenarioTree) 0x61 = some 4 ∧
      heightOf (some scenarioTree) 0x62 = some 4 := by decide

/-- Settles O29: the laws by `build_tree_laws`, by induction on the merges; the scenario's tree by evaluation of its five merges. -/
theorem buildWeightsAndLeaves : Obligations.BuildWeightsAndLeaves := by
  refine ⟨fun s t tree h he ht => ?_, fun s h => ?_⟩
  · obtain ⟨u, ⟨htotal, rfl⟩, rfl⟩ := exec_committed h he
    exact build_tree_laws (Nat.lt_of_le_sub_one (by decide) htotal) ht
  · have hleaves : s.freqLeaves = scenarioCounts.map fun c => .leaf c.1 c.2 := freqLeaves_of_counts h
    have htotal : s.freqTotal = 100 := by
      rw [← freqLeaves_weight, hleaves]
      rfl
    have hexec := exec_build_commits (s := s) (by omega)
    rw [hleaves, scenario_tree] at hexec
    exact ⟨_, scenarioTree, hexec, rfl, rfl, rfl, scenario_heights⟩

/-! ## Sequences of commands -/

/-- A sequence that ends without an error goes on from what its first command commits. -/
theorem runCommands_cons {a : Word} {i : Instr} {cs : List (Word × Instr)} {s t : State}
    (h : runCommands ((a, i) :: cs) s = some t) :
    ∃ u, Staged i { s with arg := a } u ∧ runCommands cs u.commit = some t := by
  rw [runCommands] at h
  split at h
  · rename_i v hv
    split at h
    · cases h
    · rename_i herr
      obtain ⟨u, hu, rfl⟩ := exec_committed hv (Bool.eq_false_iff.mpr herr)
      exact ⟨u, hu, h⟩
  · cases h
  · cases h

/-- Two sequences, one after the other. -/
theorem runCommands_append {cs ds : List (Word × Instr)} {s t : State} :
    runCommands (cs ++ ds) s = some t ↔ ∃ u, runCommands cs s = some u ∧ runCommands ds u = some t := by
  induction cs generalizing s with
  | nil => simp [runCommands]
  | cons c cs ih =>
    rw [List.cons_append, runCommands, runCommands]
    split
    · split
      · simp
      · exact ih
    · simp
    · simp

/-! ## BUILD and its step sequence -/

/-- The pushes of the step sequence append the leaves in order (R135). -/
theorem runCommands_pushes {syms : List Byte} {f : Byte → Word} {s t : State}
    (h : runCommands (syms.map fun sym => (f sym, .pqPushLeaf sym)) s = some t) :
    t.pq = s.pq ++ syms.map fun sym => .leaf sym (f sym) := by
  induction syms generalizing s with
  | nil =>
    obtain rfl : s = t := Option.some.inj h
    exact (List.append_nil _).symm
  | cons sym syms ih =>
    obtain ⟨u, ⟨-, -, rfl⟩, hrun⟩ := runCommands_cons h
    rw [ih hrun, State.commit_pq, push, List.append_assoc]
    rfl

/-- The merges of the step sequence are rounds of BUILD's loop, and no sum of theirs is inexact (R136). -/
theorem runCommands_merges {n : Nat} {a : Word} {s t : State} (h : runCommands (List.replicate n (a, .pqMerge)) s = some t) :
    t.pq = mergeAll n s.pq ∧ totalWeight t.pq = totalWeight s.pq := by
  induction n generalizing s with
  | zero =>
    obtain rfl : s = t := Option.some.inj h
    exact ⟨rfl, rfl⟩
  | succ n ih =>
    obtain ⟨u, ⟨x, y, rest, hpop, hsum, -, rfl⟩, hrun⟩ := runCommands_cons h
    obtain ⟨hpq, hweight⟩ := ih hrun
    have htwo : totalWeight s.pq = x.weight.toNat + (y.weight.toNat + totalWeight rest) := by
      rw [totalWeight_perm (popTwo_perm hpop), totalWeight_cons, totalWeight_cons]
    refine ⟨?_, ?_⟩
    · rw [hpq, mergeAll, hpop]
      rfl
    · have hc := combine_weight (a := x) (b := y) (by omega)
      rw [hweight, State.commit_pq, push, totalWeight_append, totalWeight_cons, totalWeight_nil, hc, htwo]
      omega

/-- One merge fewer than trees is enough for BUILD's loop. -/
theorem mergeAll_succ {n : Nat} {q : List Tree} (h : q.length ≤ n + 1) : mergeAll (n + 1) q = mergeAll n q := by
  induction n generalizing q with
  | zero =>
    have hpop : popTwo q = none := popTwo_eq_none.mpr (by omega)
    simp only [mergeAll, hpop]
  | succ n ih =>
    rw [mergeAll, mergeAll]
    cases hpop : popTwo q with
    | none => rfl
    | some p =>
      obtain ⟨a, b, rest⟩ := p
      have hlen := (popTwo_perm hpop).length_eq
      refine ih ?_
      simp only [push, List.length_append, List.length_cons, List.length_nil] at hlen ⊢
      omega

/-- With no included symbol the step sequence leaves TREE and PQ empty (R139). -/
theorem buildSteps_none {s t : State} (hnone : includedSymbols s = []) (h : runCommands (buildSteps s) s = some t) :
    t.tree = none ∧ t.pq = [] := by
  rw [buildSteps, if_pos hnone] at h
  obtain ⟨u, rfl, h⟩ := runCommands_cons h
  obtain ⟨v, rfl, h⟩ := runCommands_cons h
  obtain rfl := Option.some.inj h
  exact ⟨rfl, rfl⟩

/-- With included symbols the step sequence merges the leaves as BUILD does, keeping their total weight, and pops from what is left
(R139). -/
theorem buildSteps_some {s t : State} (hsome : includedSymbols s ≠ []) (h : runCommands (buildSteps s) s = some t) :
    ∃ q, q = mergeAll s.freqLeaves.length s.freqLeaves ∧ totalWeight q = s.freqTotal ∧
      ∃ tree, popmin q = some (tree, t.pq) ∧ t.tree = some tree := by
  simp only [buildSteps, if_neg hsome, List.append_assoc, List.singleton_append] at h
  obtain ⟨u, rfl, h⟩ := runCommands_cons h
  obtain ⟨v, hpush, h⟩ := runCommands_append.mp h
  obtain ⟨w, hmerge, h⟩ := runCommands_append.mp h
  obtain ⟨x, ⟨tree, rest, hpop, rfl⟩, h⟩ := runCommands_cons h
  obtain rfl := Option.some.inj h
  have hleaves : v.pq = s.freqLeaves := (runCommands_pushes hpush).trans (freqLeaves_eq s).symm
  obtain ⟨hloop, hweight⟩ := runCommands_merges hmerge
  have hlen := freqLeaves_length s
  have hpos := List.length_pos_iff.mpr hsome
  refine ⟨w.pq, ?_, ?_, tree, hpop, rfl⟩
  · rw [hloop, hleaves, ← mergeAll_succ (by omega), Nat.sub_add_cancel hpos, hlen]
  · rw [hweight, hleaves, freqLeaves_weight]

/-- Settles O30: the merges that do not fail keep the exact total in one 64-bit weight, so BUILD commits, with the tree that is
left. -/
theorem buildEqualsItsSteps : Obligations.BuildEqualsItsSteps := by
  intro s t h
  obtain ⟨hnone, hm⟩ | ⟨tree, hm, hsome⟩ := build_result s
  · obtain ⟨htree, hpq⟩ := buildSteps_none hnone h
    have htotal : s.freqTotal = 0 := by rw [← freqLeaves_weight, freqLeaves_eq, hnone]; rfl
    refine ⟨_, exec_build_commits (by omega), rfl, ?_, hpq.symm⟩
    simp only [hm, htree, List.head?_nil]
  · obtain ⟨q, hq, hweight, tree', hpop, htree⟩ := buildSteps_some hsome h
    obtain rfl := hq.trans hm
    obtain ⟨rfl, hpq⟩ : tree = tree' ∧ [] = t.pq := by simpa [popmin_singleton] using hpop
    have htotal : s.freqTotal < 2 ^ 64 := by
      rw [← hweight, totalWeight_cons, totalWeight_nil, Nat.add_zero]
      exact tree.weight.isLt
    refine ⟨_, exec_build_commits htotal, rfl, ?_, hpq⟩
    simp only [hm, htree, List.head?_cons]

end Sys2Proof.Machine

/-! The statements on spec/43_codec.md: ENCODE, DECODE and HEIGHT, and that DECODE reads back what ENCODE appends. -/

namespace Sys2Proof.Machine

/-- The word of a command whose operand is a symbol (R82). -/
theorem encode_of_symbol_toNat {i : Instr} {opc : Nat} {sym : Byte} (hopc : (opcodeOf i).toNat = opc) (himm : immediateOf i = sym) :
    (encode i).toNat = opc * 0x1000000 + 0x10000 * sym.toNat := by
  rw [Laws.Encoded.encode_toNat, hopc, himm, Nat.mul_comm sym.toNat]

/-! ## ENCODE -/

theorem exec_encodeSym_of_absent {s : State} {sym : Byte} (h : codeOf s.tree sym = none) :
    exec (.encodeSym sym) s = .next (s.rollback .symbolNotFound) := by
  rw [exec, execEncodeSym, h]
  rfl

/-- ENCODE of a symbol that has a code: only the room for its bits is left to check (R161). -/
theorem exec_encodeSym_of_code {s : State} {sym : Byte} {c : List Bool} (h : codeOf s.tree sym = some c) :
    exec (.encodeSym sym) s = endCommand s (s.appendBits c) := by
  rw [exec, execEncodeSym, h]

/-- Settles O31. -/
theorem encodeAppendsTheCode : Obligations.EncodeAppendsTheCode := by
  refine fun s sym => ⟨encode_of_symbol_toNat (opc := 0x30) rfl rfl, exec_encodeSym_of_absent, fun c hc hfull => ?_,
    fun c hc hroom => ?_⟩
  · rw [exec_encodeSym_of_code hc]
    exact endCommand_check_fails hfull
  · rw [exec_encodeSym_of_code hc]
    exact endCommand_check_passes (Nat.not_lt.mpr hroom)

/-! ## HEIGHT -/

theorem exec_height_of_absent {s : State} {sym : Byte} (h : codeOf s.tree sym = none) :
    exec (.height sym) s = .next { s with found := false, result := 0, err := false, errcode := 0, flight := none } := by
  rw [exec, execHeight, heightOf, h]
  rfl

theorem exec_height_of_code {s : State} {sym : Byte} {c : List Bool} (h : codeOf s.tree sym = some c) :
    exec (.height sym) s = .next { s with
      found := true, result := BitVec.ofNat 64 c.length, err := false, errcode := 0, flight := none } := by
  rw [exec, execHeight, heightOf, h]
  rfl

/-- Settles O35. -/
theorem heightReportsPresence : Obligations.HeightReportsPresence :=
  fun _ _ => ⟨encode_of_symbol_toNat (opc := 0x32) rfl rfl, exec_height_of_absent, fun _ => exec_height_of_code⟩

/-- Settles O36: HEIGHT and ENCODE both look the symbol up by `codeOf`; with a code found, ENCODE can only report
CAPACITY_EXCEEDED, which is another code. -/
theorem presenceIsOneNotion : Obligations.PresenceIsOneNotion := by
  intro s sym
  cases hc : codeOf s.tree sym with
  | none => simp [exec_height_of_absent hc, exec_encodeSym_of_absent hc, ErrCode.bits]
  | some c =>
    have hencode : ∃ t, exec (.encodeSym sym) s = .next t ∧ t.errcode ≠ 3 := by
      rw [exec_encodeSym_of_code hc]
      cases happend : s.appendBits c with
      | error e =>
        obtain ⟨-, rfl⟩ := appendBits_error.mp happend
        exact ⟨_, rfl, by simp [ErrCode.bits]⟩
      | ok u => exact ⟨_, rfl, by simp⟩
    exact ⟨iff_of_true (Option.some_ne_none c) ⟨_, exec_height_of_code hc, rfl⟩,
      iff_of_true (Option.some_ne_none c) hencode⟩

/-! ## DECODE -/

theorem exec_decodeSym_of_empty {s : State} (h : s.tree = none) :
    exec .decodeSym s = .next (s.rollback .corruptedArchive) := by
  rw [exec, execDecodeSym, h]
  rfl

/-- DECODE when the bits of bv end before the walk has reached a leaf (R163). -/
theorem exec_decodeSym_of_cut {s : State} {t : Tree} (h : s.tree = some t)
    (hwalk : walk (fun p => decide (p < s.bvLen)) (fun p => s.bv.getD p false) t s.pos.toNat = none) :
    exec .decodeSym s = .next (s.rollback .corruptedArchive) := by
  simp only [exec, execDecodeSym, h, hwalk]
  rfl

/-- DECODE when the walk reaches a leaf (R163). -/
theorem exec_decodeSym_of_leaf {s : State} {t : Tree} {sym : Byte} {p : Nat} (h : s.tree = some t)
    (hwalk : walk (fun p => decide (p < s.bvLen)) (fun p => s.bv.getD p false) t s.pos.toNat = some (sym, p)) :
    exec .decodeSym s = .next { s with
      result := sym.setWidth 64, pos := BitVec.ofNat 64 p, err := false, errcode := 0, flight := none } := by
  simp only [exec, execDecodeSym, h, hwalk]
  rfl

/-- Settles O32. -/
theorem decodeWalksTheTree : Obligations.DecodeWalksTheTree :=
  ⟨rfl, fun _ => exec_decodeSym_of_empty, fun _ _ => exec_decodeSym_of_cut, fun _ _ _ _ => exec_decodeSym_of_leaf⟩

/-! ## DECODE reads back what ENCODE appends -/

theorem codeOf_some {t : Option Tree} {sym : Byte} {c : List Bool} (h : codeOf t sym = some c) :
    ∃ r, t = some r ∧ r.code sym = some c := by
  cases t with
  | none => cases h
  | some r => exact ⟨r, rfl, h⟩

theorem codesOf_cons {t : Option Tree} {x : Byte} {xs : List Byte} {bits : List Bool} :
    codesOf t (x :: xs) = some bits ↔ ∃ c cs, codeOf t x = some c ∧ codesOf t xs = some cs ∧ bits = c ++ cs := by
  rw [codesOf]
  cases codeOf t x with
  | none => simp
  | some c =>
    cases codesOf t xs with
    | none => simp
    | some cs => simp [eq_comm]

theorem State.Inv.bv_length_lt {s : State} (h : s.Inv) : s.bv.length < 2 ^ 64 :=
  (h.bvLen.trans h.caps.1.2).trans_lt (by decide)

/-- The walk of TREE along bv from POS finds the symbol whose code bv holds there (R164). -/
theorem walk_of_code_at_pos {s : State} {r : Tree} {sym : Byte} {code : List Bool} (hcode : r.code sym = some code)
    (hbits : code <+: s.bv.drop s.pos.toNat) :
    walk (fun p => decide (p < s.bvLen)) (fun p => s.bv.getD p false) r s.pos.toNat = some (sym, s.pos.toNat + code.length) := by
  have hbit : ∀ k (hk : k < code.length), s.bv[s.pos.toNat + k]? = some code[k] := fun k hk => by
    rw [← List.getElem?_drop]
    exact List.prefix_iff_getElem?.mp hbits k hk
  refine walk_code hcode _ (fun k hk => ?_) fun k hk => ?_
  · obtain ⟨hlt, -⟩ := List.getElem?_eq_some_iff.mp (hbit k hk)
    exact decide_eq_true hlt
  · rw [List.getD_eq_getElem?_getD, hbit k hk, Option.getD_some]

/-- Where bv holds the code of a symbol from POS on, DECODE returns the symbol and moves POS past the code (R164): with bv shorter
than 2^64 bits POS does not wrap. -/
theorem exec_decodeSym_of_code {s : State} {sym : Byte} {code : List Bool} (hlen : s.bv.length < 2 ^ 64)
    (hcode : codeOf s.tree sym = some code) (hbits : code <+: s.bv.drop s.pos.toNat) :
    ∃ t, exec .decodeSym s = .next t ∧ t.err = false ∧ t.result = sym.setWidth 64 ∧
      t.pos.toNat = s.pos.toNat + code.length ∧ t.bv = s.bv ∧ t.tree = s.tree := by
  obtain ⟨r, htree, hr⟩ := codeOf_some hcode
  have hle := hbits.length_le
  rw [List.length_drop] at hle
  have hpos := s.pos.isLt
  exact ⟨_, exec_decodeSym_of_leaf htree (walk_of_code_at_pos hr hbits), rfl, rfl, Nat.mod_eq_of_lt (by omega), rfl, rfl⟩

/-- Settles O33: the code is the beginning of bv from POS on. -/
theorem decodeReadsBackACode : Obligations.DecodeReadsBackACode := by
  intro s sym code hs hcode _ hbit
  have hbits : code <+: s.bv.drop s.pos.toNat := List.prefix_iff_getElem?.mpr fun k hk => by
    rw [List.getElem?_drop, hbit k hk, List.getElem?_eq_getElem hk]
  obtain ⟨t, hexec, herr, hresult, hpos, -⟩ := exec_decodeSym_of_code hs.bv_length_lt hcode hbits
  exact ⟨t, hexec, herr, hresult, hpos⟩

theorem runCommands_inv {cs : List (Word × Instr)} {s t : State} (hs : s.Inv) (h : runCommands cs s = some t) : t.Inv := by
  induction cs generalizing s with
  | nil => exact Option.some.inj h ▸ hs
  | cons c cs ih =>
    obtain ⟨u, hu, hrun⟩ := runCommands_cons h
    have hstart : ({ s with arg := c.1 } : State).Inv := { hs with }
    exact ih (staged_fits hstart.fits hu).commit hrun

/-- ENCODE of each symbol of a sequence appends the codes of the sequence, and TREE stays (R161). -/
theorem runCommands_encodes {symbols : List Byte} {a : Word} {s t : State}
    (h : runCommands (symbols.map fun x => (a, .encodeSym x)) s = some t) :
    ∃ bits, codesOf s.tree symbols = some bits ∧ t.bv = s.bv ++ bits ∧ t.tree = s.tree := by
  induction symbols generalizing s with
  | nil =>
    obtain rfl : s = t := Option.some.inj h
    exact ⟨[], rfl, (List.append_nil _).symm, rfl⟩
  | cons x symbols ih =>
    obtain ⟨u, ⟨c, hc, -, rfl⟩, hrun⟩ := runCommands_cons h
    obtain ⟨bits, hbits, hbv, htree⟩ := ih hrun
    exact ⟨c ++ bits, codesOf_cons.mpr ⟨c, bits, hc, hbits, rfl⟩, hbv.trans (List.append_assoc ..), htree⟩

theorem decodeRun_succ {n : Nat} {s t : State} (h : exec .decodeSym s = .next t) (herr : t.err = false) :
    decodeRun (n + 1) s = (decodeRun n t).map (t.result :: ·) := by
  simp [decodeRun, h, herr]

/-- One DECODE per symbol reads back the codes of a sequence that bv holds from POS on: each leaves POS at the next code (R164). -/
theorem decodeRun_of_codes {symbols : List Byte} {bits : List Bool} {s : State} (hlen : s.bv.length < 2 ^ 64)
    (hcodes : codesOf s.tree symbols = some bits) (hbits : bits <+: s.bv.drop s.pos.toNat) :
    decodeRun symbols.length s = some (symbols.map fun x => x.setWidth 64) := by
  induction symbols generalizing s bits with
  | nil => rfl
  | cons x symbols ih =>
    obtain ⟨c, cs, hc, hcs, rfl⟩ := codesOf_cons.mp hcodes
    have hfirst : c <+: s.bv.drop s.pos.toNat := (List.prefix_append c cs).trans hbits
    obtain ⟨t, hexec, herr, hresult, hpos, hbv, htree⟩ := exec_decodeSym_of_code hlen hc hfirst
    have hrest : cs <+: t.bv.drop t.pos.toNat := by
      rw [hbv, hpos, ← List.drop_drop]
      simpa using hbits.drop c.length
    have htail := ih (s := t) (hbv ▸ hlen) (htree ▸ hcs) hrest
    rw [List.length_cons, decodeRun_succ hexec herr, htail, hresult]
    rfl

/-- Settles O34: the run of ENCODE leaves the codes of the sequence in bv, and the run of DECODE reads codes back from POS = 0. -/
theorem encodeThenDecodeReturnsTheSymbols : Obligations.EncodeThenDecodeReturnsTheSymbols := by
  intro s t symbols hs hempty hrun
  obtain ⟨bits, hcodes, hbv, htree⟩ := runCommands_encodes hrun
  rw [hempty, List.nil_append] at hbv
  have hlen := (runCommands_inv hs hrun).bv_length_lt
  rw [← htree] at hcodes
  exact decodeRun_of_codes (s := { t with pos := 0 }) hlen hcodes (hbv ▸ List.prefix_rfl)

end Sys2Proof.Machine

/-! The statements on spec/44_serialization.md: the serialized forms, the commands that append them to OUT, and what an import accepts,
refuses and reads back. -/

namespace Sys2Proof.Machine

/-! ## The serialized forms -/

/-- The serialized tree register in each form (R181, R182). -/
def serialized (kind : TreeKind) : Option Tree → List Byte
  | none => [flagByte false]
  | some t => flagByte true :: bodyOf kind t

theorem serialized_shape (t : Option Tree) : serialized .shape t = serShape t := by cases t <;> rfl

theorem serialized_full (t : Option Tree) : serialized .full t = serFull t := by cases t <;> rfl

/-- Settles O38: a byte for the top flag, and the bodies' sizes. -/
theorem serializedSizes : Obligations.SerializedSizes
  | none => ⟨rfl, rfl⟩
  | some t => by simp [serShape, serFull, shapeBody_length, fullBody_length, nodesOf, Nat.add_comm]

/-- Settles O39: `rdFlag_ok` for the two flag bytes, and the last case of `rdFlag_cases` for every other one. -/
theorem flagBytes : Obligations.FlagBytes := by
  refine ⟨rfl, rfl, fun byte limit c hc =>
    ⟨fun h => rdFlag_ok.mpr ⟨hc, h, rfl⟩, fun h => rdFlag_ok.mpr ⟨hc, h, rfl⟩, fun h0 h1 => ?_⟩⟩
  obtain ⟨hle, -⟩ | ⟨-, h, -⟩ | ⟨-, h, -⟩ | ⟨-, -, -, hcorrupt⟩ := rdFlag_cases byte limit c
  · exact absurd hc (Nat.not_lt.mpr hle)
  · exact absurd h h0
  · exact absurd h h1
  · exact hcorrupt

/-! ## The commands that append bytes to OUT -/

/-- Settles O37: each command ends with `emit` of its bytes, whose one check is R183's, and `emitted_bytes` says where they stand. -/
theorem outputCommandsAppendTheirBytes : Obligations.OutputCommandsAppendTheirBytes := by
  refine ⟨⟨rfl, rfl, rfl⟩, fun s i b _ hi => ?_⟩
  have hexec : exec i s = endCommand s (s.emit b) := by
    obtain ⟨rfl, rfl⟩ | ⟨rfl, rfl⟩ | ⟨rfl, rfl⟩ := hi <;> rfl
  rw [hexec]
  refine ⟨fun hroom => ?_, endCommand_check_fails⟩
  exact ⟨(s.emitted b).commit, (s.emitted b).mem, endCommand_check_passes (Nat.not_lt.mpr hroom), rfl,
    emitted_bytes hroom rfl rfl rfl rfl⟩

/-! ## What `parse` answers -/

/-- `parse` at a top flag 00 is done (R185). -/
theorem parseTree_of_empty {byte : Nat → Byte} {base limit : Nat} (kind : TreeKind) (avail : Nat) (hlt : base < limit)
    (hflag : byte base = 0x00) : parseTree byte kind base limit avail = .ok (none, base + 1) := by
  rw [parseTree, rdFlag_ok (b := false) |>.mpr ⟨hlt, hflag, rfl⟩]

/-- `parse` at a top flag 01 is `node()` on the root (R185). -/
theorem parseTree_of_root {byte : Nat → Byte} {base limit : Nat} (kind : TreeKind) (avail : Nat) (hlt : base < limit)
    (hflag : byte base = 0x01) :
    parseTree byte kind base limit avail =
      (parseNode byte kind limit avail (avail + 1) (base + 1) 0).map fun r => (some r.1, r.2.1) := by
  rw [parseTree, rdFlag_ok (b := true) |>.mpr ⟨hlt, hflag, rfl⟩]
  dsimp only
  cases parseNode byte kind limit avail (avail + 1) (base + 1) 0 <;> rfl

/-- `parse` succeeds exactly on the flag 00, and on the flag 01 before a byte string of the grammar whose nodes are available (R185). -/
theorem parseTree_ok_iff {byte : Nat → Byte} {kind : TreeKind} {base limit avail c : Nat} {tree : Option Tree} :
    parseTree byte kind base limit avail = .ok (tree, c) ↔
      c ≤ limit ∧
        ((tree = none ∧ c = base + 1 ∧ byte base = 0x00) ∨
          ∃ t bs, tree = some t ∧ c = base + 1 + bs.length ∧ byte base = 0x01 ∧ TreeBytes kind t bs ∧
            BytesAt byte (base + 1) bs ∧ t.nodes ≤ avail) := by
  constructor
  · intro h
    obtain ⟨-, hc, -⟩ := parseTree_ok h
    refine ⟨hc, ?_⟩
    simp only [parseTree] at h
    split at h
    · cases h
    · rename_i hflag
      obtain ⟨-, hbyte, rfl⟩ := rdFlag_ok.mp hflag
      cases h
      exact .inl ⟨rfl, rfl, hbyte⟩
    · rename_i hflag
      obtain ⟨-, hbyte, rfl⟩ := rdFlag_ok.mp hflag
      split at h
      · cases h
      · rename_i t c' n hnode
        cases h
        obtain ⟨bs, hbs, hat, rfl⟩ := parseNode_treeBytes hnode
        obtain ⟨-, -, rfl, hfit⟩ := parseNode_ok hnode
        exact .inr ⟨t, bs, rfl, rfl, hbyte, hbs, hat, by omega⟩
  · rintro ⟨hc, ⟨rfl, rfl, hbyte⟩ | ⟨t, bs, rfl, rfl, hbyte, hbs, hat, hfit⟩⟩
    · exact parseTree_of_empty kind avail hc hbyte
    · rw [parseTree_of_root kind avail (by omega) hbyte, hbs.parse hat hc ((Nat.zero_add _).trans_le hfit) (Nat.le_refl _)]
      rfl

/-- `parse` on a tree of the grammar with more nodes than are available (R187). -/
theorem parseTree_noRoom {byte : Nat → Byte} {kind : TreeKind} {base limit avail : Nat} {t : Tree} {bs : List Byte}
    (hflag : byte base = 0x01) (hbs : TreeBytes kind t bs) (hat : BytesAt byte (base + 1) bs)
    (hlen : base + 1 + bs.length ≤ limit) (hfull : avail < t.nodes) :
    parseTree byte kind base limit avail = .error .capacityExceeded := by
  rw [parseTree_of_root kind avail (by omega) hflag,
    hbs.parse_noRoom hat hlen (hfull.trans_eq (Nat.zero_add _).symm) (Nat.le_refl _)]
  rfl

/-- `parse` reads back a serialized tree whose nodes are available, as what its form keeps of it (R189). -/
theorem parseTree_serialized {byte : Nat → Byte} {kind : TreeKind} {base limit avail : Nat} {t : Option Tree}
    (hat : BytesAt byte base (serialized kind t)) (hlen : base + (serialized kind t).length ≤ limit) (hfit : nodesOf t ≤ avail) :
    parseTree byte kind base limit avail = .ok (t.map (keptBy kind), base + (serialized kind t).length) := by
  cases t with
  | none => exact parseTree_of_empty kind avail hlen (bytesAt_cons.mp hat).1
  | some t =>
    obtain ⟨hbyte, hbody⟩ := bytesAt_cons.mp hat
    simp only [serialized, List.length_cons] at hlen ⊢
    rw [parseTree_of_root kind avail (by omega) hbyte,
      parseNode_body kind t hbody (by omega) ((Nat.zero_add _).trans_le hfit) (Nat.le_refl _), Nat.add_assoc, Nat.add_comm 1]
    rfl

/-! ## What an import answers -/

/-- Different errors have different codes (R220). -/
theorem ErrCode.bits_inj {e e' : ErrCode} (h : e.bits = e'.bits) : e = e' := by
  revert h
  cases e <;> cases e' <;> decide

/-- A command rolls back with an error exactly when its rule raised that error: a commit leaves ERR 0, and the codes differ. -/
theorem endCommand_eq_rollback {s : State} {r : Except ErrCode State} {e : ErrCode} :
    endCommand s r = .next (s.rollback e) ↔ r = .error e := by
  refine ⟨fun h => ?_, fun h => h ▸ rfl⟩
  obtain ⟨u, -, hu⟩ | ⟨e', rfl, he⟩ := endCommand_next.mp h
  · cases congrArg State.err hu
  · rw [ErrCode.bits_inj (congrArg State.errcode he)]

section

variable {s : State} {i : Instr} {kind : TreeKind} (hi : (i = .importShape ∧ kind = .shape) ∨ (i = .importFull ∧ kind = .full))

include hi

/-- Both imports are `importTree`, each with its form (R187, R188). -/
theorem exec_import : exec i s = endCommand s (s.importTree kind) := by
  obtain ⟨rfl, rfl⟩ | ⟨rfl, rfl⟩ := hi <;> rfl

/-- An import commits a tree with n bytes consumed exactly when `parse` gives that tree and ends n bytes after IN_RP: the cursor
stays within IN_LEN, so RESULT does not wrap (R187). -/
theorem exec_import_commits_iff {tree : Option Tree} {n : Nat} (hn : n < 2 ^ 64) :
    exec i s =
        .next { s with
          tree := tree, inRp := BitVec.ofNat 64 (s.inRp.toNat + n), result := BitVec.ofNat 64 n
          err := false, errcode := 0, flight := none } ↔
      parseTree s.inByte kind s.inRp.toNat s.inLen.toNat s.freeNodes = .ok (tree, s.inRp.toNat + n) := by
  rw [exec_import hi, State.importTree]
  constructor
  · intro h
    split at h
    · cases congrArg State.err (Host.Outcome.next.inj h)
    · rename_i t c hparse
      have hstate := Host.Outcome.next.inj h
      obtain rfl : t = tree := congrArg State.tree hstate
      have hresult : BitVec.ofNat 64 (c - s.inRp.toNat) = BitVec.ofNat 64 n := congrArg State.result hstate
      obtain ⟨hc, hle, -⟩ := parseTree_ok hparse
      have hlimit := s.inLen.isLt
      have hcount := congrArg BitVec.toNat hresult
      rw [BitVec.toNat_ofNat, BitVec.toNat_ofNat, Nat.mod_eq_of_lt (by omega), Nat.mod_eq_of_lt hn] at hcount
      rw [hparse, show s.inRp.toNat + n = c by omega]
  · intro hparse
    simp only [hparse, Nat.add_sub_cancel_left]
    rfl

/-- An import rolls back with an error exactly when `parse` fails with it. -/
theorem exec_import_fails_iff {e : ErrCode} :
    exec i s = .next (s.rollback e) ↔ parseTree s.inByte kind s.inRp.toNat s.inLen.toNat s.freeNodes = .error e := by
  rw [exec_import hi, endCommand_eq_rollback, State.importTree]
  cases parseTree s.inByte kind s.inRp.toNat s.inLen.toNat s.freeNodes with
  | error e' => simp only [Except.error.injEq]
  | ok r => simp only [reduceCtorEq]

/-- When an import fails and with which error: for the top flag, or for the flaw of the root that follows the flag 01 (R185, R187). -/
theorem exec_import_fails_iff_flaw {e : ErrCode} :
    exec i s = .next (s.rollback e) ↔
      (e = .corruptedArchive ∧
        (s.inLen.toNat ≤ s.inRp.toNat ∨
          (s.inRp.toNat < s.inLen.toNat ∧ s.inByte s.inRp.toNat ≠ 0x00 ∧ s.inByte s.inRp.toNat ≠ 0x01))) ∨
      ∃ flaw n bs, e = flaw.code ∧ FlawedNode kind flaw n bs ∧ s.inHolds s.inRp.toNat (0x01 :: bs) ∧
        (flaw = .truncated → s.inRp.toNat + 1 + bs.length = s.inLen.toNat) ∧ (flaw = .noRoom → n = s.freeNodes + 1) ∧
        (flaw ≠ .noRoom → n ≤ s.freeNodes) := by
  rw [exec_import_fails_iff hi, parseTree_error_iff]
  simp only [State.inHolds_cons]
  refine or_congr_right ⟨?_, ?_⟩
  · rintro ⟨-, hflag, flaw, n, bs, hnode, ⟨hat, hlen, hend, hfull, hfit⟩, he⟩
    rw [Nat.zero_add] at hfull hfit
    exact ⟨flaw, n, bs, he, hnode, ⟨hlen, hflag, hat⟩, hend, hfull, hfit⟩
  · rintro ⟨flaw, n, bs, he, hnode, ⟨hlen, hflag, hat⟩, hend, hfull, hfit⟩
    rw [← Nat.zero_add n] at hfull hfit
    exact ⟨by omega, hflag, flaw, n, bs, hnode, ⟨hat, hlen, hend, hfull, hfit⟩, he⟩

/-- An import where IN holds a serialized tree from IN_RP on, and its nodes are free (R189). -/
theorem exec_import_of_serialized {t : Option Tree} (hin : s.inHolds s.inRp.toNat (serialized kind t))
    (hfit : nodesOf t ≤ s.freeNodes) :
    exec i s =
      .next { s with
        tree := t.map (keptBy kind), inRp := BitVec.ofNat 64 (s.inRp.toNat + (serialized kind t).length)
        result := BitVec.ofNat 64 (serialized kind t).length, err := false, errcode := 0, flight := none } := by
  obtain ⟨hlen, hat⟩ := hin
  have hlimit := s.inLen.isLt
  exact (exec_import_commits_iff hi (by omega)).mpr (parseTree_serialized hat hlen hfit)

end

/-! ## Imports -/

/-- Settles O40: an import commits what `parse` accepts, and `parse` accepts the grammar. -/
theorem importAcceptsExactlyTheGrammar : Obligations.ImportAcceptsExactlyTheGrammar := by
  intro s i kind _ hi tree n hn
  rw [exec_import_commits_iff hi hn, parseTree_ok_iff]
  simp only [State.inHolds_cons]
  constructor
  · rintro ⟨hc, ⟨rfl, hlen, hbyte⟩ | ⟨t, bs, rfl, hlen, hbyte, hbs, hat, hfit⟩⟩
    · exact .inl ⟨rfl, by omega, by rw [List.length_nil]; omega, hbyte, fun k hk => by simp at hk⟩
    · exact .inr ⟨t, bs, rfl, by omega, hbs, ⟨by omega, hbyte, hat⟩, hfit⟩
  · rintro (⟨rfl, rfl, hc, hbyte, -⟩ | ⟨t, bs, rfl, rfl, hbs, ⟨hc, hbyte, hat⟩, hfit⟩)
    · exact ⟨hc, .inl ⟨rfl, rfl, hbyte⟩⟩
    · exact ⟨by omega, .inr ⟨t, bs, rfl, by omega, hbyte, hbs, hat, hfit⟩⟩

/-- Settles O42: the full form keeps the whole tree, the shape-only form all but the weights. -/
theorem importReadsBackAnExport : Obligations.ImportReadsBackAnExport := by
  intro s t _ hfit
  rw [← serialized_full, ← serialized_shape]
  refine ⟨fun hin => ?_, fun hin => exec_import_of_serialized (.inl ⟨rfl, rfl⟩) hin hfit⟩
  rw [exec_import_of_serialized (.inr ⟨rfl, rfl⟩) hin hfit, keptBy, Option.map_id, id]

/-- Settles O41: `exec_import_fails_iff_flaw` for each of the two codes, which tell the flaw of no room from the other two. -/
theorem importRefusesMalformedBytes : Obligations.ImportRefusesMalformedBytes := by
  intro s i kind hi
  refine ⟨⟨fun h => ?_, fun h => ?_⟩, ⟨fun h => ?_, fun ⟨bs, hin, hnode⟩ => ?_⟩, fun t bs hbs hin hfull => ?_⟩
  · obtain ⟨-, hend | hflag⟩ | ⟨flaw, n, bs, hcode, hnode, hin, hend, -, hfit⟩ := (exec_import_fails_iff_flaw hi).mp h
    · exact .inl hend
    · exact .inr (.inl hflag)
    · refine .inr (.inr ⟨n, bs, hfit (by rintro rfl; cases hcode), hin, ?_⟩)
      cases flaw with
      | truncated => exact .inr ⟨hnode, hend rfl⟩
      | badFlag => exact .inl hnode
      | noRoom => cases hcode
  · rw [exec_import_fails_iff_flaw hi]
    obtain hend | hflag | ⟨n, bs, hfit, hin, hbad | ⟨hcut, hend⟩⟩ := h
    · exact .inl ⟨rfl, .inl hend⟩
    · exact .inl ⟨rfl, .inr hflag⟩
    · exact .inr ⟨.badFlag, n, bs, rfl, hbad, hin, by simp, by simp, fun _ => hfit⟩
    · exact .inr ⟨.truncated, n, bs, rfl, hcut, hin, fun _ => hend, by simp, fun _ => hfit⟩
  · obtain ⟨⟨⟩, -⟩ | ⟨flaw, n, bs, hcode, hnode, hin, -, hfull, -⟩ := (exec_import_fails_iff_flaw hi).mp h
    cases flaw with
    | truncated | badFlag => cases hcode
    | noRoom => exact ⟨bs, hin, hfull rfl ▸ hnode⟩
  · exact (exec_import_fails_iff_flaw hi).mpr (.inr ⟨.noRoom, _, bs, rfl, hnode, hin, by simp, fun _ => rfl, by simp⟩)
  · obtain ⟨hlen, hflag, hat⟩ := State.inHolds_cons.mp hin
    exact (exec_import_fails_iff hi).mpr (parseTree_noRoom hflag hbs hat hlen hfull)

end Sys2Proof.Machine

/-! The statements on spec/45_bitstream.md: BV_UNPACK, the two payload commands, that PAYLOAD_DECODE reads back a payload and refuses one
that is cut, and the single-symbol policy. -/

namespace Sys2Proof.Machine

/-! ## BV_UNPACK -/

theorem exec_bvUnpack_of_underrun {s : State} (h : s.inLen.toNat < s.inRp.toNat + s.arg.toNat) :
    exec .bvUnpack s = .next (s.rollback .inputUnderrun) := by
  rw [exec, execBvUnpack, if_pos h, endCommand]

/-- BV_UNPACK of bytes that IN has: only the room for their bits is left to check (R201). -/
theorem exec_bvUnpack_of_input {s : State} (h : s.inRp.toNat + s.arg.toNat ≤ s.inLen.toNat) :
    exec .bvUnpack s =
      endCommand s (if s.bvLen + 8 * s.arg.toNat > s.caps.bvBits then .error .capacityExceeded
        else .ok { s with
          bv := s.bv ++ (List.range (8 * s.arg.toNat)).map fun i => s.inBit s.inRp.toNat i
          inRp := BitVec.ofNat 64 (s.inRp.toNat + s.arg.toNat) }) := by
  rw [exec, execBvUnpack, if_neg (Nat.not_lt.mpr h)]

/-- Settles O44: the bits of the n bytes are listed one by one, bit i being the IN window's bit i from IN_RP on. -/
theorem bvUnpackAppendsTheBits : Obligations.BvUnpackAppendsTheBits := by
  refine ⟨rfl, fun s h => exec_bvUnpack_of_underrun h, fun s hin hfull => ?_, fun s hin hroom =>
    ⟨(List.range (8 * s.arg.toNat)).map (s.inBit s.inRp.toNat), ?_, ?_, fun i hi => ?_⟩⟩
  · rw [exec_bvUnpack_of_input hin]
    exact endCommand_check_fails hfull
  · rw [exec_bvUnpack_of_input hin]
    exact endCommand_check_passes (Nat.not_lt.mpr hroom)
  · rw [List.length_map, List.length_range]
  · rw [List.getElem?_map, List.getElem?_range hi]
    rfl

/-! ## PAYLOAD_ENCODE -/

theorem exec_payloadEncode_of_underrun {s : State} (h : s.inLen.toNat < s.inRp.toNat + s.arg.toNat) :
    exec .payloadEncode s = .next (s.rollback .inputUnderrun) := by
  rw [exec, execPayloadEncode, if_pos h, endCommand]

theorem exec_payloadEncode_of_absent {s : State} (hin : s.inRp.toNat + s.arg.toNat ≤ s.inLen.toNat)
    (h : codesOf s.tree (s.inBytes s.inRp.toNat s.arg.toNat) = none) :
    exec .payloadEncode s = .next (s.rollback .symbolNotFound) := by
  rw [exec, execPayloadEncode, if_neg (Nat.not_lt.mpr hin), h, endCommand]

section

variable {s : State} {bits : List Bool} (hin : s.inRp.toNat + s.arg.toNat ≤ s.inLen.toNat)
  (hcodes : codesOf s.tree (s.inBytes s.inRp.toNat s.arg.toNat) = some bits)

include hin hcodes

theorem exec_payloadEncode_of_full
    (h : s.caps.outBytes < s.outLen.toNat + (payloadOf s.tree s.arg.toNat bits).length) :
    exec .payloadEncode s = .next (s.rollback .capacityExceeded) := by
  simp only [exec, execPayloadEncode, if_neg (Nat.not_lt.mpr hin), hcodes, emit_error.mpr ⟨h, rfl⟩, endCommand]

theorem exec_payloadEncode_of_room
    (h : s.outLen.toNat + (payloadOf s.tree s.arg.toNat bits).length ≤ s.caps.outBytes) :
    exec .payloadEncode s = .next { s.emitted (payloadOf s.tree s.arg.toNat bits) with
      inRp := BitVec.ofNat 64 (s.inRp.toNat + s.arg.toNat), err := false, errcode := 0, flight := none } := by
  simp only [exec, execPayloadEncode, if_neg (Nat.not_lt.mpr hin), hcodes, emit_ok.mpr ⟨h, rfl⟩, endCommand]
  rfl

end

/-- Settles O45: the codes of the n symbols one after another are the bits of the payload, and ARG is its count. -/
theorem payloadEncodeAppendsThePayload : Obligations.PayloadEncodeAppendsThePayload := by
  refine ⟨rfl, fun s => exec_payloadEncode_of_underrun,
    fun s hin h => exec_payloadEncode_of_absent hin (codesOf_none _ _ h), fun s codes b _ hin hmap hb => ?_⟩
  have hcodes := codesOf_some _ _ _ hmap
  obtain rfl : b = payloadOf s.tree s.arg.toNat codes.flatten := by rw [hb, payloadOf, BitVec.ofNat_toNat, BitVec.setWidth_eq]
  exact ⟨exec_payloadEncode_of_full hin hcodes, fun hroom => ⟨_, _, exec_payloadEncode_of_room hin hcodes hroom, rfl,
    emitted_bytes hroom rfl rfl rfl rfl⟩⟩

/-! ## PAYLOAD_DECODE -/

theorem exec_payloadDecode_of_parse_error {s : State} {e : ErrCode}
    (h : parseTree s.inByte .shape s.inRp.toNat s.inLen.toNat s.freeNodes = .error e) :
    exec .payloadDecode s = .next (s.rollback e) := by
  simp only [exec, execPayloadDecode, h, endCommand]

/-- The check for a count with no root passes (R205). -/
theorem not_count_without_root {t : Option Tree} {n : Nat} (h : n = 0 ∨ t ≠ none) : ¬(n > 0 ∧ t = none) := by
  rwa [not_and_or, Nat.not_lt, Nat.le_zero]

section

variable {s : State} {t : Option Tree} {c n : Nat}
  (hparse : parseTree s.inByte .shape s.inRp.toNat s.inLen.toNat s.freeNodes = .ok (t, c))

include hparse

theorem exec_payloadDecode_of_cut_count (h : s.inLen.toNat < c + 8) :
    exec .payloadDecode s = .next (s.rollback .corruptedArchive) := by
  simp only [exec, execPayloadDecode, hparse, if_pos h, endCommand]

variable (hcount : c + 8 ≤ s.inLen.toNat) (hn : n = (readLE64 s.inByte c).toNat)

include hcount hn

/-- A count with no tree to decode its symbols by (R205). -/
theorem exec_payloadDecode_of_no_root (hpos : 0 < n) (hempty : t = none) :
    exec .payloadDecode s = .next (s.rollback .corruptedArchive) := by
  simp only [exec, execPayloadDecode, hparse, if_neg (Nat.not_lt.mpr hcount), ← hn, if_pos (And.intro hpos hempty), endCommand]

variable (hroot : n = 0 ∨ t ≠ none)

include hroot

theorem exec_payloadDecode_of_full (h : s.caps.outBytes < s.outLen.toNat + n) :
    exec .payloadDecode s = .next (s.rollback .capacityExceeded) := by
  simp only [exec, execPayloadDecode, hparse, if_neg (Nat.not_lt.mpr hcount), ← hn,
    if_neg (not_count_without_root hroot), if_pos h, endCommand]

variable (hroom : s.outLen.toNat + n ≤ s.caps.outBytes)

include hroom

theorem exec_payloadDecode_of_cut_bits
    (h : decodeMany (fun j => decide (c + 8 + j / 8 < s.inLen.toNat)) (s.inBit (c + 8)) t n = none) :
    exec .payloadDecode s = .next (s.rollback .corruptedArchive) := by
  simp only [exec, execPayloadDecode, hparse, if_neg (Nat.not_lt.mpr hcount), ← hn,
    if_neg (not_count_without_root hroot), if_neg (Nat.not_lt.mpr hroom), h, endCommand]

/-- Where no check fails, the n symbols the walk gives are stored from OUT[OUT_LEN] on, and no other byte changes (R205). -/
theorem exec_payloadDecode_of_symbols {symbols : List Byte} {p : Nat}
    (h : decodeMany (fun j => decide (c + 8 + j / 8 < s.inLen.toNat)) (s.inBit (c + 8)) t n = some (symbols, p)) :
    ∃ u mem', exec .payloadDecode s = .next u ∧
      u = { s with
        mem := mem', outLen := BitVec.ofNat 64 (s.outLen.toNat + n), result := BitVec.ofNat 64 n, tree := t
        inRp := BitVec.ofNat 64 (c + 8 + (p + 7) / 8), err := false, errcode := 0, flight := none } ∧
      (∀ k (hk : k < symbols.length), u.outByte (s.outLen.toNat + k) = symbols[k]) ∧
      ∀ a, ¬(Config.outBase + s.outLen.toNat ≤ a ∧ a < Config.outBase + s.outLen.toNat + n) → u.ramByte a = s.ramByte a := by
  obtain ⟨hlen, -⟩ := decodeMany_some h
  have hemit := emit_ok.mpr ⟨hlen.symm ▸ hroom, rfl⟩
  have hexec : exec .payloadDecode s = .next { s.emitted symbols with
      tree := t, inRp := BitVec.ofNat 64 (c + 8 + (p + 7) / 8), err := false, errcode := 0, flight := none } := by
    simp only [exec, execPayloadDecode, hparse, if_neg (Nat.not_lt.mpr hcount), ← hn,
      if_neg (not_count_without_root hroot), if_neg (Nat.not_lt.mpr hroom), h, hemit, endCommand]
    rfl
  subst hlen
  exact ⟨_, _, hexec, rfl, emitted_bytes hroom rfl rfl rfl rfl⟩

end

/-- Settles O46: one lemma for each check, in their order, and one for the commit. -/
theorem payloadDecodeChecksInOrder : Obligations.PayloadDecodeChecksInOrder := by
  refine ⟨rfl, fun s e => exec_payloadDecode_of_parse_error, fun s t c hparse =>
    ⟨exec_payloadDecode_of_cut_count hparse, fun hcount n hn => ⟨exec_payloadDecode_of_no_root hparse hcount hn,
      exec_payloadDecode_of_full hparse hcount hn, fun hroot hroom r hr => ?_⟩⟩⟩
  subst hr
  exact ⟨exec_payloadDecode_of_cut_bits hparse hcount hn hroot hroom, fun symbols p h =>
    ⟨(decodeMany_some h).1, exec_payloadDecode_of_symbols hparse hcount hn hroot hroom h⟩⟩

/-! ## What the walk reads -/

/-- Two walks end at the same leaf and bit where they read the same bits (R162). -/
theorem walk_unique {avail bit avail' bit' : Nat → Bool} {t : Tree} {p : Nat} {r r' : Byte × Nat}
    (hagree : ∀ k, avail k = true → avail' k = true → bit k = bit' k)
    (h : walk avail bit t p = some r) (h' : walk avail' bit' t p = some r') : r = r' := by
  induction t generalizing p with
  | leaf s w => exact Option.some.inj (h.symm.trans h')
  | node w l r ihl ihr =>
    simp only [walk, Option.ite_none_right_eq_some] at h h'
    obtain ⟨ha, h⟩ := h
    obtain ⟨ha', h'⟩ := h'
    rw [← hagree p ha ha'] at h'
    cases hb : bit p with
    | true =>
      rw [if_pos hb] at h h'
      exact ihr h h'
    | false =>
      rw [if_neg (by simp [hb])] at h h'
      exact ihl h h'

/-- A walk through n + 1 symbols is one through the first and one through the rest, from the bit where that ended. -/
theorem walkMany_succ {avail bit : Nat → Bool} {t : Tree} {n p : Nat} {r : List Byte × Nat} :
    walkMany avail bit t (n + 1) p = some r ↔
      ∃ x q, walk avail bit t p = some (x, q) ∧ ∃ xs p', walkMany avail bit t n q = some (xs, p') ∧ r = (x :: xs, p') := by
  rw [walkMany]
  cases walk avail bit t p with
  | none => simp
  | some r =>
    obtain ⟨x, q⟩ := r
    cases hm : walkMany avail bit t n q with
    | none => simp [hm]
    | some r =>
      obtain ⟨xs, p'⟩ := r
      simp [hm, eq_comm]

theorem walkMany_unique {avail bit avail' bit' : Nat → Bool} {t : Tree} {n p : Nat} {r r' : List Byte × Nat}
    (hagree : ∀ k, avail k = true → avail' k = true → bit k = bit' k)
    (h : walkMany avail bit t n p = some r) (h' : walkMany avail' bit' t n p = some r') : r = r' := by
  induction n generalizing p r r' with
  | zero => exact Option.some.inj (h.symm.trans h')
  | succ n ih =>
    obtain ⟨x, q, hx, xs, p1, hxs, rfl⟩ := walkMany_succ.mp h
    obtain ⟨x', q', hx', xs', p1', hxs', rfl⟩ := walkMany_succ.mp h'
    obtain ⟨rfl, rfl⟩ := Prod.mk.inj (walk_unique hagree hx hx')
    obtain ⟨rfl, rfl⟩ := Prod.mk.inj (ih hxs hxs')
    rfl

theorem decodeMany_unique {avail bit avail' bit' : Nat → Bool} {t : Option Tree} {n : Nat} {r r' : List Byte × Nat}
    (hagree : ∀ k, avail k = true → avail' k = true → bit k = bit' k)
    (h : decodeMany avail bit t n = some r) (h' : decodeMany avail' bit' t n = some r') : r = r' := by
  cases t with
  | none => exact Option.some.inj (h.symm.trans h')
  | some t => exact walkMany_unique hagree h h'

/-- Symbols that have codes have a tree to decode them by, unless there are none of them (R11). -/
theorem codes_root {t : Option Tree} {symbols : List Byte} {codes : List (List Bool)}
    (h : symbols.map (codeOf t) = codes.map some) : symbols.length = 0 ∨ t.map Tree.zeroed ≠ none := by
  cases t with
  | some t => exact .inr (Option.some_ne_none _)
  | none =>
    cases symbols with
    | nil => exact .inl rfl
    | cons x symbols => cases codes <;> simp [codeOf] at h

section

variable {avail bit : Nat → Bool} {t : Option Tree} {symbols : List Byte} {codes : List (List Bool)}
  (hcodes : symbols.map (codeOf t) = codes.map some)

include hcodes

/-- The bits of a payload decode to its symbols by the tree read back from its shape, whatever bits follow (R205). -/
theorem decodeMany_codes (havail : ∀ k < codes.flatten.length, avail k = true)
    (hbit : ∀ k (hk : k < codes.flatten.length), bit k = codes.flatten[k]) :
    decodeMany avail bit (t.map Tree.zeroed) symbols.length = some (symbols, codes.flatten.length) := by
  cases t with
  | none =>
    obtain h | h := codes_root hcodes
    · obtain rfl := List.length_eq_zero_iff.mp h
      obtain rfl := List.map_eq_nil_iff.mp hcodes.symm
      rfl
    · exact absurd rfl h
  | some t =>
    have hzeroed : symbols.map t.zeroed.code = codes.map some := by
      rw [← hcodes]
      exact List.map_congr_left fun x _ => t.zeroed_code x
    have h := walkMany_codes symbols codes 0 hzeroed (avail := avail) (bit := bit) (by simpa using havail) (by simpa using hbit)
    rwa [Nat.zero_add] at h

/-- Where a bit of a payload is cut off, its bits run out: what is left decodes to no other symbols (R207). -/
theorem decodeMany_codes_cut {k : Nat} (hk : k < codes.flatten.length) (hcut : avail k ≠ true)
    (hbit : ∀ k (hk : k < codes.flatten.length), avail k = true → bit k = codes.flatten[k]) :
    decodeMany avail bit (t.map Tree.zeroed) symbols.length = none := by
  have hwhole := decodeMany_codes hcodes (avail := fun k => decide (k < codes.flatten.length))
    (bit := fun k => codes.flatten.getD k false) (fun k hk => decide_eq_true hk) fun k hk => List.getD_eq_getElem _ _ hk
  refine Option.eq_none_iff_forall_ne_some.mpr fun r h => hcut ?_
  have hagree : ∀ k, avail k = true → decide (k < codes.flatten.length) = true → bit k = codes.flatten.getD k false := by
    intro k ha hlt
    rw [hbit k (of_decide_eq_true hlt) ha, List.getD_eq_getElem]
  obtain rfl := decodeMany_unique hagree h hwhole
  exact (decodeMany_some h).2 k hk

end

/-! ## The bytes of a payload -/

/-- A packed bit standing in IN (R74, R203). -/
theorem inBit_of_pack {s : State} {c j : Nat} {bits : List Bool} (hj : j < bits.length)
    (h : ∀ hk : j / 8 < (pack bits).length, s.inByte (c + j / 8) = (pack bits)[j / 8]) : s.inBit c j = bits[j] := by
  have hbyte : j / 8 < (pack bits).length := by rw [pack_length]; omega
  have hbitof := bitof_pack bits j (by rw [pack_length]; omega)
  rw [bitof, List.getD_eq_getElem _ _ hbyte, List.getD_eq_getElem _ _ hj] at hbitof
  rw [State.inBit, h hbyte, hbitof]

/-- `parse` where the shape-only form of a tree stands (R189). -/
theorem parseTree_serShape {byte : Nat → Byte} {base limit avail : Nat} {t : Option Tree} (hat : BytesAt byte base (serShape t))
    (hlen : base + (serShape t).length ≤ limit) (hfit : nodesOf t ≤ avail) :
    parseTree byte .shape base limit avail = .ok (t.map Tree.zeroed, base + (serShape t).length) := by
  rw [← serialized_shape] at hat hlen ⊢
  exact parseTree_serialized hat hlen hfit

/-- The count of a payload is read back (R202, R205). -/
theorem readLE64_count {byte : Nat → Byte} {c n : Nat} (hat : BytesAt byte c (le64 (BitVec.ofNat 64 n))) (hn : n < 2 ^ 64) :
    n = (readLE64 byte c).toNat := by
  rw [readLE64_le64 _ byte c fun k hk => hat k (by simpa), BitVec.toNat_ofNat, Nat.mod_eq_of_lt hn]

/-- OUT holds fewer than 2^64 bytes, and so do the symbols that fit there (R6). -/
theorem State.Inv.symbols_lt {s : State} (h : s.Inv) {n : Nat} (hroom : s.outLen.toNat + n ≤ s.caps.outBytes) : n < 2 ^ 64 := by
  have hcap := h.caps.2.2.1.2
  omega

/-- Settles O47: the tree's form, the count and the packed codes stand one after another, and each is read back. -/
theorem payloadDecodeReadsBackAPayload : Obligations.PayloadDecodeReadsBackAPayload := by
  rintro s t symbols codes _ hs hcodes rfl ⟨hlen, hat⟩ hfit hroom
  have hend : s.inRp.toNat + (serShape t ++ le64 (BitVec.ofNat 64 symbols.length) ++ pack codes.flatten).length =
      s.inRp.toNat + (serShape t).length + 8 + (codes.flatten.length + 7) / 8 := by
    simp only [List.length_append, le64_length, pack_length, Nat.add_assoc]
  rw [hend] at hlen ⊢
  obtain ⟨hhead, hbits⟩ := bytesAt_append.mp (show BytesAt s.inByte s.inRp.toNat _ from hat)
  obtain ⟨htree, hcount⟩ := bytesAt_append.mp hhead
  rw [List.length_append, le64_length, ← Nat.add_assoc] at hbits
  refine exec_payloadDecode_of_symbols (parseTree_serShape htree (by omega) hfit) (by omega)
    (readLE64_count hcount (hs.symbols_lt hroom)) (codes_root hcodes) hroom (decodeMany_codes hcodes (fun k hk => ?_) fun k hk => ?_)
  · exact decide_eq_true (by omega)
  · exact inBit_of_pack hk (hbits _)

/-- Settles O48: without packed bytes the cut byte is the last one of the count; else it is the last packed byte, and the last bit
of the codes is in it. -/
theorem cutPayloadIsCorrupted : Obligations.CutPayloadIsCorrupted := by
  rintro s t symbols codes b hs hcodes hb hend hbytes hfit hroom
  have hat : BytesAt s.inByte s.inRp.toNat b.dropLast := fun k hk => by
    rw [List.length_dropLast] at hk
    rw [List.getElem_dropLast, hbytes k (by omega) (by omega)]
  have hlast : le64 (BitVec.ofNat 64 symbols.length) ++ pack codes.flatten ≠ [] :=
    List.append_ne_nil_of_left_ne_nil (List.ne_nil_of_length_pos (by simp)) _
  rw [hb, List.append_assoc, List.dropLast_append_of_ne_nil hlast] at hat
  rw [hb] at hend
  simp only [List.length_append, le64_length, pack_length] at hend
  obtain ⟨htree, hrest⟩ := bytesAt_append.mp hat
  have hparse := parseTree_serShape (limit := s.inLen.toNat) htree (by omega) hfit
  by_cases hempty : codes.flatten.length = 0
  · exact exec_payloadDecode_of_cut_count hparse (by omega)
  have hpack : pack codes.flatten ≠ [] := List.ne_nil_of_length_pos (by rw [pack_length]; omega)
  rw [List.dropLast_append_of_ne_nil hpack] at hrest
  obtain ⟨hcount, hbits⟩ := bytesAt_append.mp hrest
  rw [le64_length] at hbits
  refine exec_payloadDecode_of_cut_bits hparse (by omega) (readLE64_count hcount (hs.symbols_lt hroom)) (codes_root hcodes) hroom
    (decodeMany_codes_cut hcodes (k := codes.flatten.length - 1) (by omega) ?_ fun k hk havail => ?_)
  · rw [ne_eq, decide_eq_true_iff]
    omega
  · have hlt := of_decide_eq_true havail
    refine inBit_of_pack hk fun hbyte => ?_
    rw [hbits (k / 8) (by rw [List.length_dropLast, pack_length]; omega), List.getElem_dropLast]

/-! ## The single-symbol policy -/

/-- The code of the symbol of a single leaf is empty, and so are the codes of its copies one after another (R206). -/
theorem codesOf_replicate_leaf (sym : Byte) (w : Word) (n : Nat) :
    codesOf (some (.leaf sym w)) (List.replicate n sym) = some [] := by
  induction n with
  | zero => rfl
  | succ n ih => exact codesOf_cons.mpr ⟨[], [], if_pos rfl, ih, rfl⟩

/-- Settles O49: an empty code needs no room, no bit of bv and no packed byte. -/
theorem singleSymbolPolicy : Obligations.SingleSymbolPolicy := by
  intro s sym w htree hroom
  refine ⟨?_, ?_, fun n => ⟨[], htree ▸ codesOf_replicate_leaf sym w n, ?_⟩⟩
  · have hcode : codeOf s.tree sym = some [] := by rw [htree]; exact if_pos rfl
    rw [exec_encodeSym_of_code hcode, appendBits_ok.mpr ⟨by simpa using hroom, rfl⟩, List.append_nil]
    rfl
  · rw [exec_decodeSym_of_leaf htree rfl, BitVec.ofNat_toNat, BitVec.setWidth_eq]
  · rw [payloadOf, htree]
    exact List.append_nil _

end Sys2Proof.Machine

/-! The statement on spec/60_exceptions.md: which command reports which error. -/

namespace Sys2Proof.Machine

/-- A command that leaves the code of an error has rolled back with that error: a commit leaves 0, and the codes differ (R220). -/
theorem mem_errorsOf_of_errcode {i : Instr} {s t : State} {e : ErrCode} (h : exec i s = .next t) (hcode : t.errcode = e.bits) :
    e ∈ errorsOf i := by
  obtain ⟨u, -, rfl⟩ | ⟨e', hmem, rfl⟩ := exec_next h
  · exact absurd hcode.symm e.bits_range.1
  · rwa [← ErrCode.bits_inj hcode]

/-- The table of R220, read by its rows: `errorsOf` lists the errors of each command, this the commands of each error. -/
theorem errorsOf_rows (i : Instr) :
    (.invalidBitIndex ∈ errorsOf i ↔ i = .bvGet ∨ ∃ v, i = .bvSet v) ∧
    (.emptyQueue ∈ errorsOf i ↔ i = .pqMerge ∨ i = .pqPop) ∧
    (.symbolNotFound ∈ errorsOf i ↔ (∃ x, i = .encodeSym x) ∨ i = .payloadEncode) ∧
    (.corruptedArchive ∈ errorsOf i ↔ i = .decodeSym ∨ i = .importShape ∨ i = .importFull ∨ i = .payloadDecode) ∧
    (.capacityExceeded ∈ errorsOf i ↔ (∃ v, i = .bvAppend v) ∨ i = .bvReserve ∨ i = .bvPack ∨ i = .bvUnpack ∨
      (∃ x, i = .pqPushLeaf x) ∨ i = .pqMerge ∨ (∃ x, i = .encodeSym x) ∨ i = .exportShape ∨ i = .exportFull ∨
      i = .importShape ∨ i = .importFull ∨ i = .payloadEncode ∨ i = .payloadDecode) ∧
    .illegalCommand ∉ errorsOf i ∧
    (.weightOverflow ∈ errorsOf i ↔ i = .build ∨ i = .pqMerge) ∧
    (.inputUnderrun ∈ errorsOf i ↔ i = .bvUnpack ∨ i = .payloadEncode) := by
  cases i <;> simp [errorsOf]

/-- Settles O14: the error reported is one of the command's own, and `errorsOf_rows` names the commands that have it. -/
theorem errorCodesByCommand : Obligations.ErrorCodesByCommand := by
  intro i s t h
  obtain ⟨index, queue, symbol, archive, capacity, illegal, weight, underrun⟩ := errorsOf_rows i
  exact ⟨fun hc => index.mp (mem_errorsOf_of_errcode h hc), fun hc => queue.mp (mem_errorsOf_of_errcode h hc),
    fun hc => symbol.mp (mem_errorsOf_of_errcode h hc), fun hc => archive.mp (mem_errorsOf_of_errcode h hc),
    fun hc => capacity.mp (mem_errorsOf_of_errcode h hc), fun hc => illegal (mem_errorsOf_of_errcode h hc),
    fun hc => weight.mp (mem_errorsOf_of_errcode h hc), fun hc => underrun.mp (mem_errorsOf_of_errcode h hc)⟩

end Sys2Proof.Machine

/-! The statements on spec/70_reset_and_hazards.md: the reset values, the soft reset, and the host's accesses while BUSY = 1. -/

namespace Sys2Proof.Machine

/-! ## Accesses while BUSY = 1 -/

/-- The registers R261 defines while BUSY = 1, by name. -/
theorem definedWhileBusy_iff (r : Reg) :
    definedWhileBusy r = true ↔ r = .id ∨ r = .cmd ∨ r = .ctrl ∨ r = .status ∨ r = .capBv ∨ r = .capIn ∨ r = .capOut ∨
      r = .capNode ∨ r = .capPq := by
  cases r <;> simp [definedWhileBusy]

/-- The registers R261 leaves unspecified while BUSY = 1, by name. -/
theorem not_definedWhileBusy_iff (r : Reg) :
    definedWhileBusy r = false ↔ r = .arg ∨ r = .result ∨ r = .bvLen ∨ r = .pos ∨ r = .inLen ∨ r = .inRp ∨ r = .outLen ∨
      r = .pqLen ∨ r = .nodesUsed ∨ ∃ x, r = .freq x := by
  cases r <;> simp [definedWhileBusy]

/-- While BUSY = 1 a 64-bit read at a register's offset returns its value or a free one, and uses up a draw (R261, log 5). -/
theorem busRead_reg_busy {s : State} (h : s.busy = true) (r : Reg) :
    busRead r.offset 8 s =
      .next { s with
        reads := (if definedWhileBusy r then s.readReg r else Config.freeWord s.draws) :: s.reads
        draws := s.draws + 1 } := by
  rw [busRead_reg, hostRead_busy h, State.readTarget, h]
  cases definedWhileBusy r <;> rfl

/-- While BUSY = 1 a read of backed bytes of a window returns the low bytes of a free value (R261, log 5). -/
theorem busRead_windowBytes_busy {s : State} {a n : Nat} (hc : s.caps.Ok) (h : s.busy = true)
    (hwin : windowBytes s.caps a n) :
    busRead a n s =
      .next { s with
        reads := BitVec.ofNat 64 ((Config.freeWord s.draws).toNat % 256 ^ n) :: s.reads, draws := s.draws + 1 } := by
  rw [busRead, busTarget_windowBytes hc hwin]
  simp only [hostRead_busy h, State.readTarget, h, if_true]

/-- Settles O57, from what a read of a register and of window bytes returns while BUSY = 1. -/
theorem busyReads : Obligations.BusyReads := by
  refine fun s hc h => ⟨fun r hr => ?_, fun r hr => ?_, fun a n hwin => ⟨_, busRead_windowBytes_busy hc h hwin, ?_⟩⟩
  · rw [busRead_reg_busy h, if_pos ((definedWhileBusy_iff r).mpr hr)]
  · rw [busRead_reg_busy h, (not_definedWhileBusy_iff r).mpr hr]
    rfl
  · exact Nat.mod_eq_of_lt ((Nat.mod_le _ _).trans_lt (Config.freeWord s.draws).isLt)

/-- A write to CTRL is taken, whether BUSY is 0 or 1 (R40, R251). -/
theorem busWrite_ctrl (s : State) (v : Word) : busWrite 0x060 8 v s = .next (s.writeCtrl v) :=
  (busWrite_reg s .ctrl v).trans (congrArg Host.Outcome.next (ite_self _))

/-- A write of bit 0 = 1 to CTRL is a soft reset (R40, R251). -/
theorem busWrite_ctrl_set (s : State) {v : Word} (hv : v.getLsbD 0 = true) : busWrite 0x060 8 v s = .next s.softReset := by
  rw [busWrite_ctrl, State.writeCtrl, if_pos hv]

/-- A write of bit 0 = 0 to CTRL has no effect (R40). -/
theorem busWrite_ctrl_clear (s : State) {v : Word} (hv : v.getLsbD 0 = false) : busWrite 0x060 8 v s = .next s := by
  rw [busWrite_ctrl, State.writeCtrl, if_neg (Bool.eq_false_iff.mp hv)]

/-- While BUSY = 1 a write the host may make at any address but CTRL's only sets HAZ (R36, R260). -/
theorem busWrite_busy {s : State} {a n : Nat} (h : s.busy = true) (ha : a ≠ Reg.ctrl.offset) (hok : accessOk s.caps a n)
    (v : Word) : busWrite a n v s = .next s.setHaz := by
  obtain ⟨-, t, ht⟩ | ⟨hno, -⟩ := busWrite_answer a n v s
  · obtain ⟨tgt, htgt, ⟨-, rfl, -⟩ | ⟨-, -, rfl⟩ | ⟨hidle, -⟩⟩ := busWrite_next ht
    · exact absurd (busTarget_reg.mp htgt).1 ha
    · exact ht
    · exact absurd h (Bool.eq_false_iff.mp hidle)
  · exact absurd hok hno

/-- Settles O56: `busWrite_busy` away from CTRL, and at CTRL a soft reset. -/
theorem busyWritesAreDiscarded : Obligations.BusyWritesAreDiscarded :=
  ⟨fun _ _ _ v h ha hok => busWrite_busy h ha hok v,
    fun s _ _ hv => ⟨s.softReset, busWrite_ctrl_set s hv, s.busy_softReset, s.softReset_haz, s.softReset_tree, s.softReset_bv,
      s.softReset_pq⟩⟩

/-! ## Reset -/

/-- With no byte written and no roll back since the last reset, every window byte reads the free value of that reset's draw (R51,
R67, log 3). -/
theorem State.ramByte_unwritten {s : State} (hmem : s.mem = []) (hdraws : s.outDraws = []) (a : Nat) :
    s.ramByte a = Config.freeByte s.ramDraw a := by
  rw [State.ramByte, hmem, Memory.get, State.drawOf, hdraws, List.find?_nil]

/-- Settles O55: a CTRL write with bit 0 = 1 is a soft reset, after which no window byte has been written. -/
theorem softResetGivesTheResetState : Obligations.SoftResetGivesTheResetState := by
  refine fun s v => ⟨fun hv => ⟨busWrite_ctrl_set s hv, fun t ht a => ?_⟩, busWrite_ctrl_clear s⟩
  obtain rfl : s.softReset = t := Host.Outcome.next.inj ((busWrite_ctrl_set s hv).symm.trans ht)
  exact State.ramByte_unwritten s.softReset_mem s.softReset_outDraws a

/-- The registers that read 0 after reset are all but the constants of R51. -/
theorem readReg_reset {r : Reg} (hid : r ≠ .id) (hbv : r ≠ .capBv) (hin : r ≠ .capIn) (hout : r ≠ .capOut)
    (hnode : r ≠ .capNode) (hpq : r ≠ .capPq) : State.reset.readReg r = 0 := by
  cases r with
  | id | capBv | capIn | capOut | capNode | capPq => contradiction
  | freq sym => exact State.freqOf_clear rfl sym
  | cmd | status | arg | result | bvLen | pos | inLen | inRp | outLen | pqLen | nodesUsed | ctrl => rfl

/-- Settles O9: the registers by `readReg_reset`, and the idle block's step by `step_idle`, the host having nothing to do. -/
theorem resetLeavesTheResetValues : Obligations.ResetLeavesTheResetValues :=
  ⟨fun _ => readReg_reset, rfl, rfl, rfl, rfl, rfl, State.freqOf_clear rfl, State.ramByte_unwritten rfl rfl, ⟨rfl, rfl⟩,
    step_idle rfl⟩

end Sys2Proof.Machine
